-- ==== Sys2Proof/Word.lean ====
section
/-! DEFINITION. The two word types of the machine: a byte of memory and a 64-bit register value
(00_scope.md R6, R8). -/

namespace Sys2Proof

/-- One byte of memory or of an encoded instruction (20_memory.md R60). -/
abbrev Byte := BitVec 8

/-- A u64: an integer register, an address, or the bit pattern of an f64 (00_scope.md R6, R8). -/
abbrev Word := BitVec 64

end Sys2Proof
end

