-- ==== Sys2Proof/Config.lean ====
section
/-! DEFINITION. The launch parameters of 00_scope.md R6 and the one free value of the spec, F2U_OOR.
The parameters are plain data and stand in State, so that every statement holds for all of them
(log entry 3). -/

namespace Sys2Proof

/-- SIZE_BYTE_POLICY: what decode does when byte 0 differs from the computed size
(30_encoding.md R111). -/
inductive SizeBytePolicy where
  | strict
  | trustByte0
deriving DecidableEq, Repr

/-- MOD_ZERO_POLICY: what `mod` by zero does (43_arithmetic.md R204). -/
inductive ModZeroPolicy where
  | zero
  | fault
deriving DecidableEq, Repr

/-- RESERVED_OP_MODE: what the 28 reserved opcodes do (40_sequencer.md R135). -/
inductive ReservedOpMode where
  | architected
  | referenceNop
deriving DecidableEq, Repr

/-- The three number tables of the codec, as launch arguments: OPCODE_NUM, MODE_TAG and SIZE_CODE
(00_scope.md R6, 30_encoding.md R96, R97, R99; log entry 4). An entry stands at the place that
`Op.index`, `Mode.index` or `OperandSize.index` of Decode.lean gives its name. -/
structure NumberTables where
  opcodeNum : Vector (BitVec 16) 43
  modeTag   : Vector Byte 16
  sizeCode  : Vector Byte 5
deriving DecidableEq, Repr

/-- The tables are injective, so that each can be read back (30_encoding.md R96, R104; log entry 4). -/
abbrev NumberTables.Valid (t : NumberTables) : Prop :=
  t.opcodeNum.toList.Nodup ∧ t.modeTag.toList.Nodup ∧ t.sizeCode.toList.Nodup

/-- The launch parameters of one machine (00_scope.md R6). No instruction reads or writes them. -/
structure Config where
  heapSize       : Nat
  tables         : NumberTables
  sizeBytePolicy : SizeBytePolicy
  sizedMemory    : Bool
  modZeroPolicy  : ModZeroPolicy
  reservedOpMode : ReservedOpMode
deriving DecidableEq, Repr

/-- HEAP_SIZE lies in its range, `1 <= HEAP_SIZE <= 2^64 - 1` (00_scope.md R6, 92_eei_decisions.md
D36), and the number tables are injective (30_encoding.md R96). -/
abbrev Config.Valid (c : Config) : Prop :=
  1 ≤ c.heapSize ∧ c.heapSize < 2 ^ 64 ∧ c.tables.Valid

/-- F2U_OOR: the u64 that a NaN, an infinity, a value at or below -1, or a value at or above 2^64
converts to. The spec leaves it an unconstrained function of the float (41_operand_resolver.md R161,
log entry 6), so it has no body. -/
opaque Config.f2uOor : Word → Word

end Sys2Proof
end

