-- ==== Sys2Proof/Syntax.lean ====
section
/-! DEFINITION. The syntax of an instruction: the record of 30_encoding.md R90, with one constructor
of `Instr` per row of spec/opcode_table.json. Every opcode can carry any size qualifier and any
operands; which operand counts it accepts is checked at dispatch (40_sequencer.md R134), so the
count is part of the meaning and not of the syntax. -/

namespace Sys2Proof

/-- The operand size qualifier (30_encoding.md R90, R99). -/
inductive OperandSize where
  | none
  | byte
  | word
  | dword
  | qword
deriving DecidableEq, Repr

/-- The register-kind addressing modes: `index` names a register (30_encoding.md R97, R98). -/
inductive RegMode where
  | registerInteger
  | registerFloat
  | incrementRegisterPre
  | incrementRegisterPost
  | decrementRegisterPre
  | decrementRegisterPost
deriving DecidableEq, Repr

/-- The special-register addressing modes (30_encoding.md R97, R98). -/
inductive SpecialMode where
  | registerSp
  | registerPc
  | registerFlags
  | registerStatus
deriving DecidableEq, Repr

/-- The constant-kind addressing modes: an 8-byte payload follows (30_encoding.md R97, R98). -/
inductive ConstMode where
  | constantInteger
  | constantFloat
  | incrementConstantPre
  | incrementConstantPost
  | decrementConstantPre
  | decrementConstantPost
deriving DecidableEq, Repr

/-- An addressing mode: one of the 16 of 30_encoding.md R97, by class. -/
inductive Mode where
  | reg     (m : RegMode)
  | special (m : SpecialMode)
  | const   (m : ConstMode)
deriving DecidableEq, Repr

/-- One operand (30_encoding.md R91). The index byte is part of it in every mode, since a round trip
keeps it (R113, R116); a payload is held for constant-kind modes only. A float payload is held as its
bit pattern (R100). -/
inductive Operand where
  | reg     (m : RegMode)     (index : Byte)
  | special (m : SpecialMode) (index : Byte)
  | const   (m : ConstMode)   (index : Byte) (payload : Word)
deriving DecidableEq, Repr

/-- The operand's addressing mode. -/
def Operand.mode : Operand → Mode
  | .reg m _ => .reg m
  | .special m _ => .special m
  | .const m _ _ => .const m

/-- The operand's index byte. -/
def Operand.index : Operand → Byte
  | .reg _ i => i
  | .special _ i => i
  | .const _ i _ => i

/-- Is the operand of a constant-kind mode (30_encoding.md R98)? -/
def Operand.isConst : Operand → Bool
  | .reg _ _ => false
  | .special _ _ => false
  | .const _ _ _ => true

/-- The 43 opcodes (30_encoding.md R96, R115). The opcode `meta` is spelled `metaData` here, since
Lean reserves the word. -/
inductive Op where
  | nop
  | load
  | store
  | move
  | push
  | pop
  | add
  | sub
  | mul
  | div
  | mod
  | neg
  | shr
  | shl
  | ror
  | rol
  | and
  | or
  | xor
  | not
  | bis
  | bic
  | test
  | cmp
  | bz
  | bnz
  | tbz
  | tbnz
  | bne
  | beq
  | bae
  | ba
  | ble
  | bl
  | bo
  | bcc
  | bcs
  | jsr
  | rts
  | jmp
  | metaData
  | debug
  | exit
deriving DecidableEq, Repr

/-- An instruction: its opcode, its size qualifier and its operands in slot order (30_encoding.md
R90). -/
inductive Instr where
  | nop (size : OperandSize) (operands : List Operand)
  | load (size : OperandSize) (operands : List Operand)
  | store (size : OperandSize) (operands : List Operand)
  | move (size : OperandSize) (operands : List Operand)
  | push (size : OperandSize) (operands : List Operand)
  | pop (size : OperandSize) (operands : List Operand)
  | add (size : OperandSize) (operands : List Operand)
  | sub (size : OperandSize) (operands : List Operand)
  | mul (size : OperandSize) (operands : List Operand)
  | div (size : OperandSize) (operands : List Operand)
  | mod (size : OperandSize) (operands : List Operand)
  | neg (size : OperandSize) (operands : List Operand)
  | shr (size : OperandSize) (operands : List Operand)
  | shl (size : OperandSize) (operands : List Operand)
  | ror (size : OperandSize) (operands : List Operand)
  | rol (size : OperandSize) (operands : List Operand)
  | and (size : OperandSize) (operands : List Operand)
  | or (size : OperandSize) (operands : List Operand)
  | xor (size : OperandSize) (operands : List Operand)
  | not (size : OperandSize) (operands : List Operand)
  | bis (size : OperandSize) (operands : List Operand)
  | bic (size : OperandSize) (operands : List Operand)
  | test (size : OperandSize) (operands : List Operand)
  | cmp (size : OperandSize) (operands : List Operand)
  | bz (size : OperandSize) (operands : List Operand)
  | bnz (size : OperandSize) (operands : List Operand)
  | tbz (size : OperandSize) (operands : List Operand)
  | tbnz (size : OperandSize) (operands : List Operand)
  | bne (size : OperandSize) (operands : List Operand)
  | beq (size : OperandSize) (operands : List Operand)
  | bae (size : OperandSize) (operands : List Operand)
  | ba (size : OperandSize) (operands : List Operand)
  | ble (size : OperandSize) (operands : List Operand)
  | bl (size : OperandSize) (operands : List Operand)
  | bo (size : OperandSize) (operands : List Operand)
  | bcc (size : OperandSize) (operands : List Operand)
  | bcs (size : OperandSize) (operands : List Operand)
  | jsr (size : OperandSize) (operands : List Operand)
  | rts (size : OperandSize) (operands : List Operand)
  | jmp (size : OperandSize) (operands : List Operand)
  | metaData (size : OperandSize) (operands : List Operand)
  | debug (size : OperandSize) (operands : List Operand)
  | exit (size : OperandSize) (operands : List Operand)
deriving DecidableEq, Repr

/-- The opcode of an instruction. -/
def Instr.op : Instr → Op
  | .nop _ _ => .nop
  | .load _ _ => .load
  | .store _ _ => .store
  | .move _ _ => .move
  | .push _ _ => .push
  | .pop _ _ => .pop
  | .add _ _ => .add
  | .sub _ _ => .sub
  | .mul _ _ => .mul
  | .div _ _ => .div
  | .mod _ _ => .mod
  | .neg _ _ => .neg
  | .shr _ _ => .shr
  | .shl _ _ => .shl
  | .ror _ _ => .ror
  | .rol _ _ => .rol
  | .and _ _ => .and
  | .or _ _ => .or
  | .xor _ _ => .xor
  | .not _ _ => .not
  | .bis _ _ => .bis
  | .bic _ _ => .bic
  | .test _ _ => .test
  | .cmp _ _ => .cmp
  | .bz _ _ => .bz
  | .bnz _ _ => .bnz
  | .tbz _ _ => .tbz
  | .tbnz _ _ => .tbnz
  | .bne _ _ => .bne
  | .beq _ _ => .beq
  | .bae _ _ => .bae
  | .ba _ _ => .ba
  | .ble _ _ => .ble
  | .bl _ _ => .bl
  | .bo _ _ => .bo
  | .bcc _ _ => .bcc
  | .bcs _ _ => .bcs
  | .jsr _ _ => .jsr
  | .rts _ _ => .rts
  | .jmp _ _ => .jmp
  | .metaData _ _ => .metaData
  | .debug _ _ => .debug
  | .exit _ _ => .exit

/-- The size qualifier of an instruction. -/
def Instr.size : Instr → OperandSize
  | .nop z _ => z
  | .load z _ => z
  | .store z _ => z
  | .move z _ => z
  | .push z _ => z
  | .pop z _ => z
  | .add z _ => z
  | .sub z _ => z
  | .mul z _ => z
  | .div z _ => z
  | .mod z _ => z
  | .neg z _ => z
  | .shr z _ => z
  | .shl z _ => z
  | .ror z _ => z
  | .rol z _ => z
  | .and z _ => z
  | .or z _ => z
  | .xor z _ => z
  | .not z _ => z
  | .bis z _ => z
  | .bic z _ => z
  | .test z _ => z
  | .cmp z _ => z
  | .bz z _ => z
  | .bnz z _ => z
  | .tbz z _ => z
  | .tbnz z _ => z
  | .bne z _ => z
  | .beq z _ => z
  | .bae z _ => z
  | .ba z _ => z
  | .ble z _ => z
  | .bl z _ => z
  | .bo z _ => z
  | .bcc z _ => z
  | .bcs z _ => z
  | .jsr z _ => z
  | .rts z _ => z
  | .jmp z _ => z
  | .metaData z _ => z
  | .debug z _ => z
  | .exit z _ => z

/-- The operands of an instruction, in slot order. -/
def Instr.operands : Instr → List Operand
  | .nop _ l => l
  | .load _ l => l
  | .store _ l => l
  | .move _ l => l
  | .push _ l => l
  | .pop _ l => l
  | .add _ l => l
  | .sub _ l => l
  | .mul _ l => l
  | .div _ l => l
  | .mod _ l => l
  | .neg _ l => l
  | .shr _ l => l
  | .shl _ l => l
  | .ror _ l => l
  | .rol _ l => l
  | .and _ l => l
  | .or _ l => l
  | .xor _ l => l
  | .not _ l => l
  | .bis _ l => l
  | .bic _ l => l
  | .test _ l => l
  | .cmp _ l => l
  | .bz _ l => l
  | .bnz _ l => l
  | .tbz _ l => l
  | .tbnz _ l => l
  | .bne _ l => l
  | .beq _ l => l
  | .bae _ l => l
  | .ba _ l => l
  | .ble _ l => l
  | .bl _ l => l
  | .bo _ l => l
  | .bcc _ l => l
  | .bcs _ l => l
  | .jsr _ l => l
  | .rts _ l => l
  | .jmp _ l => l
  | .metaData _ l => l
  | .debug _ l => l
  | .exit _ l => l

/-- The instruction with a given record (30_encoding.md R90). -/
def Op.instr (o : Op) (z : OperandSize) (l : List Operand) : Instr :=
  match o with
  | .nop => .nop z l
  | .load => .load z l
  | .store => .store z l
  | .move => .move z l
  | .push => .push z l
  | .pop => .pop z l
  | .add => .add z l
  | .sub => .sub z l
  | .mul => .mul z l
  | .div => .div z l
  | .mod => .mod z l
  | .neg => .neg z l
  | .shr => .shr z l
  | .shl => .shl z l
  | .ror => .ror z l
  | .rol => .rol z l
  | .and => .and z l
  | .or => .or z l
  | .xor => .xor z l
  | .not => .not z l
  | .bis => .bis z l
  | .bic => .bic z l
  | .test => .test z l
  | .cmp => .cmp z l
  | .bz => .bz z l
  | .bnz => .bnz z l
  | .tbz => .tbz z l
  | .tbnz => .tbnz z l
  | .bne => .bne z l
  | .beq => .beq z l
  | .bae => .bae z l
  | .ba => .ba z l
  | .ble => .ble z l
  | .bl => .bl z l
  | .bo => .bo z l
  | .bcc => .bcc z l
  | .bcs => .bcs z l
  | .jsr => .jsr z l
  | .rts => .rts z l
  | .jmp => .jmp z l
  | .metaData => .metaData z l
  | .debug => .debug z l
  | .exit => .exit z l

end Sys2Proof
end

