-- ==== Sys2Proof/WellFormed.lean ====
section
/-! DEFINITION. The well-formed instructions of 30_encoding.md R113: at most four operands, and every
register-kind operand names a register. The other conditions of R113 (an opcode, one of the five
sizes, a defined mode) hold of every term of `Instr` by its type. -/

namespace Sys2Proof

/-- A register-kind operand names one of 64 registers; on other modes the index has no meaning
(10_state.md R33, 30_encoding.md R110). -/
def Operand.wellFormed : Operand → Bool
  | .reg _ i => decide (i.toNat ≤ 63)
  | .special _ _ => true
  | .const _ _ _ => true

/-- The instructions that the round trip law speaks of (30_encoding.md R90, R113). -/
def Instr.wellFormed (i : Instr) : Bool :=
  decide (i.operands.length ≤ 4) && i.operands.all Operand.wellFormed

end Sys2Proof
end

