-- ==== Sys2Proof/Decode.lean ====
section
/-! DEFINITION. The instruction codec: reading the number tables both ways, their default values, the
decoder of 30_encoding.md R104 and, after it, the encoder of R101. Both work under any number tables
(log entry 4). The decoder is a total function of the tables, the policy and the bytes that stand
between the program counter and the end of memory; a byte it needs and does not find is the
out-of-bounds read of 20_memory.md R65. -/

namespace Sys2Proof

/-! ### The number tables -/

/-- The place of each opcode in OPCODE_NUM: the order of the table of 30_encoding.md R96. -/
def Op.index : Op → Fin 43
  | .nop => 0
  | .load => 1
  | .store => 2
  | .move => 3
  | .push => 4
  | .pop => 5
  | .add => 6
  | .sub => 7
  | .mul => 8
  | .div => 9
  | .mod => 10
  | .neg => 11
  | .shr => 12
  | .shl => 13
  | .ror => 14
  | .rol => 15
  | .and => 16
  | .or => 17
  | .xor => 18
  | .not => 19
  | .bis => 20
  | .bic => 21
  | .test => 22
  | .cmp => 23
  | .bz => 24
  | .bnz => 25
  | .tbz => 26
  | .tbnz => 27
  | .bne => 28
  | .beq => 29
  | .bae => 30
  | .ba => 31
  | .ble => 32
  | .bl => 33
  | .bo => 34
  | .bcc => 35
  | .bcs => 36
  | .jsr => 37
  | .rts => 38
  | .jmp => 39
  | .metaData => 40
  | .debug => 41
  | .exit => 42

/-- The opcodes in the order of `Op.index`. -/
def Op.all : List Op :=
  [.nop, .load, .store, .move, .push, .pop, .add, .sub, .mul, .div,
   .mod, .neg, .shr, .shl, .ror, .rol, .and, .or, .xor, .not,
   .bis, .bic, .test, .cmp, .bz, .bnz, .tbz, .tbnz, .bne, .beq,
   .bae, .ba, .ble, .bl, .bo, .bcc, .bcs, .jsr, .rts, .jmp,
   .metaData, .debug, .exit]

/-- The place of each addressing mode in MODE_TAG: the order of the table of 30_encoding.md R97. -/
def Mode.index : Mode → Fin 16
  | .reg .registerInteger => 0
  | .reg .registerFloat => 1
  | .special .registerSp => 2
  | .special .registerPc => 3
  | .special .registerFlags => 4
  | .special .registerStatus => 5
  | .const .constantInteger => 6
  | .const .constantFloat => 7
  | .reg .incrementRegisterPre => 8
  | .reg .incrementRegisterPost => 9
  | .reg .decrementRegisterPre => 10
  | .reg .decrementRegisterPost => 11
  | .const .incrementConstantPre => 12
  | .const .incrementConstantPost => 13
  | .const .decrementConstantPre => 14
  | .const .decrementConstantPost => 15

/-- The addressing modes in the order of `Mode.index`. -/
def Mode.all : List Mode :=
  [.reg .registerInteger, .reg .registerFloat, .special .registerSp, .special .registerPc,
   .special .registerFlags, .special .registerStatus, .const .constantInteger, .const .constantFloat,
   .reg .incrementRegisterPre, .reg .incrementRegisterPost, .reg .decrementRegisterPre,
   .reg .decrementRegisterPost, .const .incrementConstantPre, .const .incrementConstantPost,
   .const .decrementConstantPre, .const .decrementConstantPost]

/-- The place of each operand size in SIZE_CODE: the order of 30_encoding.md R99. -/
def OperandSize.index : OperandSize → Fin 5
  | .none => 0
  | .byte => 1
  | .word => 2
  | .dword => 3
  | .qword => 4

/-- The operand sizes in the order of `OperandSize.index`. -/
def OperandSize.all : List OperandSize := [.none, .byte, .word, .dword, .qword]

/-- The default tables: OPCODE_NUM from 1 to 43 (30_encoding.md R96), MODE_TAG from 1 to 16 (R97) and
SIZE_CODE from 0 to 4 (R99). -/
def defaultTables : NumberTables where
  opcodeNum := #v[1, 2, 3, 4, 5, 6, 7, 8, 9, 10, 11, 12, 13, 14, 15, 16, 17, 18, 19, 20, 21, 22, 23, 24,
    25, 26, 27, 28, 29, 30, 31, 32, 33, 34, 35, 36, 37, 38, 39, 40, 41, 42, 43]
  modeTag := #v[1, 2, 3, 4, 5, 6, 7, 8, 9, 10, 11, 12, 13, 14, 15, 16]
  sizeCode := #v[0, 1, 2, 3, 4]

/-- The first name whose code is `x`, the names and their codes in the same order. -/
def lookupCode {α : Type} {w : Nat} : List α → List (BitVec w) → BitVec w → Option α
  | [], _, _ => none
  | _ :: _, [], _ => none
  | name :: names, code :: codes, x => if code = x then some name else lookupCode names codes x

/-- OPCODE_NUM of an opcode (30_encoding.md R96). -/
def Op.number (t : NumberTables) (o : Op) : BitVec 16 := t.opcodeNum[o.index]

/-- The opcode a number names, if any (30_encoding.md R96, R106). -/
def Op.ofNumber (t : NumberTables) (x : BitVec 16) : Option Op :=
  lookupCode Op.all t.opcodeNum.toList x

/-- MODE_TAG of an addressing mode (30_encoding.md R97). -/
def Mode.tag (t : NumberTables) (m : Mode) : Byte := t.modeTag[m.index]

/-- The addressing mode a tag names, if any: under the default table, tags 1 to 16 (30_encoding.md R97,
R109). -/
def Mode.ofTag (t : NumberTables) (x : Byte) : Option Mode := lookupCode Mode.all t.modeTag.toList x

/-- SIZE_CODE of an operand size (30_encoding.md R99). -/
def OperandSize.code (t : NumberTables) (z : OperandSize) : Byte := t.sizeCode[z.index]

/-- The operand size a code names, if any: under the default table, codes 0 to 4 (30_encoding.md R99,
R107). -/
def OperandSize.ofCode (t : NumberTables) (x : Byte) : Option OperandSize :=
  lookupCode OperandSize.all t.sizeCode.toList x

/-- The 28 reserved opcodes (40_sequencer.md R136). -/
def Op.reserved : Op → Bool
  | .nop => false
  | .load => false
  | .store => false
  | .move => false
  | .push => false
  | .pop => false
  | .add => false
  | .sub => false
  | .mul => false
  | .div => false
  | .mod => false
  | .neg => true
  | .shr => true
  | .shl => true
  | .ror => true
  | .rol => true
  | .and => true
  | .or => true
  | .xor => true
  | .not => true
  | .bis => true
  | .bic => true
  | .test => true
  | .cmp => true
  | .bz => true
  | .bnz => true
  | .tbz => true
  | .tbnz => true
  | .bne => true
  | .beq => true
  | .bae => true
  | .ba => true
  | .ble => true
  | .bl => true
  | .bo => true
  | .bcc => true
  | .bcs => true
  | .jsr => false
  | .rts => false
  | .jmp => false
  | .metaData => true
  | .debug => true
  | .exit => false

/-- The operand counts an opcode accepts (30_encoding.md R115, the "counts" column). -/
def Op.accepts (o : Op) (n : Nat) : Bool :=
  match o with
  | .nop => decide (n ≤ 4)
  | .load => decide (n = 2 ∨ n = 3)
  | .store => decide (n = 2 ∨ n = 3)
  | .move => decide (n = 2)
  | .push => decide (n = 1)
  | .pop => decide (n = 1)
  | .add => decide (n = 3)
  | .sub => decide (n = 3)
  | .mul => decide (n = 3)
  | .div => decide (n = 3)
  | .mod => decide (n = 3)
  | .neg => decide (n = 2)
  | .shr => decide (n = 3)
  | .shl => decide (n = 3)
  | .ror => decide (n = 3)
  | .rol => decide (n = 3)
  | .and => decide (n = 3)
  | .or => decide (n = 3)
  | .xor => decide (n = 3)
  | .not => decide (n = 2)
  | .bis => decide (n = 3)
  | .bic => decide (n = 3)
  | .test => decide (n = 2)
  | .cmp => decide (n = 2)
  | .bz => decide (n = 1)
  | .bnz => decide (n = 1)
  | .tbz => decide (n = 2)
  | .tbnz => decide (n = 2)
  | .bne => decide (n = 1)
  | .beq => decide (n = 1)
  | .bae => decide (n = 1)
  | .ba => decide (n = 1)
  | .ble => decide (n = 1)
  | .bl => decide (n = 1)
  | .bo => decide (n = 1)
  | .bcc => decide (n = 1)
  | .bcs => decide (n = 1)
  | .jsr => decide (n = 1)
  | .rts => decide (n = 0)
  | .jmp => decide (n = 1)
  | .metaData => decide (n ≤ 4)
  | .debug => decide (n ≤ 4)
  | .exit => decide (n = 0)

/-! ### Byte order -/

/-- The number that bytes stand for, the first byte least significant (20_memory.md R63). -/
def leNat : List Byte → Nat
  | [] => 0
  | b :: rest => b.toNat + 256 * leNat rest

/-- The low `n` bytes of a number, the least significant first (20_memory.md R63, R64). -/
def leBytes : (n : Nat) → Nat → List Byte
  | 0, _ => []
  | n + 1, v => BitVec.ofNat 8 v :: leBytes n (v / 256)

/-! ### Sizes -/

/-- The encoded length of one operand: 2 bytes, and 8 more for a payload (30_encoding.md R93). -/
def Operand.encodedLength : Operand → Nat
  | .reg _ _ => 2
  | .special _ _ => 2
  | .const _ _ _ => 10

/-- The bytes that header and operands take, padding not counted (30_encoding.md R93). -/
def contentLength (ops : List Operand) : Nat := 5 + (ops.map Operand.encodedLength).sum

/-- The usual round-up to a multiple of 8 (30_encoding.md R94). -/
def roundUp8 (x : Nat) : Nat := if x % 8 = 0 then x else x + (8 - x % 8)

/-- The size of an encoded instruction with these operands: header, operands and, if there is an
operand, one reserved byte, rounded up to a multiple of 8, and never below 8 (30_encoding.md R94). -/
def encodedSize (ops : List Operand) : Nat :=
  max 8 (roundUp8 (contentLength ops + if ops.length > 0 then 1 else 0))

/-! ### Decode -/

/-- Why decode stops (30_encoding.md R104): a byte outside memory (MEM_UNDEFINED), or one of the
illegal encodings S001 to S005 and S007. -/
inductive DecodeError where
  | memUndefined
  | s001
  | s002
  | s003
  | s004
  | s005
  | s007
deriving DecidableEq, Repr

/-- The outcome of a decode: a value or the first check that failed. -/
inductive Decoded (α : Type) where
  | ok    (value : α)
  | error (e : DecodeError)
deriving DecidableEq, Repr

/-- Decode one operand from the bytes that are left; also gives the bytes after it
(30_encoding.md R104: tag and index are read, then S003, then S007, then the payload). -/
def decodeOperand (t : NumberTables) : List Byte → Decoded (Operand × List Byte)
  | tag :: index :: rest =>
    match Mode.ofTag t tag with
    | none => .error .s003
    | some (.reg m) => if index.toNat > 63 then .error .s007 else .ok (.reg m index, rest)
    | some (.special m) => .ok (.special m index, rest)
    | some (.const m) =>
      if rest.length < 8 then .error .memUndefined
      else .ok (.const m index (BitVec.ofNat 64 (leNat (rest.take 8))), rest.drop 8)
  | _ => .error .memUndefined

/-- Decode `n` operands in slot order (30_encoding.md R104). -/
def decodeOperands (t : NumberTables) : Nat → List Byte → Decoded (List Operand)
  | 0, _ => .ok []
  | n + 1, bytes =>
    match decodeOperand t bytes with
    | .error e => .error e
    | .ok (op, rest) =>
      match decodeOperands t n rest with
      | .error e => .error e
      | .ok ops => .ok (op :: ops)

/-- The last checks of decode: the whole extent lies in memory, and byte 0 agrees with the computed
size (30_encoding.md R104, R111). Gives the instruction and the size the pc advances by. -/
def finishDecode (policy : SizeBytePolicy) (available : Nat) (sizeByte : Byte) (op : Op)
    (size : OperandSize) (ops : List Operand) : Decoded (Instr × Nat) :=
  if available < encodedSize ops then .error .memUndefined
  else if sizeByte.toNat = encodedSize ops then .ok (op.instr size ops, encodedSize ops)
  else match policy with
    | .strict => .error .s005
    | .trustByte0 => .ok (op.instr size ops, sizeByte.toNat)

/-- Decode the instruction whose bytes come first in `bytes`, the checks in the order of
30_encoding.md R104. `bytes` is what memory holds from the instruction's address on. -/
def decode (t : NumberTables) (policy : SizeBytePolicy) (bytes : List Byte) :
    Decoded (Instr × Nat) :=
  match bytes with
  | sizeByte :: opLow :: opHigh :: rest =>
    match Op.ofNumber t (BitVec.ofNat 16 (leNat [opLow, opHigh])) with
    | none => .error .s001
    | some op =>
      match rest with
      | [] => .error .memUndefined
      | code :: rest =>
        match OperandSize.ofCode t code with
        | none => .error .s004
        | some size =>
          match rest with
          | [] => .error .memUndefined
          | count :: rest =>
            if count.toNat > 4 then .error .s002
            else
              match decodeOperands t count.toNat rest with
              | .error e => .error e
              | .ok ops => finishDecode policy bytes.length sizeByte op size ops
  | _ => .error .memUndefined

/-! ### Encode -/

/-- The bytes of one operand (30_encoding.md R93, R101). -/
def encodeOperand (t : NumberTables) : Operand → List Byte
  | .reg m index => [(Mode.reg m).tag t, index]
  | .special m index => [(Mode.special m).tag t, index]
  | .const m index payload => (Mode.const m).tag t :: index :: leBytes 8 payload.toNat

/-- The bytes of an instruction, byte 0 its size and the padding zero (30_encoding.md R92, R101). -/
def encode (t : NumberTables) (i : Instr) : List Byte :=
  BitVec.ofNat 8 (encodedSize i.operands) :: (leBytes 2 (i.op.number t).toNat ++
    [i.size.code t, BitVec.ofNat 8 i.operands.length] ++
    i.operands.flatMap (encodeOperand t) ++
    List.replicate (encodedSize i.operands - contentLength i.operands) 0)

/-! ### The opcode table's words -/

/-- The longest instruction, 48 bytes (30_encoding.md R95). -/
def maxInstrBytes : Nat := 48

/-- The bytes of a table word: `nbits` bits of `w`, byte 0 the lowest, and zeros up to the longest
instruction. -/
def tableBytes (nbits w : Nat) : List Byte := leBytes maxInstrBytes (w % 2 ^ nbits)

/-- The instruction the decoder reads from a table word, under the default number tables, which
spec/opcode_table.json uses (30_encoding.md R96). That file leaves byte 0 open, so the word is read
under `trust_byte0`, which agrees with `strict` wherever `strict` accepts (log entry 10). -/
def decodeTableWord (nbits w : Nat) : Option Instr :=
  match decode defaultTables .trustByte0 (tableBytes nbits w) with
  | .ok (i, _) => some i
  | .error _ => none

end Sys2Proof
end

