-- ==== Sys2Proof/Machine/Launch.lean ====
section
/-! DEFINITION. The launch arguments that `State.reset` takes: the default of every parameter of
00_scope.md R6, and the two that the spec leaves open, HEAP_SIZE and INITIAL_MEMORY. -/

namespace Sys2Proof.Machine

/-- HEAP_SIZE of the machine that `State.reset` is. DESIGN CHOICE, unsafe (log entry 1): the spec
leaves it open; 256 is what its test vectors take (95_test_vectors.md, common conventions). -/
def launchHeapSize : Nat := 256

/-- The parameters of the machine that `State.reset` is: the defaults of 00_scope.md R6 (log entry
3). -/
def launchConfig : Config where
  heapSize := launchHeapSize
  tables := defaultTables
  sizeBytePolicy := .strict
  sizedMemory := false
  modZeroPolicy := .zero
  reservedOpMode := .architected

end Sys2Proof.Machine
end

