-- ==== Sys2Proof/Machine/State.lean ====
section
/-! DEFINITION. The state of the CORE as plain data (10_state.md), the reasons a step can have no
next state, and the state right after reset (10_state.md R45). -/

namespace Sys2Proof.Machine

/-- The code of a fault (60_exceptions.md R302, R303): a diagnostic code, or one of the two model
faults that append no diagnostic. -/
inductive FaultCode where
  | b003
  | b005
  | b006
  | b009
  | s001
  | s002
  | s003
  | s004
  | s005
  | s006
  | s007
  | memUndefined
  | modByZeroUndefined
deriving DecidableEq, Repr

/-- The machine status (10_state.md R41). The halted flag of R40 is its value `halted` (log entry
8). -/
inductive Status where
  | uninitialised
  | running
  | halted
  | faulted (code : FaultCode)
deriving DecidableEq, Repr

/-- A record of the diagnostic sink (60_exceptions.md R300). -/
structure Diagnostic where
  code    : String
  message : String
  isFatal : Bool
deriving DecidableEq, Repr

/-- The bytes of memory that are not zero, at strictly rising addresses. An address that is not
listed reads as 0 (log entry 2). The form is `Memory.wf`, in Machine/Memory.lean. -/
abbrev Memory := List Host.Cell

/-- The whole state of the machine: the register file of 10_state.md R30, the status of R41 (with the
halted flag of R40 and the initialised mark of R44), the memory of 20_memory.md R60, the host's
diagnostic sink of 60_exceptions.md R300 (log entry 7), and the launch parameters of 00_scope.md R6,
which no step changes. -/
structure State where
  /-- I0..I63 (10_state.md R31). -/
  iregs  : Vector Word 64
  /-- F0..F63, as binary64 bit patterns (10_state.md R32). -/
  fregs  : Vector Word 64
  /-- The program counter (10_state.md R34). -/
  pc     : Word
  /-- The stack pointer (10_state.md R36). -/
  sp     : Word
  /-- The flags register (10_state.md R37). -/
  fr     : Word
  /-- The status register, without fields (10_state.md R38). -/
  sr     : Word
  /-- The machine status (10_state.md R41). -/
  status : Status
  /-- The memory (20_memory.md R60). -/
  mem    : Memory
  /-- The diagnostics appended so far, oldest first (60_exceptions.md R300). -/
  sink   : List Diagnostic
  /-- The launch parameters (00_scope.md R6). -/
  cfg    : Config
deriving DecidableEq, Repr

/-- The halted flag (10_state.md R40): the status is `halted` (R41). -/
def State.halted (s : State) : Bool := decide (s.status = .halted)

/-- The initialised mark (10_state.md R44): the status is not `uninitialised` (R41). -/
def State.initialised (s : State) : Bool := decide (s.status ≠ .uninitialised)

/-- What `step()` returns for the state it reached (40_sequencer.md R132): true exactly when the
machine is still running. -/
def State.continues (s : State) : Bool := decide (s.status = .running)

/-- Why a step stops with no next state. A step that raises a fault HAS a next state (60_exceptions.md
R301: the status becomes `faulted`, log entry 5); this is the step after it. -/
inductive Fault where
  /-- Raised by `step` in status `faulted code`: the machine stands still until the host resets it
  (40_sequencer.md R130, 93_implementation_defined.md U4). Safe: no transition is invented. -/
  | faulted (code : FaultCode)
deriving DecidableEq, Repr

/-- Why a step or a host port is refused: the spec gives the call no transition. -/
inductive Refusal where
  /-- Answered by `exec` for an instruction without a meaning. Safe. No arm answers it. -/
  | notModelled (mnemonic : String)
  /-- Raised by `step` after `exit` (40_sequencer.md R130, 93_implementation_defined.md U2). Safe. -/
  | halted
  /-- Raised by `step` and the host ports before initialisation (40_sequencer.md R130,
  70_reset_and_hazards.md R335, 93_implementation_defined.md U3). Safe. -/
  | uninitialised
  /-- Raised by the host's initialisation port on a machine that is running or halted
  (70_reset_and_hazards.md R334, log entry 12). Safe. -/
  | alreadyInitialised
  /-- Raised by the host's encode and memory read ports outside memory (70_reset_and_hazards.md R335).
  Safe. -/
  | hostRange
  /-- Raised by the host's push and pop ports when the stack access would leave memory
  (70_reset_and_hazards.md R335). Safe. -/
  | hostStack
deriving DecidableEq, Repr

/-- The machine right after a successful initialisation with these launch arguments: the register
values of 10_state.md R45, memory as given (R45, 70_reset_and_hazards.md R331), an empty sink. -/
def State.boot (cfg : Config) (initialMemory : Memory) : State where
  iregs := Vector.replicate 64 0
  fregs := Vector.replicate 64 0
  pc := 0
  sp := BitVec.ofNat 64 cfg.heapSize
  fr := 0
  sr := 0
  status := .running
  mem := initialMemory
  sink := []
  cfg := cfg

/-- The machine right after reset (10_state.md R45), with the launch parameters of
Machine/Launch.lean and INITIAL_MEMORY all zero (log entries 1 and 2). -/
def State.reset : State := State.boot launchConfig []

end Sys2Proof.Machine
end

