-- ==== Sys2Proof/Machine/Memory.lean ====
section
/-! DEFINITION. Memory as a canonical list of cells (20_memory.md): reading and writing one byte, and
little-endian runs of bytes. Bounds are checked by the operations of Machine/Ops.lean. -/

namespace Sys2Proof.Machine

/-- What an address that the list does not name reads as. DESIGN CHOICE, unsafe (log entry 2). -/
def unlistedByte : Byte := 0

/-- The byte at an address (20_memory.md R62, for one byte). -/
def Memory.read (m : Memory) (a : Nat) : Byte :=
  match m with
  | [] => unlistedByte
  | (k, v) :: rest => if a = k then v else Memory.read rest a

/-- Store a byte at an address and keep the list canonical (20_memory.md R64, for one byte). -/
def Memory.write (m : Memory) (a : Nat) (b : Byte) : Memory :=
  match m with
  | [] => if b = unlistedByte then [] else [(a, b)]
  | (k, v) :: rest =>
    if a < k then if b = unlistedByte then (k, v) :: rest else (a, b) :: (k, v) :: rest
    else if a = k then if b = unlistedByte then rest else (a, b) :: rest
    else (k, v) :: Memory.write rest a b

/-- The addresses rise strictly from `low` on and no cell holds what an unlisted address reads as. -/
def Memory.canonicalFrom (m : Memory) (low : Nat) : Bool :=
  match m with
  | [] => true
  | (k, v) :: rest => decide (low ≤ k) && decide (v ≠ unlistedByte) && Memory.canonicalFrom rest (k + 1)

/-- The canonical form: equal memories are equal lists. -/
def Memory.wf (m : Memory) : Bool := Memory.canonicalFrom m 0

/-- Every listed address lies below `size` (20_memory.md R60). -/
def Memory.below (m : Memory) (size : Nat) : Bool := m.all fun cell => decide (cell.1 < size)

/-- The `n` bytes from an address on, lowest address first. -/
def Memory.bytes (m : Memory) (a : Nat) : Nat → List Byte
  | 0 => []
  | n + 1 => Memory.read m a :: Memory.bytes m (a + 1) n

/-- Store bytes from an address on, the first at the lowest address. -/
def Memory.writeBytes (m : Memory) (a : Nat) : List Byte → Memory
  | [] => m
  | b :: rest => Memory.writeBytes (Memory.write m a b) (a + 1) rest

end Sys2Proof.Machine
end

