-- ==== Sys2Proof/Machine/Ops.lean ====
section
/-! DEFINITION. The operations every meaning is made of: register access, raising a fault (the one
form of exception this machine has, 60_exceptions.md R301), bounded memory access (20_memory.md R62 to
R65) and the stack primitives (42_data_movement.md R184). -/

namespace Sys2Proof.Machine

/-! ### Registers -/

/-- Read integer register `i` (10_state.md R31). -/
def State.getI (s : State) (i : Fin 64) : Word := s.iregs[i]

/-- Read float register `i`, as its bit pattern (10_state.md R32). -/
def State.getF (s : State) (i : Fin 64) : Word := s.fregs[i]

/-- Write integer register `i`; none is hard-wired (10_state.md R31). -/
def State.setI (s : State) (i : Fin 64) (v : Word) : State := { s with iregs := s.iregs.set i v }

/-- Write float register `i` with a bit pattern (10_state.md R32). -/
def State.setF (s : State) (i : Fin 64) (v : Word) : State := { s with fregs := s.fregs.set i v }

/-- Write the program counter; nothing checks it (10_state.md R35). -/
def State.setPc (s : State) (v : Word) : State := { s with pc := v }

/-- Write the stack pointer; nothing checks it (10_state.md R36). -/
def State.setSp (s : State) (v : Word) : State := { s with sp := v }

/-- Write the flags register, bit for bit (10_state.md R37). -/
def State.setFr (s : State) (v : Word) : State := { s with fr := v }

/-- Write the status register, bit for bit (10_state.md R38). -/
def State.setSr (s : State) (v : Word) : State := { s with sr := v }

/-- Replace the memory. -/
def State.setMem (s : State) (m : Memory) : State := { s with mem := m }

/-- Set the machine status (10_state.md R41). -/
def State.setStatus (s : State) (x : Status) : State := { s with status := x }

/-! ### Faults -/

/-- What makes a step fault (60_exceptions.md R302, R303). B005 has two cases with two messages. -/
inductive FaultCause where
  | b003
  | b005Size
  | b005Kind
  | b006
  | b009
  | s001
  | s002
  | s003
  | s004
  | s005
  | s006
  | s007
  | memUndefined
  | modByZeroUndefined
deriving DecidableEq, Repr

/-- The code that the status keeps (60_exceptions.md R302, R303). -/
def FaultCause.code : FaultCause → FaultCode
  | .b003 => .b003
  | .b005Size => .b005
  | .b005Kind => .b005
  | .b006 => .b006
  | .b009 => .b009
  | .s001 => .s001
  | .s002 => .s002
  | .s003 => .s003
  | .s004 => .s004
  | .s005 => .s005
  | .s006 => .s006
  | .s007 => .s007
  | .memUndefined => .memUndefined
  | .modByZeroUndefined => .modByZeroUndefined

/-- A fatal diagnostic; every diagnostic of the CORE is fatal (60_exceptions.md R300). -/
def fatal (code message : String) : Diagnostic :=
  { code := code, message := message, isFatal := true }

/-- The record a fault appends to the sink, with the messages of 60_exceptions.md R302; the two model
faults append none (R303). -/
def FaultCause.diagnostics : FaultCause → List Diagnostic
  | .b003 => [fatal "B003" "instructions must be encoded on 8-byte boundaries"]
  | .b005Size => [fatal "B005" "operand size none is invalid"]
  | .b005Kind => [fatal "B005" "integer registers cannot be used for floating point operands"]
  | .b006 => [fatal "B006" "constant cannot be a target operand type"]
  | .b009 =>
    [fatal "B009" "floating point value cannot be assigned to an integer special register"]
  | .s001 => [fatal "S001" "illegal opcode"]
  | .s002 => [fatal "S002" "operand count exceeds 4"]
  | .s003 => [fatal "S003" "illegal operand type"]
  | .s004 => [fatal "S004" "illegal operand size"]
  | .s005 => [fatal "S005" "encoded size mismatch"]
  | .s006 => [fatal "S006" "wrong operand count for opcode"]
  | .s007 => [fatal "S007" "register index out of range"]
  | .memUndefined => []
  | .modByZeroUndefined => []

/-- The fault of a decode error (60_exceptions.md R302, R303). -/
def FaultCause.ofDecode : DecodeError → FaultCause
  | .memUndefined => .memUndefined
  | .s001 => .s001
  | .s002 => .s002
  | .s003 => .s003
  | .s004 => .s004
  | .s005 => .s005
  | .s007 => .s007

/-- `raise Fault(code)`: append the diagnostic, set the status; every write made before stays, nothing
is saved or vectored, and the step ends (60_exceptions.md R301, R307; 40_sequencer.md R140). The way
out is the host's reset, in Machine/HostPorts.lean (70_reset_and_hazards.md R332). -/
def raise (c : FaultCause) (s : State) : State :=
  { s with status := .faulted c.code, sink := s.sink ++ c.diagnostics }

/-! ### Sequencing -/

/-- The outcome of a part of an instruction: a value and the state it leads to, or a fault and the
state reached when it was raised (00_scope.md R11). -/
inductive Res (α : Type) where
  | ok    (value : α) (s : State)
  | fault (cause : FaultCause) (s : State)

/-- Go on with a result; a fault ends the step, and nothing earlier is undone (00_scope.md R11). -/
def Res.bind {α β : Type} (r : Res α) (f : α → State → Res β) : Res β :=
  match r with
  | .ok v s => f v s
  | .fault c s => .fault c s

/-- The next state of an instruction: the state it reached, with its fault raised if there is one
(60_exceptions.md R301). -/
def Res.finish (r : Res Unit) : Host.Outcome State Fault Refusal :=
  match r with
  | .ok _ s => .next s
  | .fault c s => .next (raise c s)

/-- The dispatch fault: the opcode does not accept this operand count (40_sequencer.md R134). -/
def wrongCount (s : State) : Host.Outcome State Fault Refusal := .next (raise .s006 s)

/-- A reserved opcode: nothing happens under `reference_nop`, not even the operand-count check
(40_sequencer.md R131, R135). -/
def reservedOp (s : State) (meaning : Host.Outcome State Fault Refusal) :
    Host.Outcome State Fault Refusal :=
  match s.cfg.reservedOpMode with
  | .architected => meaning
  | .referenceNop => .next s

/-! ### Memory and stack -/

/-- Does an access of `n` bytes at `addr` lie in memory? The sum is exact (20_memory.md R65). -/
def State.inBounds (s : State) (addr : Word) (n : Nat) : Bool :=
  decide (addr.toNat + n ≤ s.cfg.heapSize)

/-- `MemRead(addr, n)`, zero-extended to 64 bits (20_memory.md R62, R63, R65). -/
def memRead (addr : Word) (n : Nat) (s : State) : Res Word :=
  if s.inBounds addr n then
    .ok (BitVec.ofNat 64 (leNat (Memory.bytes s.mem addr.toNat n))) s
  else .fault .memUndefined s

/-- `MemWrite(addr, n, v)`: the low `n` bytes of `v` (20_memory.md R63, R64, R65). -/
def memWrite (addr : Word) (n : Nat) (v : Word) (s : State) : Res Unit :=
  if s.inBounds addr n then
    .ok () (s.setMem (Memory.writeBytes s.mem addr.toNat (leBytes n v.toNat)))
  else .fault .memUndefined s

/-- `StackPush(v)`: `sp` moves first, so it stays moved if the write faults (42_data_movement.md
R184). -/
def stackPush (v : Word) (s : State) : Res Unit :=
  memWrite (s.sp - 8) 8 v (s.setSp (s.sp - 8))

/-- `StackPop()`: read at `sp`, then move it (42_data_movement.md R184). -/
def stackPop (s : State) : Res Word :=
  (memRead s.sp 8 s).bind fun v s1 => .ok v (s1.setSp (s1.sp + 8))

end Sys2Proof.Machine
end

