-- ==== Sys2Proof/Machine/Flags.lean ====
section
/-! DEFINITION. The sized arithmetic of 40_sequencer.md R138 and R139, the shift, rotate and bit
computations of 44_logic_shift_compare.md, the flag computations of `test` and `cmp` (R230, R231), and
the conditions the branches read (45_control_transfer.md R254). -/

namespace Sys2Proof.Machine

/-! ### Widths -/

/-- `width(size)` (40_sequencer.md R138). `none` has no width: every use comes after an operand access
that has already refused it, and 0 only makes the function total (log entry 13). -/
def width : OperandSize → Nat
  | .none => 0
  | .byte => 8
  | .word => 16
  | .dword => 32
  | .qword => 64

/-- `trunc_w(v)`: the value modulo 2^w, zero-extended (00_scope.md R9, 40_sequencer.md R139). -/
def trunc (w : Nat) (v : Word) : Word := BitVec.ofNat 64 (v.toNat % 2 ^ w)

/-! ### Sized results -/

/-- `neg`: two's-complement negation in w bits (43_arithmetic.md R205). -/
def negW (w : Nat) (v : Word) : Word := BitVec.ofNat 64 ((2 ^ w - (trunc w v).toNat) % 2 ^ w)

/-- `shr`: logical shift right; the whole count counts (44_logic_shift_compare.md R220). -/
def shrW (w : Nat) (v c : Word) : Word :=
  if c.toNat ≥ w then 0 else trunc w v >>> c.toNat

/-- `shl`: shift left in w bits (44_logic_shift_compare.md R221). -/
def shlW (w : Nat) (v c : Word) : Word :=
  if c.toNat ≥ w then 0 else trunc w (trunc w v <<< c.toNat)

/-- `ror`: rotate right in w bits, the count modulo w (44_logic_shift_compare.md R222). -/
def rorW (w : Nat) (v c : Word) : Word :=
  if c.toNat % w = 0 then trunc w v
  else trunc w ((trunc w v >>> (c.toNat % w)) ||| (trunc w v <<< (w - c.toNat % w)))

/-- `rol`: rotate left in w bits, the count modulo w (44_logic_shift_compare.md R223). -/
def rolW (w : Nat) (v c : Word) : Word :=
  if c.toNat % w = 0 then trunc w v
  else trunc w ((trunc w v <<< (c.toNat % w)) ||| (trunc w v >>> (w - c.toNat % w)))

/-- The mask of bit number `k`, empty from w on (44_logic_shift_compare.md R228, R229). -/
def bitMask (w : Nat) (k : Word) : Word := if k.toNat < w then 1 <<< k.toNat else 0

/-- `bis`: set a bit (44_logic_shift_compare.md R228). -/
def bisW (w : Nat) (v k : Word) : Word := trunc w v ||| bitMask w k

/-- `bic`: clear a bit (44_logic_shift_compare.md R229). -/
def bicW (w : Nat) (v k : Word) : Word := trunc w (trunc w v &&& ~~~ bitMask w k)

/-! ### The flags register -/

/-- The bit of a flag in its place. -/
def flagBit (b : Bool) (k : Nat) : Word := if b then 1 <<< k else 0

/-- `fr` with Z, C, V and N in bits 0 to 3 and every other bit kept (10_state.md R37,
44_logic_shift_compare.md R230, R231). -/
def withFlags (fr : Word) (z c v n : Bool) : Word :=
  (fr &&& ~~~ 0xF) ||| flagBit n 3 ||| flagBit v 2 ||| flagBit c 1 ||| flagBit z 0

/-- The flags after `test` (44_logic_shift_compare.md R230). -/
def testFlags (w : Nat) (fr a b : Word) : Word :=
  let t := trunc w a &&& trunc w b
  withFlags fr (decide (t = 0)) false false (t.getLsbD (w - 1))

/-- The flags after `cmp`; C is the unsigned borrow (44_logic_shift_compare.md R231). -/
def cmpFlags (w : Nat) (fr a b : Word) : Word :=
  let x := trunc w a
  let y := trunc w b
  let d := trunc w (x - y)
  withFlags fr (decide (d = 0)) (decide (x.toNat < y.toNat))
    (((x ^^^ y) &&& (x ^^^ d)).getLsbD (w - 1)) (d.getLsbD (w - 1))

/-- The Z flag of `fr` (10_state.md R37). -/
def flagZ (fr : Word) : Bool := fr.getLsbD 0

/-- The C flag of `fr` (10_state.md R37). -/
def flagC (fr : Word) : Bool := fr.getLsbD 1

/-- The V flag of `fr` (10_state.md R37). -/
def flagV (fr : Word) : Bool := fr.getLsbD 2

/-- The N flag of `fr` (10_state.md R37). -/
def flagN (fr : Word) : Bool := fr.getLsbD 3

/-- `fr[k]` if `k < 64`, else 0 (45_control_transfer.md R257). -/
def frBit (fr k : Word) : Bool := fr.getLsbD k.toNat

end Sys2Proof.Machine
end

