-- ==== Sys2Proof/Machine/Convert.lean ====
section
/-! DEFINITION. The conversions between u64 and f64 (41_operand_resolver.md R160, R161). An f64 is
held as its binary64 bit pattern: sign bit 63, exponent bits 62..52 with bias 1023, fraction bits
51..0. The conversions are computed exactly on natural numbers. -/

namespace Sys2Proof.Machine

/-- The sign bit of a binary64 pattern. -/
def f64Sign (x : Word) : Bool := x.getLsbD 63

/-- The biased exponent field of a binary64 pattern. -/
def f64Exponent (x : Word) : Nat := x.toNat / 2 ^ 52 % 2 ^ 11

/-- The fraction field of a binary64 pattern. -/
def f64Fraction (x : Word) : Nat := x.toNat % 2 ^ 52

/-- Is the pattern a number, and not an infinity or a NaN? -/
def f64Finite (x : Word) : Bool := decide (f64Exponent x ≠ 2047)

/-- The significand of a finite pattern as an integer: the value is
`significand * 2 ^ (exponent - 1075)`, with a subnormal counted at exponent 1. -/
def f64Significand (x : Word) : Nat :=
  if f64Exponent x = 0 then f64Fraction x else 2 ^ 52 + f64Fraction x

/-- The magnitude of a finite pattern, rounded toward zero to an integer (41_operand_resolver.md
R161). -/
def f64TruncMagnitude (x : Word) : Nat :=
  if 1075 ≤ f64Exponent x then f64Significand x * 2 ^ (f64Exponent x - 1075)
  else f64Significand x / 2 ^ (1075 - max 1 (f64Exponent x))

/-- Does `f2u` have a stated result here: is `x` finite and its integer part in `0 .. 2^64 - 1`
(41_operand_resolver.md R161)? -/
def f2uInRange (x : Word) : Bool :=
  f64Finite x && (if f64Sign x then decide (f64TruncMagnitude x = 0)
    else decide (f64TruncMagnitude x < 2 ^ 64))

/-- `f2u`: float to integer, truncating; out of range it is the free value F2U_OOR
(41_operand_resolver.md R161, log entry 6). -/
def f2u (x : Word) : Word :=
  if f2uInRange x then BitVec.ofNat 64 (f64TruncMagnitude x) else Config.f2uOor x

/-- `q` plus one if the remainder of a division by `d` calls for rounding up, ties going to the even
quotient. -/
def roundTiesEven (q r d : Nat) : Nat :=
  if 2 * r > d ∨ (2 * r = d ∧ q % 2 = 1) then q + 1 else q

/-- `u2f`: the f64 nearest to an unsigned integer, ties to even (41_operand_resolver.md R160). For
`u` with top bit `n`, the significand is `u` brought to 53 bits; adding it without its hidden bit to
the exponent field lets a carry out of the significand raise the exponent. PRESUMED, unsafe: 0 gives
+0.0 and not -0.0, which R160 leaves open (log entry 19). -/
def u2f (u : Word) : Word :=
  if u.toNat = 0 then 0
  else
    let n := Nat.log2 u.toNat
    let significand :=
      if n ≤ 52 then u.toNat * 2 ^ (52 - n)
      else roundTiesEven (u.toNat / 2 ^ (n - 52)) (u.toNat % 2 ^ (n - 52)) (2 ^ (n - 52))
    BitVec.ofNat 64 ((n + 1023) * 2 ^ 52 + (significand - 2 ^ 52))

end Sys2Proof.Machine
end

