-- ==== Sys2Proof/Machine/Operands.lean ====
section
/-! DEFINITION. The operand resolver of 41_operand_resolver.md: `resolve` reads a slot, `assign` writes
one, for all 16 addressing modes. An operation first checks, then acts, so a resolve that faults
changes no state (R150). -/

namespace Sys2Proof.Machine

/-- A tagged value (41_operand_resolver.md, opening): a u64, or an f64 as its bit pattern. -/
inductive Value where
  | int   (u : Word)
  | float (x : Word)
deriving DecidableEq, Repr

/-- The value as a u64; a float is converted by `f2u` (41_operand_resolver.md R157). -/
def Value.toInt : Value → Word
  | .int u => u
  | .float x => f2u x

/-- The value as an f64; an integer is converted by `u2f` (41_operand_resolver.md R157). -/
def Value.toFloat : Value → Word
  | .int u => u2f u
  | .float x => x

/-- The register an index byte names. Read only of well-formed operands, whose index is 0 to 63
(10_state.md R33, log entry 9). -/
def bankIndex (index : Byte) : Fin 64 := Fin.ofNat 64 index.toNat

/-! ### Reading -/

/-- The value of an operand when `int` is requested (41_operand_resolver.md R150, R152 to R156). A
`pre` mode yields the adjusted value, a `post` mode the old one. -/
def intValue (op : Operand) (s : State) : Word :=
  match op with
  | .reg .registerInteger i => s.getI (bankIndex i)
  | .reg .registerFloat i => f2u (s.getF (bankIndex i))
  | .reg .incrementRegisterPre i => s.getI (bankIndex i) + 1
  | .reg .incrementRegisterPost i => s.getI (bankIndex i)
  | .reg .decrementRegisterPre i => s.getI (bankIndex i) - 1
  | .reg .decrementRegisterPost i => s.getI (bankIndex i)
  | .special .registerSp _ => s.sp
  | .special .registerPc _ => s.pc
  | .special .registerFlags _ => s.fr
  | .special .registerStatus _ => s.sr
  | .const .constantInteger _ p => p
  | .const .constantFloat _ p => f2u p
  | .const .incrementConstantPre _ p => p
  | .const .incrementConstantPost _ p => p
  | .const .decrementConstantPre _ p => p
  | .const .decrementConstantPost _ p => p

/-- The value of an operand when `float` is requested, if its mode has one: an integer-kind mode has
none (41_operand_resolver.md R150, R151, R153, R155). -/
def floatValue (op : Operand) (s : State) : Option Word :=
  match op with
  | .reg .registerFloat i => some (s.getF (bankIndex i))
  | .reg .registerInteger _ => none
  | .reg .incrementRegisterPre _ => none
  | .reg .incrementRegisterPost _ => none
  | .reg .decrementRegisterPre _ => none
  | .reg .decrementRegisterPost _ => none
  | .special _ _ => none
  | .const .constantFloat _ p => some p
  | .const .constantInteger _ p => some (u2f p)
  | .const .incrementConstantPre _ p => some (u2f p)
  | .const .incrementConstantPost _ p => some (u2f p)
  | .const .decrementConstantPre _ p => some (u2f p)
  | .const .decrementConstantPost _ p => some (u2f p)

/-- The state after an operand was read: an increment or decrement register mode adjusts its register
by 1 modulo 2^64, whatever the operand size; no other mode changes anything
(41_operand_resolver.md R156, R163). -/
def afterRead (op : Operand) (s : State) : State :=
  match op with
  | .reg .incrementRegisterPre i => s.setI (bankIndex i) (s.getI (bankIndex i) + 1)
  | .reg .incrementRegisterPost i => s.setI (bankIndex i) (s.getI (bankIndex i) + 1)
  | .reg .decrementRegisterPre i => s.setI (bankIndex i) (s.getI (bankIndex i) - 1)
  | .reg .decrementRegisterPost i => s.setI (bankIndex i) (s.getI (bankIndex i) - 1)
  | .reg .registerInteger _ => s
  | .reg .registerFloat _ => s
  | .special _ _ => s
  | .const _ _ _ => s

/-- The check that comes before any operand access: the size is not `none` (41_operand_resolver.md
R151). An index above 63, which decode never lets through, is rejected as decode would (10_state.md
R33, log entry 9). -/
def accessFault (size : OperandSize) (op : Operand) : Option FaultCause :=
  if size = .none then some .b005Size
  else if op.wellFormed then none
  else some .s007

/-- `resolve(slot, int).u` (41_operand_resolver.md R150). -/
def resolveInt (size : OperandSize) (op : Operand) (s : State) : Res Word :=
  match accessFault size op with
  | some c => .fault c s
  | none => .ok (intValue op s) (afterRead op s)

/-- `resolve(slot, float)` (41_operand_resolver.md R150, R151): B005 on an integer-kind mode. -/
def resolveFloat (size : OperandSize) (op : Operand) (s : State) : Res Word :=
  match accessFault size op with
  | some c => .fault c s
  | none =>
    match floatValue op s with
    | some x => .ok x (afterRead op s)
    | none => .fault .b005Kind s

/-- Does `move` request `float` for this source: is it `register_float` or `constant_float`
(41_operand_resolver.md R164)? -/
def isFloatSource : Operand → Bool
  | .reg .registerFloat _ => true
  | .reg .registerInteger _ => false
  | .reg .incrementRegisterPre _ => false
  | .reg .incrementRegisterPost _ => false
  | .reg .decrementRegisterPre _ => false
  | .reg .decrementRegisterPost _ => false
  | .special _ _ => false
  | .const .constantFloat _ _ => true
  | .const .constantInteger _ _ => false
  | .const .incrementConstantPre _ _ => false
  | .const .incrementConstantPost _ _ => false
  | .const .decrementConstantPre _ _ => false
  | .const .decrementConstantPost _ _ => false

/-- `resolve` with the kind that `move` requests, as a tagged value (41_operand_resolver.md R164). -/
def resolveMove (size : OperandSize) (op : Operand) (s : State) : Res Value :=
  if isFloatSource op then
    (resolveFloat size op s).bind fun x s1 => .ok (.float x) s1
  else (resolveInt size op s).bind fun u s1 => .ok (.int u) s1

/-! ### Writing -/

/-- The check of `assign`, in order: size `none`, a constant-kind target (B006), a float into a special
register (B009) (41_operand_resolver.md R157 to R159). -/
def targetFault (size : OperandSize) (op : Operand) (v : Value) : Option FaultCause :=
  match accessFault size op with
  | some c => some c
  | none =>
    match op, v with
    | .const _ _ _, _ => some .b006
    | .special _ _, .float _ => some .b009
    | .special _ _, .int _ => none
    | .reg _ _, _ => none

/-- The state after a value was written to a target that can take it. An increment or decrement
register mode is a plain write of its register (41_operand_resolver.md R157, R160 to R162). -/
def afterWrite (op : Operand) (v : Value) (s : State) : State :=
  match op with
  | .reg .registerInteger i => s.setI (bankIndex i) v.toInt
  | .reg .registerFloat i => s.setF (bankIndex i) v.toFloat
  | .reg .incrementRegisterPre i => s.setI (bankIndex i) v.toInt
  | .reg .incrementRegisterPost i => s.setI (bankIndex i) v.toInt
  | .reg .decrementRegisterPre i => s.setI (bankIndex i) v.toInt
  | .reg .decrementRegisterPost i => s.setI (bankIndex i) v.toInt
  | .special .registerSp _ => s.setSp v.toInt
  | .special .registerPc _ => s.setPc v.toInt
  | .special .registerFlags _ => s.setFr v.toInt
  | .special .registerStatus _ => s.setSr v.toInt
  | .const _ _ _ => s

/-- `assign(slot, value)` (41_operand_resolver.md R157). -/
def assign (size : OperandSize) (op : Operand) (v : Value) (s : State) : Res Unit :=
  match targetFault size op v with
  | some c => .fault c s
  | none => .ok () (afterWrite op v s)

/-! ### Effective address -/

/-- The effective address of `load` and `store`: the base, plus the offset if there is one, modulo
2^64; the base is resolved first (41_operand_resolver.md R165). -/
def effectiveAddress (size : OperandSize) (base : Operand) (offset : Option Operand) (s : State) :
    Res Word :=
  (resolveInt size base s).bind fun b s1 =>
    match offset with
    | none => .ok b s1
    | some o => (resolveInt size o s1).bind fun d s2 => .ok (b + d) s2

end Sys2Proof.Machine
end

