-- ==== Sys2Proof/Machine/Shapes.lean ====
section
/-! DEFINITION. The shapes that several meanings share: the order of resolves, the final write and the
operand-count check (43_arithmetic.md and 44_logic_shift_compare.md openings, 45_control_transfer.md
R254, 40_sequencer.md R134). -/

namespace Sys2Proof.Machine

/-- `t0, s1, s2`: resolve slot 1, then slot 2, then write slot 0 (43_arithmetic.md, opening). -/
def binaryOp (size : OperandSize) (ops : List Operand) (f : Word → Word → Word) (s : State) :
    Host.Outcome State Fault Refusal :=
  match ops with
  | [t, a, b] =>
    ((resolveInt size a s).bind fun x s1 =>
      (resolveInt size b s1).bind fun y s2 => assign size t (.int (f x y)) s2).finish
  | _ => wrongCount s

/-- `t0, s1`: resolve slot 1, then write slot 0 (43_arithmetic.md R205). -/
def unaryOp (size : OperandSize) (ops : List Operand) (f : Word → Word) (s : State) :
    Host.Outcome State Fault Refusal :=
  match ops with
  | [t, a] =>
    ((resolveInt size a s).bind fun x s1 => assign size t (.int (f x)) s1).finish
  | _ => wrongCount s

/-- `s0, s1` without a target: resolve slot 0, then slot 1, then write `fr`
(44_logic_shift_compare.md R230, R231). -/
def flagsOp (size : OperandSize) (ops : List Operand) (f : Word → Word → Word → Word) (s : State) :
    Host.Outcome State Fault Refusal :=
  match ops with
  | [a, b] =>
    ((resolveInt size a s).bind fun x s1 =>
      (resolveInt size b s1).bind fun y s2 => .ok () (s2.setFr (f s2.fr x y))).finish
  | _ => wrongCount s

/-- A one-operand branch: the target is resolved whether or not the branch is taken
(45_control_transfer.md R254). -/
def branchOp (size : OperandSize) (ops : List Operand) (cond : Word → Bool) (s : State) :
    Host.Outcome State Fault Refusal :=
  match ops with
  | [t] =>
    ((resolveInt size t s).bind fun x s1 =>
      .ok () (if cond s1.fr then s1.setPc x else s1)).finish
  | _ => wrongCount s

/-- A branch on bit k of `fr`: resolve slot 0, the target, then slot 1, the bit number; taken if the
bit is `wanted` (45_control_transfer.md R257, R258). -/
def bitBranchOp (size : OperandSize) (ops : List Operand) (wanted : Bool) (s : State) :
    Host.Outcome State Fault Refusal :=
  match ops with
  | [t, b] =>
    ((resolveInt size t s).bind fun x s1 =>
      (resolveInt size b s1).bind fun k s2 =>
        .ok () (if frBit s2.fr k = wanted then s2.setPc x else s2)).finish
  | _ => wrongCount s

/-- No effect, with any operands that decode lets through: none is resolved (42_data_movement.md R180,
46_system.md R281, R282). -/
def inertOp (ops : List Operand) (s : State) : Host.Outcome State Fault Refusal :=
  if ops.length ≤ 4 then .next s else wrongCount s

end Sys2Proof.Machine
end

