-- ==== Sys2Proof/Machine/Arithmetic.lean ====
section
/-! DEFINITION. The integer arithmetic instructions (43_arithmetic.md): add, sub, mul, div, mod (64
bits, unsigned, whatever the size qualifier) and neg (sized, reserved). -/

namespace Sys2Proof.Machine

/-- Unsigned division, 0 by zero (43_arithmetic.md R203). -/
def divU (a b : Word) : Word := if b.toNat = 0 then 0 else BitVec.ofNat 64 (a.toNat / b.toNat)

/-- Unsigned remainder, 0 by zero under MOD_ZERO_POLICY = zero (43_arithmetic.md R204). -/
def modU (a b : Word) : Word := if b.toNat = 0 then 0 else BitVec.ofNat 64 (a.toNat % b.toNat)

/-- `add` (43_arithmetic.md R200). -/
def execAdd (size : OperandSize) (ops : List Operand) (s : State) :
    Host.Outcome State Fault Refusal := binaryOp size ops (fun a b => a + b) s

/-- `sub` (43_arithmetic.md R201). -/
def execSub (size : OperandSize) (ops : List Operand) (s : State) :
    Host.Outcome State Fault Refusal := binaryOp size ops (fun a b => a - b) s

/-- `mul`: the low 64 bits of the product (43_arithmetic.md R202). -/
def execMul (size : OperandSize) (ops : List Operand) (s : State) :
    Host.Outcome State Fault Refusal := binaryOp size ops (fun a b => a * b) s

/-- `div` (43_arithmetic.md R203). -/
def execDiv (size : OperandSize) (ops : List Operand) (s : State) :
    Host.Outcome State Fault Refusal := binaryOp size ops divU s

/-- `mod`: by zero it gives 0 or, under MOD_ZERO_POLICY = fault, the model fault
MOD_BY_ZERO_UNDEFINED with the target not written (43_arithmetic.md R204). -/
def execMod (size : OperandSize) (ops : List Operand) (s : State) :
    Host.Outcome State Fault Refusal :=
  match ops with
  | [t, a, b] =>
    ((resolveInt size a s).bind fun x s1 =>
      (resolveInt size b s1).bind fun y s2 =>
        if y.toNat = 0 ∧ s2.cfg.modZeroPolicy = .fault then .fault .modByZeroUndefined s2
        else assign size t (.int (modU x y)) s2).finish
  | _ => wrongCount s

/-- `neg`, sized (43_arithmetic.md R205). -/
def execNeg (size : OperandSize) (ops : List Operand) (s : State) :
    Host.Outcome State Fault Refusal := reservedOp s (unaryOp size ops (negW (width size)) s)

end Sys2Proof.Machine
end

