-- ==== Sys2Proof/Machine/Control.lean ====
section
/-! DEFINITION. The control transfer instructions (45_control_transfer.md). When a meaning runs, the pc
already holds the address of the next instruction (40_sequencer.md R137). -/

namespace Sys2Proof.Machine

/-- `jsr`: push the pc, then resolve the target, then jump (45_control_transfer.md R251). -/
def execJsr (size : OperandSize) (ops : List Operand) (s : State) :
    Host.Outcome State Fault Refusal :=
  match ops with
  | [t] =>
    ((stackPush s.pc s).bind fun _ s1 =>
      (resolveInt size t s1).bind fun x s2 => .ok () (s2.setPc x)).finish
  | _ => wrongCount s

/-- `rts`: pop the pc; no operand is resolved, so size `none` is legal (45_control_transfer.md R252). -/
def execRts (_size : OperandSize) (ops : List Operand) (s : State) :
    Host.Outcome State Fault Refusal :=
  match ops with
  | [] => ((stackPop s).bind fun v s1 => .ok () (s1.setPc v)).finish
  | _ => wrongCount s

/-- `jmp` (45_control_transfer.md R250, R253). -/
def execJmp (size : OperandSize) (ops : List Operand) (s : State) :
    Host.Outcome State Fault Refusal :=
  match ops with
  | [t] => ((resolveInt size t s).bind fun x s1 => .ok () (s1.setPc x)).finish
  | _ => wrongCount s

/-- `bz`: taken if Z = 1 (45_control_transfer.md R254, R255). -/
def execBz (size : OperandSize) (ops : List Operand) (s : State) :
    Host.Outcome State Fault Refusal :=
  reservedOp s (branchOp size ops (fun fr => flagZ fr) s)

/-- `bnz`: taken if Z = 0 (45_control_transfer.md R254, R256). -/
def execBnz (size : OperandSize) (ops : List Operand) (s : State) :
    Host.Outcome State Fault Refusal :=
  reservedOp s (branchOp size ops (fun fr => !flagZ fr) s)

/-- `bne`: taken if Z = 0 (45_control_transfer.md R254, R259). -/
def execBne (size : OperandSize) (ops : List Operand) (s : State) :
    Host.Outcome State Fault Refusal :=
  reservedOp s (branchOp size ops (fun fr => !flagZ fr) s)

/-- `beq`: taken if Z = 1 (45_control_transfer.md R254, R260). -/
def execBeq (size : OperandSize) (ops : List Operand) (s : State) :
    Host.Outcome State Fault Refusal :=
  reservedOp s (branchOp size ops (fun fr => flagZ fr) s)

/-- `bae`: taken if C = 0 (45_control_transfer.md R254, R261). -/
def execBae (size : OperandSize) (ops : List Operand) (s : State) :
    Host.Outcome State Fault Refusal :=
  reservedOp s (branchOp size ops (fun fr => !flagC fr) s)

/-- `ba`: taken if C = 0 and Z = 0 (45_control_transfer.md R254, R262). -/
def execBa (size : OperandSize) (ops : List Operand) (s : State) :
    Host.Outcome State Fault Refusal :=
  reservedOp s (branchOp size ops (fun fr => !flagC fr && !flagZ fr) s)

/-- `ble`: taken if C = 1 or Z = 1 (45_control_transfer.md R254, R263). -/
def execBle (size : OperandSize) (ops : List Operand) (s : State) :
    Host.Outcome State Fault Refusal :=
  reservedOp s (branchOp size ops (fun fr => flagC fr || flagZ fr) s)

/-- `bl`: taken if C = 1 (45_control_transfer.md R254, R264). -/
def execBl (size : OperandSize) (ops : List Operand) (s : State) :
    Host.Outcome State Fault Refusal :=
  reservedOp s (branchOp size ops (fun fr => flagC fr) s)

/-- `bo`: taken if V = 1 (45_control_transfer.md R254, R265). -/
def execBo (size : OperandSize) (ops : List Operand) (s : State) :
    Host.Outcome State Fault Refusal :=
  reservedOp s (branchOp size ops (fun fr => flagV fr) s)

/-- `bcc`: taken if C = 0 (45_control_transfer.md R254, R266). -/
def execBcc (size : OperandSize) (ops : List Operand) (s : State) :
    Host.Outcome State Fault Refusal :=
  reservedOp s (branchOp size ops (fun fr => !flagC fr) s)

/-- `bcs`: taken if C = 1 (45_control_transfer.md R254, R267). -/
def execBcs (size : OperandSize) (ops : List Operand) (s : State) :
    Host.Outcome State Fault Refusal :=
  reservedOp s (branchOp size ops (fun fr => flagC fr) s)

/-- `tbz`: taken if bit k of `fr` is 0 (45_control_transfer.md R257). -/
def execTbz (size : OperandSize) (ops : List Operand) (s : State) :
    Host.Outcome State Fault Refusal :=
  reservedOp s (bitBranchOp size ops false s)

/-- `tbnz`: taken if bit k of `fr` is 1 (45_control_transfer.md R258). -/
def execTbnz (size : OperandSize) (ops : List Operand) (s : State) :
    Host.Outcome State Fault Refusal :=
  reservedOp s (bitBranchOp size ops true s)

end Sys2Proof.Machine
end

