-- ==== Sys2Proof/Machine/DataMovement.lean ====
section
/-! DEFINITION. The data movement instructions (42_data_movement.md): nop, load, store, move, push,
pop. -/

namespace Sys2Proof.Machine

/-- The bytes a `load` or `store` moves: 8, or the width of the size qualifier under SIZED_MEMORY
(20_memory.md R69, 42_data_movement.md R181, R182). -/
def accessBytes (size : OperandSize) (s : State) : Nat :=
  if s.cfg.sizedMemory then width size / 8 else 8

/-- `load` from the given base and optional offset into `t` (42_data_movement.md R181). -/
def loadFrom (size : OperandSize) (t base : Operand) (offset : Option Operand) (s : State) : Res Unit :=
  (effectiveAddress size base offset s).bind fun ea s1 =>
    (memRead ea (accessBytes size s1) s1).bind fun v s2 => assign size t (.int v) s2

/-- `store` of `v0` at the given base and optional offset; the value is resolved first
(42_data_movement.md R182). -/
def storeTo (size : OperandSize) (v0 base : Operand) (offset : Option Operand) (s : State) : Res Unit :=
  (resolveInt size v0 s).bind fun v s1 =>
    (effectiveAddress size base offset s1).bind fun ea s2 =>
      memWrite ea (accessBytes size s2) v s2

/-- `nop` (42_data_movement.md R180). -/
def execNop (_size : OperandSize) (ops : List Operand) (s : State) :
    Host.Outcome State Fault Refusal := inertOp ops s

/-- `load` (42_data_movement.md R181). -/
def execLoad (size : OperandSize) (ops : List Operand) (s : State) :
    Host.Outcome State Fault Refusal :=
  match ops with
  | [t, base] => (loadFrom size t base none s).finish
  | [t, base, offset] => (loadFrom size t base (some offset) s).finish
  | _ => wrongCount s

/-- `store` (42_data_movement.md R182). -/
def execStore (size : OperandSize) (ops : List Operand) (s : State) :
    Host.Outcome State Fault Refusal :=
  match ops with
  | [v0, base] => (storeTo size v0 base none s).finish
  | [v0, base, offset] => (storeTo size v0 base (some offset) s).finish
  | _ => wrongCount s

/-- `move`: slot 0 is the source, slot 1 the target; a float source stays a float (42_data_movement.md
R183, 41_operand_resolver.md R164). -/
def execMove (size : OperandSize) (ops : List Operand) (s : State) :
    Host.Outcome State Fault Refusal :=
  match ops with
  | [a, t] => ((resolveMove size a s).bind fun v s1 => assign size t v s1).finish
  | _ => wrongCount s

/-- `push`: the source is resolved before `sp` moves; always 8 bytes (42_data_movement.md R185). -/
def execPush (size : OperandSize) (ops : List Operand) (s : State) :
    Host.Outcome State Fault Refusal :=
  match ops with
  | [a] => ((resolveInt size a s).bind fun v s1 => stackPush v s1).finish
  | _ => wrongCount s

/-- `pop`: `sp` moves before the target is written (42_data_movement.md R186). -/
def execPop (size : OperandSize) (ops : List Operand) (s : State) :
    Host.Outcome State Fault Refusal :=
  match ops with
  | [t] => ((stackPop s).bind fun v s1 => assign size t (.int v) s1).finish
  | _ => wrongCount s

end Sys2Proof.Machine
end

