-- ==== Sys2Proof/Machine/Logic.lean ====
section
/-! DEFINITION. The shift, rotate, bitwise, test and compare instructions (44_logic_shift_compare.md).
All are reserved opcodes, and all are sized by the size qualifier. -/

namespace Sys2Proof.Machine

/-- `shr`: logical shift right (44_logic_shift_compare.md R220). -/
def execShr (size : OperandSize) (ops : List Operand) (s : State) :
    Host.Outcome State Fault Refusal :=
  reservedOp s (binaryOp size ops (shrW (width size)) s)

/-- `shl`: shift left (44_logic_shift_compare.md R221). -/
def execShl (size : OperandSize) (ops : List Operand) (s : State) :
    Host.Outcome State Fault Refusal :=
  reservedOp s (binaryOp size ops (shlW (width size)) s)

/-- `ror`: rotate right (44_logic_shift_compare.md R222). -/
def execRor (size : OperandSize) (ops : List Operand) (s : State) :
    Host.Outcome State Fault Refusal :=
  reservedOp s (binaryOp size ops (rorW (width size)) s)

/-- `rol`: rotate left (44_logic_shift_compare.md R223). -/
def execRol (size : OperandSize) (ops : List Operand) (s : State) :
    Host.Outcome State Fault Refusal :=
  reservedOp s (binaryOp size ops (rolW (width size)) s)

/-- `and` (44_logic_shift_compare.md R224). -/
def execAnd (size : OperandSize) (ops : List Operand) (s : State) :
    Host.Outcome State Fault Refusal :=
  reservedOp s (binaryOp size ops (fun a b => trunc (width size) a &&& trunc (width size) b) s)

/-- `or` (44_logic_shift_compare.md R225). -/
def execOr (size : OperandSize) (ops : List Operand) (s : State) :
    Host.Outcome State Fault Refusal :=
  reservedOp s (binaryOp size ops (fun a b => trunc (width size) a ||| trunc (width size) b) s)

/-- `xor` (44_logic_shift_compare.md R226). -/
def execXor (size : OperandSize) (ops : List Operand) (s : State) :
    Host.Outcome State Fault Refusal :=
  reservedOp s (binaryOp size ops (fun a b => trunc (width size) a ^^^ trunc (width size) b) s)

/-- `not`: bitwise complement (44_logic_shift_compare.md R227). -/
def execNot (size : OperandSize) (ops : List Operand) (s : State) :
    Host.Outcome State Fault Refusal :=
  reservedOp s (unaryOp size ops (fun a => trunc (width size) (~~~ a)) s)

/-- `bis`: bit set (44_logic_shift_compare.md R228). -/
def execBis (size : OperandSize) (ops : List Operand) (s : State) :
    Host.Outcome State Fault Refusal :=
  reservedOp s (binaryOp size ops (bisW (width size)) s)

/-- `bic`: bit clear (44_logic_shift_compare.md R229). -/
def execBic (size : OperandSize) (ops : List Operand) (s : State) :
    Host.Outcome State Fault Refusal :=
  reservedOp s (binaryOp size ops (bicW (width size)) s)

/-- `test`: flags of the bitwise and (44_logic_shift_compare.md R230). -/
def execTest (size : OperandSize) (ops : List Operand) (s : State) :
    Host.Outcome State Fault Refusal :=
  reservedOp s (flagsOp size ops (testFlags (width size)) s)

/-- `cmp`: flags of the difference (44_logic_shift_compare.md R231). -/
def execCmp (size : OperandSize) (ops : List Operand) (s : State) :
    Host.Outcome State Fault Refusal :=
  reservedOp s (flagsOp size ops (cmpFlags (width size)) s)

end Sys2Proof.Machine
end

