-- ==== Sys2Proof/Machine/System.lean ====
section
/-! DEFINITION. The system instructions (46_system.md): exit, meta, debug. -/

namespace Sys2Proof.Machine

/-- `exit`: set the halted flag; registers and memory stay (46_system.md R280). -/
def execExit (_size : OperandSize) (ops : List Operand) (s : State) :
    Host.Outcome State Fault Refusal :=
  match ops with
  | [] => .next (s.setStatus .halted)
  | _ => wrongCount s

/-- `meta`: inert metadata, in either RESERVED_OP_MODE (46_system.md R281). -/
def execMeta (_size : OperandSize) (ops : List Operand) (s : State) :
    Host.Outcome State Fault Refusal := reservedOp s (inertOp ops s)

/-- `debug`: inert, in either RESERVED_OP_MODE (46_system.md R282). -/
def execDebug (_size : OperandSize) (ops : List Operand) (s : State) :
    Host.Outcome State Fault Refusal := reservedOp s (inertOp ops s)

end Sys2Proof.Machine
end

