-- ==== Sys2Proof/Machine/Dispatch.lean ====
section
/-! DEFINITION. The dispatch: one meaning per constructor of Instr (40_sequencer.md R133). -/

namespace Sys2Proof.Machine

def exec (i : Instr) (s : State) : Host.Outcome State Fault Refusal :=
  match i with
  | .nop size ops => Sys2Proof.Machine.execNop size ops s
  | .load size ops => Sys2Proof.Machine.execLoad size ops s
  | .store size ops => Sys2Proof.Machine.execStore size ops s
  | .move size ops => Sys2Proof.Machine.execMove size ops s
  | .push size ops => Sys2Proof.Machine.execPush size ops s
  | .pop size ops => Sys2Proof.Machine.execPop size ops s
  | .add size ops => Sys2Proof.Machine.execAdd size ops s
  | .sub size ops => Sys2Proof.Machine.execSub size ops s
  | .mul size ops => Sys2Proof.Machine.execMul size ops s
  | .div size ops => Sys2Proof.Machine.execDiv size ops s
  | .mod size ops => Sys2Proof.Machine.execMod size ops s
  | .neg size ops => Sys2Proof.Machine.execNeg size ops s
  | .shr size ops => Sys2Proof.Machine.execShr size ops s
  | .shl size ops => Sys2Proof.Machine.execShl size ops s
  | .ror size ops => Sys2Proof.Machine.execRor size ops s
  | .rol size ops => Sys2Proof.Machine.execRol size ops s
  | .and size ops => Sys2Proof.Machine.execAnd size ops s
  | .or size ops => Sys2Proof.Machine.execOr size ops s
  | .xor size ops => Sys2Proof.Machine.execXor size ops s
  | .not size ops => Sys2Proof.Machine.execNot size ops s
  | .bis size ops => Sys2Proof.Machine.execBis size ops s
  | .bic size ops => Sys2Proof.Machine.execBic size ops s
  | .test size ops => Sys2Proof.Machine.execTest size ops s
  | .cmp size ops => Sys2Proof.Machine.execCmp size ops s
  | .bz size ops => Sys2Proof.Machine.execBz size ops s
  | .bnz size ops => Sys2Proof.Machine.execBnz size ops s
  | .tbz size ops => Sys2Proof.Machine.execTbz size ops s
  | .tbnz size ops => Sys2Proof.Machine.execTbnz size ops s
  | .bne size ops => Sys2Proof.Machine.execBne size ops s
  | .beq size ops => Sys2Proof.Machine.execBeq size ops s
  | .bae size ops => Sys2Proof.Machine.execBae size ops s
  | .ba size ops => Sys2Proof.Machine.execBa size ops s
  | .ble size ops => Sys2Proof.Machine.execBle size ops s
  | .bl size ops => Sys2Proof.Machine.execBl size ops s
  | .bo size ops => Sys2Proof.Machine.execBo size ops s
  | .bcc size ops => Sys2Proof.Machine.execBcc size ops s
  | .bcs size ops => Sys2Proof.Machine.execBcs size ops s
  | .jsr size ops => Sys2Proof.Machine.execJsr size ops s
  | .rts size ops => Sys2Proof.Machine.execRts size ops s
  | .jmp size ops => Sys2Proof.Machine.execJmp size ops s
  | .metaData size ops => Sys2Proof.Machine.execMeta size ops s
  | .debug size ops => Sys2Proof.Machine.execDebug size ops s
  | .exit size ops => Sys2Proof.Machine.execExit size ops s

end Sys2Proof.Machine
end

