-- ==== Sys2Proof/Machine/Fetch.lean ====
section
/-! DEFINITION. Reading the instruction at the program counter (30_encoding.md R104) and, for the
host's questions, placing a table word there. -/

namespace Sys2Proof.Machine

/-- The bytes decode may read: from the pc to the end of memory, and no more than the longest
instruction has (30_encoding.md R95, R104, log entry 15). -/
def fetchWindow (s : State) : List Byte :=
  Memory.bytes s.mem s.pc.toNat (min maxInstrBytes (s.cfg.heapSize - s.pc.toNat))

/-- What decode finds at the pc: a fault, or an instruction and the size the pc advances by. The
alignment of the pc is checked before any byte is read (30_encoding.md R104, R105). -/
inductive Fetched where
  | fault (cause : FaultCause)
  | instr (i : Instr) (size : Nat)
deriving DecidableEq, Repr

/-- `decode()` of 30_encoding.md R104, without the pc advance. -/
def fetch (s : State) : Fetched :=
  if s.pc.toNat % 8 ≠ 0 then .fault .b003
  else match decode s.cfg.tables s.cfg.sizeBytePolicy (fetchWindow s) with
    | .error e => .fault (FaultCause.ofDecode e)
    | .ok (i, size) => .instr i size

/-- The pc advance of a successful decode (30_encoding.md R112). -/
def advance (s : State) (size : Nat) : State := s.setPc (s.pc + BitVec.ofNat 64 size)

/-- Place the bytes of a table word at the pc, those that lie in memory. A word whose byte 0 is not its
computed size is placed on a machine with SIZE_BYTE_POLICY = trust_byte0, since a strict machine
refuses it unread (log entry 10). -/
def placeWord (s : State) (nbits w : Nat) : State :=
  let placed := s.setMem (Memory.writeBytes s.mem s.pc.toNat
    ((tableBytes nbits w).take (s.cfg.heapSize - s.pc.toNat)))
  match decode s.cfg.tables .strict (tableBytes nbits w) with
  | .error .s005 => { placed with cfg := { s.cfg with sizeBytePolicy := .trustByte0 } }
  | .error _ => placed
  | .ok _ => placed

end Sys2Proof.Machine
end

