-- ==== Sys2Proof/Machine/Step.lean ====
section
/-! DEFINITION. One step of the sequencer (40_sequencer.md R130, R131). -/

namespace Sys2Proof.Machine

/-- `step()`: only a running machine has one (40_sequencer.md R130). A decode fault leaves the pc where
it is; otherwise the pc advances and the instruction runs (R131). What `step()` returns is
`State.continues` of the next state (R132). -/
def step (s : State) : Host.Outcome State Fault Refusal :=
  match s.status with
  | .uninitialised => .refused .uninitialised
  | .halted => .refused .halted
  | .faulted code => .fault (.faulted code)
  | .running =>
    match fetch s with
    | .fault c => .next (raise c s)
    | .instr i size => exec i (advance s size)

/-- The state with a table word stored where the next step fetches (log entries 10 and 11). -/
def State.withFetchWord (s : State) (nbits w : Nat) : State := placeWord s nbits w

end Sys2Proof.Machine
end

