-- ==== Sys2Proof/Machine/HostPorts.lean ====
section
/-! DEFINITION. The host's ports other than `step()` (70_reset_and_hazards.md R330 to R335,
30_encoding.md R101 to R103): transactions between steps. A port the host may not use is refused. -/

namespace Sys2Proof.Machine

/-- A machine just constructed with a memory size, before its initialisation (70_reset_and_hazards.md
R330). No port but the initialisation reads what it holds (log entry 14). -/
def State.construct (cfg : Config) : State :=
  (State.boot cfg []).setStatus .uninitialised

/-- `reset()`: the register values of 10_state.md R45, status running; memory stays, and so does the
sink, which is the host's (70_reset_and_hazards.md R332). -/
def resetRegisters (s : State) : State :=
  { State.boot s.cfg s.mem with sink := s.sink }

/-- The port `reset()`: allowed in every status but `uninitialised`; the only way out of a fault or a
halt by itself (70_reset_and_hazards.md R332, R334). -/
def hostReset (s : State) : Host.Outcome State Fault Refusal :=
  match s.status with
  | .uninitialised => .refused .uninitialised
  | .running => .next (resetRegisters s)
  | .halted => .next (resetRegisters s)
  | .faulted _ => .next (resetRegisters s)

/-- The port that initialises: memory becomes INITIAL_MEMORY, then `reset()`
(70_reset_and_hazards.md R331, R334). Allowed before it was called and, by 60_exceptions.md R309, after
a fault (log entry 12). -/
def hostInitialise (initialMemory : Memory) (s : State) : Host.Outcome State Fault Refusal :=
  match s.status with
  | .uninitialised => .next (resetRegisters (s.setMem initialMemory))
  | .faulted _ => .next (resetRegisters (s.setMem initialMemory))
  | .running => .refused .alreadyInitialised
  | .halted => .refused .alreadyInitialised

/-- Append a diagnostic from a host port; the status does not change (30_encoding.md R102, R103). -/
def report (c : FaultCause) (s : State) : State := { s with sink := s.sink ++ c.diagnostics }

/-- The port `encode(address, ins)`, with the size it returns (30_encoding.md R101 to R103,
70_reset_and_hazards.md R335). -/
def hostEncode (address : Word) (i : Instr) (s : State) :
    Host.Outcome (State × Nat) Fault Refusal :=
  if s.status = .uninitialised then .refused .uninitialised
  else if address.toNat % 8 ≠ 0 then .next (report .b003 s, 0)
  else if i.operands.length > 4 then .next (report .s002 s, 0)
  else if s.inBounds address (encodedSize i.operands) then
    .next (s.setMem (Memory.writeBytes s.mem address.toNat (encode s.cfg.tables i)), encodedSize i.operands)
  else .refused .hostRange

/-- The port `push(v)`: `StackPush`, refused when the stack slot would not lie in memory
(70_reset_and_hazards.md R334, R335). -/
def hostPush (v : Word) (s : State) : Host.Outcome State Fault Refusal :=
  if s.status = .uninitialised then .refused .uninitialised
  else if 8 ≤ s.sp.toNat ∧ s.sp.toNat ≤ s.cfg.heapSize then
    match stackPush v s with
    | .ok _ s1 => .next s1
    | .fault _ _ => .refused .hostStack
  else .refused .hostStack

/-- The port `pop()`: `StackPop`, with the value it returns (70_reset_and_hazards.md R334, R335). -/
def hostPop (s : State) : Host.Outcome (State × Word) Fault Refusal :=
  if s.status = .uninitialised then .refused .uninitialised
  else match stackPop s with
    | .ok v s1 => .next (s1, v)
    | .fault _ _ => .refused .hostStack

/-- What the register snapshot shows: every register, the halted flag and the status
(70_reset_and_hazards.md R334). -/
structure Snapshot where
  iregs  : Vector Word 64
  fregs  : Vector Word 64
  pc     : Word
  sp     : Word
  fr     : Word
  sr     : Word
  halted : Bool
  status : Status
deriving DecidableEq, Repr

/-- The snapshot of a state. -/
def snapshotOf (s : State) : Snapshot where
  iregs := s.iregs
  fregs := s.fregs
  pc := s.pc
  sp := s.sp
  fr := s.fr
  sr := s.sr
  halted := s.halted
  status := s.status

/-- The register snapshot port; it has no side effect (70_reset_and_hazards.md R334). -/
def hostSnapshot (s : State) : Host.Outcome (State × Snapshot) Fault Refusal :=
  if s.status = .uninitialised then .refused .uninitialised
  else .next (s, snapshotOf s)

/-- The memory byte-range port: bytes `[a, a+n)`, which must lie in memory; it has no side effect
(70_reset_and_hazards.md R334, R335). -/
def hostReadMemory (a n : Nat) (s : State) : Host.Outcome (State × List Byte) Fault Refusal :=
  if s.status = .uninitialised then .refused .uninitialised
  else if a + n ≤ s.cfg.heapSize then .next (s, Memory.bytes s.mem a n)
  else .refused .hostRange

end Sys2Proof.Machine
end

