-- ==== Sys2Proof/Safety.lean ====
section
/-! DEFINITION. What claims about the machine are said in: the invariant every step keeps, and a run
without a fault. -/

namespace Sys2Proof.Machine

/-- The memory has its canonical form and lies inside the heap (20_memory.md R60). -/
abbrev State.MemoryOk (s : State) : Prop :=
  Memory.wf s.mem = true ∧ Memory.below s.mem s.cfg.heapSize = true

/-- The code as the sink writes it, for a fault that appends a diagnostic; the two model faults have
none (60_exceptions.md R302, R303). -/
def FaultCode.diagnosticCode : FaultCode → Option String
  | .b003 => some "B003"
  | .b005 => some "B005"
  | .b006 => some "B006"
  | .b009 => some "B009"
  | .s001 => some "S001"
  | .s002 => some "S002"
  | .s003 => some "S003"
  | .s004 => some "S004"
  | .s005 => some "S005"
  | .s006 => some "S006"
  | .s007 => some "S007"
  | .memUndefined => none
  | .modByZeroUndefined => none

/-- If the machine stands faulted with a diagnostic code, the last record of the sink has that code and
is fatal (60_exceptions.md R301). -/
abbrev State.FaultRecorded (s : State) : Prop :=
  match s.status with
  | .faulted code =>
    match code.diagnosticCode with
    | some text =>
      (s.sink.getLast?.map fun d => (d.code, d.isFatal)) = some (text, true)
    | none => True
  | .uninitialised => True
  | .running => True
  | .halted => True

/-- The invariant of a machine between steps: HEAP_SIZE in its range and injective number tables
(00_scope.md R6, 30_encoding.md R96), memory in its canonical form inside the heap (20_memory.md R60),
and a faulted status backed by the sink (60_exceptions.md R301). -/
abbrev State.Inv (s : State) : Prop := s.cfg.Valid ∧ s.MemoryOk ∧ s.FaultRecorded

/-- `n` steps from `s` raise no fault; a machine that has halted by `exit` stays safe
(60_exceptions.md R316). -/
def NeverFaults : Nat → State → Prop
  | 0, s => ∀ code, s.status ≠ .faulted code
  | n + 1, s =>
    match step s with
    | .next t => NeverFaults n t
    | .fault _ => False
    | .refused _ => s.status = .halted

/-! ### The words the statements use -/

/-- An operand access that raises nothing: the size is not `none` (41_operand_resolver.md R151) and a
register-kind operand names a register (10_state.md R33). -/
abbrev Usable (size : OperandSize) (op : Operand) : Prop :=
  size ≠ .none ∧ op.wellFormed = true

/-- A target that an integer can be written to: usable and not constant-kind
(41_operand_resolver.md R158). -/
abbrev Writable (size : OperandSize) (op : Operand) : Prop :=
  size ≠ .none ∧ op.wellFormed = true ∧ op.isConst = false

/-- The instruction runs its own rule: it is not reserved, or reserved opcodes are architected
(40_sequencer.md R135). -/
abbrev RunsItsRule (i : Instr) (s : State) : Prop :=
  i.op.reserved = false ∨ s.cfg.reservedOpMode = .architected

/-- The value of the second of two operands read in order, in the state the first leaves. -/
abbrev secondValue (a b : Operand) (s : State) : Word := intValue b (afterRead a s)

/-- The state after two operands were read in order. -/
abbrev afterTwoReads (a b : Operand) (s : State) : State := afterRead b (afterRead a s)

/-- The number that `n` bytes of memory stand for, the lowest address least significant
(20_memory.md R63). -/
def littleEndian (m : Memory) (a n : Nat) : Nat :=
  ∑ k ∈ Finset.range n, (Memory.read m (a + k)).toNat * 256 ^ k

/-- The w-bit value as a two's-complement number (40_sequencer.md R139). -/
def signedW (w : Nat) (v : Word) : Int :=
  if 2 ^ (w - 1) ≤ v.toNat % 2 ^ w then (v.toNat % 2 ^ w : Int) - 2 ^ w else (v.toNat % 2 ^ w : Int)

/-- The target slot's operand, by the roles of 30_encoding.md R115. -/
def targetOf (i : Instr) : Option Operand :=
  match i.op with
  | .load => i.operands[0]?
  | .pop => i.operands[0]?
  | .move => i.operands[1]?
  | .add => i.operands[0]?
  | .sub => i.operands[0]?
  | .mul => i.operands[0]?
  | .div => i.operands[0]?
  | .mod => i.operands[0]?
  | .neg => i.operands[0]?
  | .shr => i.operands[0]?
  | .shl => i.operands[0]?
  | .ror => i.operands[0]?
  | .rol => i.operands[0]?
  | .and => i.operands[0]?
  | .or => i.operands[0]?
  | .xor => i.operands[0]?
  | .not => i.operands[0]?
  | .bis => i.operands[0]?
  | .bic => i.operands[0]?
  | _ => none

/-- Is the operand of an increment or decrement register mode on integer register `j`? Reading it
adjusts that register (41_operand_resolver.md R156). -/
def adjustsI (op : Operand) (j : Fin 64) : Bool :=
  match op with
  | .reg .incrementRegisterPre i => decide (i.toNat = j.val)
  | .reg .incrementRegisterPost i => decide (i.toNat = j.val)
  | .reg .decrementRegisterPre i => decide (i.toNat = j.val)
  | .reg .decrementRegisterPost i => decide (i.toNat = j.val)
  | _ => false

/-- Does the operand, as a target, name integer register `j` (41_operand_resolver.md R157, R162)? -/
def namesI (op : Operand) (j : Fin 64) : Bool :=
  match op with
  | .reg .registerInteger i => decide (i.toNat = j.val)
  | _ => adjustsI op j

/-- Does the operand, as a target, name float register `j` (41_operand_resolver.md R157)? -/
def namesF (op : Operand) (j : Fin 64) : Bool :=
  match op with
  | .reg .registerFloat i => decide (i.toNat = j.val)
  | _ => false

/-- The first address and the number of bytes that an instruction stores to, where it stores: a
`store` at its effective address, `push` and `jsr` at the stack slot (20_memory.md R61,
42_data_movement.md R182, R184). -/
def storedBytes (i : Instr) (s : State) : Option (Nat × Nat) :=
  match i with
  | .store size [v, base] =>
    match effectiveAddress size base none (afterRead v s) with
    | .ok ea _ => some (ea.toNat, accessBytes size s)
    | .fault _ _ => none
  | .store size [v, base, offset] =>
    match effectiveAddress size base (some offset) (afterRead v s) with
    | .ok ea _ => some (ea.toNat, accessBytes size s)
    | .fault _ _ => none
  | .push _ [_] => some ((s.sp - 8).toNat, 8)
  | .jsr _ [_] => some ((s.sp - 8).toNat, 8)
  | _ => none

/-- The magnitude of a finite binary64 pattern in units of 2^-1074, the smallest subnormal: an exact
natural number. -/
def f64Scaled (x : Word) : Nat := f64Significand x * 2 ^ (max 1 (f64Exponent x) - 1)

/-- An integer in the units of `f64Scaled`. -/
def scaledNat (n : Nat) : Nat := n * 2 ^ 1074

end Sys2Proof.Machine
end

