-- ==== Sys2Proof/Certificates/Slice0/Obligations.lean ====
section
/-! DEFINITION. The statements for the provers, one definition each, listed in OBLIGATIONS.json. The
words they use stand in Sys2Proof/Safety.lean. -/

open Sys2Proof Sys2Proof.Machine

/-- For all number tables (OPCODE_NUM, MODE_TAG, SIZE_CODE) that are injective, every well-formed
instruction, every size-byte policy and every bytes that follow, decode of the encoding gives the
instruction, with every operand, index byte and payload, and its computed size. (R94, R96, R97,
R101, R104, R113) -/
def Obligations.EncodeThenDecodeGivesInstruction : Prop :=
  ∀ (tables : NumberTables) (policy : SizeBytePolicy) (i : Instr) (rest : List Byte), tables.Valid →
    i.wellFormed = true →
    decode tables policy (encode tables i ++ rest) = .ok (i, encodedSize i.operands)

/-- For every well-formed instruction and every aligned address where it fits, the encode port returns
its size, decode at that address finds the instruction with the same size, and the pc advance
leaves address + size. (R113) -/
def Obligations.LoadedInstructionIsFetched : Prop :=
  ∀ (s : State) (addr : Word) (i : Instr), s.cfg.Valid → s.MemoryOk → s.status ≠ .uninitialised →
    i.wellFormed = true → addr.toNat % 8 = 0 →
    addr.toNat + encodedSize i.operands ≤ s.cfg.heapSize →
    ∃ t, hostEncode addr i s = .next (t, encodedSize i.operands) ∧
      fetch (t.setPc addr) = .instr i (encodedSize i.operands) ∧
      (advance (t.setPc addr) (encodedSize i.operands)).pc.toNat =
        addr.toNat + encodedSize i.operands

/-- Under any number tables, if strict decode of some bytes gives an instruction, the instruction is
well formed, the size is its computed size, the bytes are long enough, and up to the padding they
are its encoding. (R92, R93, R94, R104, R111, R116) -/
def Obligations.StrictDecodeAcceptsOnlyEncodings : Prop :=
  ∀ (tables : NumberTables) (bytes : List Byte) (i : Instr) (n : Nat),
    decode tables .strict bytes = .ok (i, n) →
    i.wellFormed = true ∧ n = encodedSize i.operands ∧ n ≤ bytes.length ∧
    bytes.take (contentLength i.operands) = (encode tables i).take (contentLength i.operands)

/-- Under any number tables, strict decode raises S005 exactly when decode under trust_byte0 gives an
instruction whose computed size is not its advance; wherever strict decode does not raise S005,
the two give the same instruction and size or the same error; and under trust_byte0 the advance is
byte 0 as stored. (R111, R114) -/
def Obligations.SizeBytePoliciesDifferOnlyOnMismatch : Prop :=
  ∀ (tables : NumberTables) (bytes : List Byte),
    (decode tables .strict bytes = .error .s005 ↔
      ∃ i n, decode tables .trustByte0 bytes = .ok (i, n) ∧ n ≠ encodedSize i.operands) ∧
    (decode tables .strict bytes ≠ .error .s005 →
      decode tables .strict bytes = decode tables .trustByte0 bytes) ∧
    (∀ i n, decode tables .trustByte0 bytes = .ok (i, n) → bytes.head?.map (·.toNat) = some n)

/-- The bytes the spec gives for add I0, I1, I2; load.qw I0, I1, 8; cmp I1, 0; jsr.qw 32; exit decode,
under the strict policy and the default OPCODE_NUM, MODE_TAG and SIZE_CODE of R96, R97 and R99, to
these instructions with their sizes. (The tables are launch arguments, log entry 4; under others
the same bytes may mean another instruction.) (R92, R93, R96, R97, R99) -/
def Obligations.SampleWordsDecode : Prop :=
  decode defaultTables .strict [0x10, 0x07, 0x00, 0x04, 0x03, 0x01, 0x00, 0x01, 0x01, 0x01, 0x02, 0, 0,
      0, 0, 0] =
    .ok (.add .qword [.reg .registerInteger 0, .reg .registerInteger 1, .reg .registerInteger 2], 16) ∧
  decode defaultTables .strict [0x18, 0x02, 0x00, 0x04, 0x03, 0x01, 0x00, 0x01, 0x01, 0x07, 0x00, 0x08,
      0, 0, 0, 0, 0, 0, 0, 0, 0, 0, 0, 0] =
    .ok (.load .qword [.reg .registerInteger 0, .reg .registerInteger 1,
      .const .constantInteger 0 8], 24) ∧
  decode defaultTables .strict [0x18, 0x18, 0x00, 0x04, 0x02, 0x01, 0x01, 0x07, 0x00, 0, 0, 0, 0, 0, 0,
      0, 0, 0, 0, 0, 0, 0, 0, 0] =
    .ok (.cmp .qword [.reg .registerInteger 1, .const .constantInteger 0 0], 24) ∧
  decode defaultTables .strict [0x10, 0x26, 0x00, 0x04, 0x01, 0x07, 0x00, 0x20, 0, 0, 0, 0, 0, 0, 0,
      0] =
    .ok (.jsr .qword [.const .constantInteger 0 32], 16) ∧
  decode defaultTables .strict [0x08, 0x2b, 0, 0, 0, 0, 0, 0] = .ok (.exit .none [], 8)

/-- If the machine is running, the pc is a multiple of 8 and the bytes at the pc decode to an
instruction i with size n, step is exec of i in the state whose pc has advanced by n. (R112, R131,
R137) -/
def Obligations.StepRunsTheDecodedInstruction : Prop :=
  ∀ (s : State) (i : Instr) (n : Nat), s.status = .running → s.pc.toNat % 8 = 0 →
    decode s.cfg.tables s.cfg.sizeBytePolicy (fetchWindow s) = .ok (i, n) →
    step s = exec i (s.setPc (s.pc + BitVec.ofNat 64 n))

/-- If the machine is running and the pc is not a multiple of 8, the step leads to the same state with
status faulted(B003) and the B003 record appended; the pc is unchanged and step returns false.
(R105) -/
def Obligations.MisalignedPcRaisesB003 : Prop :=
  ∀ (s : State), s.status = .running → s.pc.toNat % 8 ≠ 0 →
    ∃ t, step s = .next t ∧ t.continues = false ∧ t.pc = s.pc ∧
      t = { s with status := .faulted .b003, sink := s.sink ++
        [⟨"B003", "instructions must be encoded on 8-byte boundaries", true⟩] }

/-- If the machine is running, the pc is aligned and decode of the bytes there gives an error, the
step raises exactly that fault and changes no register, not the pc, and no memory. (R104, R301,
R307) -/
def Obligations.DecodeErrorsChangeNoRegister : Prop :=
  ∀ (s : State) (e : DecodeError), s.status = .running → s.pc.toNat % 8 = 0 →
    decode s.cfg.tables s.cfg.sizeBytePolicy (fetchWindow s) = .error e →
    ∃ t, step s = .next t ∧ t.status = .faulted (FaultCause.ofDecode e).code ∧
      t.sink = s.sink ++ (FaultCause.ofDecode e).diagnostics ∧
      t.iregs = s.iregs ∧ t.fregs = s.fregs ∧ t.pc = s.pc ∧ t.sp = s.sp ∧ t.fr = s.fr ∧ t.sr = s.sr ∧
      t.mem = s.mem ∧ t.cfg = s.cfg

/-- A step before initialisation or after exit is refused, a step in a faulted machine stops. That the
first two are refusals and the third a fault is the model's choice (log entry 5); that none has a
transition is R130. A running machine always has a next state, and reset leads back to one from
every status but uninitialised. (R130, R309, R332) -/
def Obligations.NoStepOutsideRunning : Prop :=
  ∀ (s : State),
    (s.status = .uninitialised → step s = .refused .uninitialised) ∧
    (s.status = .halted → step s = .refused .halted) ∧
    (∀ code, s.status = .faulted code → step s = .fault (.faulted code)) ∧
    (s.status = .running → ∃ t, step s = .next t) ∧
    (s.status ≠ .uninitialised → ∃ t u, hostReset s = .next t ∧ t.mem = s.mem ∧ step t = .next u)

/-- If a strict machine fetches an instruction with size n, then n is a multiple of 8 between 8 and
48, pc + n is at most HEAP_SIZE, and the advanced pc is the exact sum. (R35, R92, R95) -/
def Obligations.StrictDecodeStaysInMemory : Prop :=
  ∀ (s : State) (i : Instr) (n : Nat), s.cfg.Valid → s.cfg.sizeBytePolicy = .strict →
    fetch s = .instr i n →
    i.wellFormed = true ∧ n % 8 = 0 ∧ 8 ≤ n ∧ n ≤ 48 ∧ s.pc.toNat + n ≤ s.cfg.heapSize ∧
      (advance s n).pc.toNat = s.pc.toNat + n

/-- For every instruction that runs its own rule, an operand count outside the accepted set of R115
leads to the same state with S006 raised; a step that fetches such an instruction leaves the pc
advanced by its size and nothing else but status and sink changed. (R134) -/
def Obligations.WrongOperandCountRaisesS006 : Prop :=
  ∀ (i : Instr) (s : State) (n : Nat), RunsItsRule i s → i.op.accepts i.operands.length = false →
    exec i s = .next { s with status := .faulted .s006, sink := s.sink ++
      [⟨"S006", "wrong operand count for opcode", true⟩] } ∧
    (s.status = .running → fetch s = .instr i n →
      step s = .next { s with
        pc := s.pc + BitVec.ofNat 64 n
        status := .faulted .s006
        sink := s.sink ++ [⟨"S006", "wrong operand count for opcode", true⟩] })

/-- For every instruction with a reserved opcode, with any operands, any count and any size, exec
under RESERVED_OP_MODE = reference_nop answers the same state; there are exactly the 28 reserved
opcodes of R136. (R135, R136) -/
def Obligations.ReservedOpcodesUnderReferenceNop : Prop :=
  (∀ (i : Instr) (s : State), i.op.reserved = true → s.cfg.reservedOpMode = .referenceNop →
    exec i s = .next s) ∧
  (∀ (o : Op), o.reserved = true ↔ o ∈ [Op.neg, .shr, .shl, .ror, .rol, .and, .or, .xor, .not, .bis,
    .bic, .test, .cmp, .bz, .bnz, .tbz, .tbnz, .bne, .beq, .bae, .ba, .ble, .bl, .bo, .bcc, .bcs,
    .metaData, .debug])

/-- For every instruction other than nop, meta, debug, rts and exit (which access no operand) and pop
and jsr (which move the stack first), with an accepted count and size none, exec raises B005 in
the unchanged state. (R151) -/
def Obligations.SizeNoneRaisesB005 : Prop :=
  ∀ (i : Instr) (s : State), i.size = .none → i.op.accepts i.operands.length = true →
    RunsItsRule i s →
    i.op ∉ [Op.nop, .metaData, .debug, .rts, .exit, .pop, .jsr] →
    exec i s = .next { s with status := .faulted .b005, sink := s.sink ++
      [⟨"B005", "operand size none is invalid", true⟩] }

/-- With size none, pop leaves sp raised by 8 and jsr leaves sp lowered by 8 with the return address
written, and then B005 is raised. (R140, R151, R186, R251) -/
def Obligations.PopAndJsrMoveTheStackBeforeB005 : Prop :=
  ∀ (t : Operand) (s : State), s.MemoryOk →
    (s.sp.toNat + 8 ≤ s.cfg.heapSize →
      exec (.pop .none [t]) s = .next (raise .b005Size (s.setSp (s.sp + 8)))) ∧
    ((s.sp - 8).toNat + 8 ≤ s.cfg.heapSize →
      ∃ m, exec (.jsr .none [t]) s = .next (raise .b005Size ((s.setSp (s.sp - 8)).setMem m)) ∧
        littleEndian m (s.sp - 8).toNat 8 = s.pc.toNat)

/-- For every instruction with a target slot that runs its own rule, a constant-kind target ends the
step faulted; float registers, fr, sr, pc and memory are as before, sp too for every opcode but
pop, and every integer register that no source adjusts. (R140, R157, R158) -/
def Obligations.NoInstructionCompletesWithAConstantTarget : Prop :=
  ∀ (i : Instr) (s : State) (op : Operand), targetOf i = some op → op.isConst = true →
    RunsItsRule i s →
    ∃ t code, exec i s = .next t ∧ t.status = .faulted code ∧
      (∀ j, t.getF j = s.getF j) ∧
      (∀ j, (∀ a ∈ i.operands, adjustsI a j = false) → t.getI j = s.getI j) ∧
      t.fr = s.fr ∧ t.sr = s.sr ∧ t.pc = s.pc ∧ t.mem = s.mem ∧ (i.op ≠ .pop → t.sp = s.sp)

/-- add, sub, mul, div and the sized two-source operations raise B006 after both reads, neg and not
after one, move after its source, load after its memory read, pop after sp has moved; each in the
state the reads left. (R140, R158, R181, R183, R186, R338) -/
def Obligations.ConstantTargetRaisesB006 : Prop :=
  ∀ (z : OperandSize) (t a b : Operand) (s : State), z ≠ .none → t.isConst = true →
    a.wellFormed = true → b.wellFormed = true →
    (∀ (i : Instr), RunsItsRule i s → i.size = z → i.operands = [t, a, b] →
      i.op ∈ [Op.add, .sub, .mul, .div, .shr, .shl, .ror, .rol, .and, .or, .xor, .bis, .bic] →
      exec i s = .next (raise .b006 (afterTwoReads a b s))) ∧
    (∀ (i : Instr), RunsItsRule i s → i.size = z → i.operands = [t, a] → i.op ∈ [Op.neg, .not] →
      exec i s = .next (raise .b006 (afterRead a s))) ∧
    (s.cfg.modZeroPolicy = .zero ∨ secondValue a b s ≠ 0 →
      exec (.mod z [t, a, b]) s = .next (raise .b006 (afterTwoReads a b s))) ∧
    exec (.move z [a, t]) s = .next (raise .b006 (afterRead a s)) ∧
    ((intValue a s).toNat + accessBytes z s ≤ s.cfg.heapSize →
      exec (.load z [t, a]) s = .next (raise .b006 (afterRead a s))) ∧
    ((intValue a s + secondValue a b s).toNat + accessBytes z s ≤ s.cfg.heapSize →
      exec (.load z [t, a, b]) s = .next (raise .b006 (afterTwoReads a b s))) ∧
    (s.sp.toNat + 8 ≤ s.cfg.heapSize →
      exec (.pop z [t]) s = .next (raise .b006 (s.setSp (s.sp + 8))))

/-- A move whose source is a float register or a float constant and whose target is a special register
raises B009 in the unchanged state. (R159, R183) -/
def Obligations.FloatIntoSpecialRegisterRaisesB009 : Prop :=
  ∀ (z : OperandSize) (a : Operand) (m : SpecialMode) (index : Byte) (s : State), Usable z a →
    isFloatSource a = true →
    exec (.move z [a, .special m index]) s = .next { s with status := .faulted .b009, sink := s.sink ++
      [⟨"B009", "floating point value cannot be assigned to an integer special register", true⟩] }

/-- load, store, push (with a size other than none), pop, jsr and rts (with any size, none too) whose
access does not lie in [0, HEAP_SIZE) end faulted(MEM_UNDEFINED), in the state their reads (and,
for push and jsr, the move of sp) left, with memory and the sink unchanged. (R65, R181, R182,
R184, R303) -/
def Obligations.OutOfBoundsAccessIsMemUndefined : Prop :=
  ∀ (z y : OperandSize) (t v a b : Operand) (s : State), z ≠ .none → v.wellFormed = true →
    a.wellFormed = true → b.wellFormed = true →
    (s.cfg.heapSize < (intValue a s).toNat + accessBytes z s →
      exec (.load z [t, a]) s = .next ((afterRead a s).setStatus (.faulted .memUndefined))) ∧
    (s.cfg.heapSize < (intValue a s + secondValue a b s).toNat + accessBytes z s →
      exec (.load z [t, a, b]) s =
        .next ((afterTwoReads a b s).setStatus (.faulted .memUndefined))) ∧
    (s.cfg.heapSize < (secondValue v a s).toNat + accessBytes z s →
      exec (.store z [v, a]) s = .next ((afterTwoReads v a s).setStatus (.faulted .memUndefined))) ∧
    (s.cfg.heapSize < (secondValue v a s + secondValue a b (afterRead v s)).toNat + accessBytes z s →
      exec (.store z [v, a, b]) s =
        .next ((afterTwoReads a b (afterRead v s)).setStatus (.faulted .memUndefined))) ∧
    (s.cfg.heapSize < (s.sp - 8).toNat + 8 →
      exec (.push z [v]) s =
        .next (((afterRead v s).setSp (s.sp - 8)).setStatus (.faulted .memUndefined))) ∧
    (s.cfg.heapSize < s.sp.toNat + 8 →
      exec (.pop y [t]) s = .next (s.setStatus (.faulted .memUndefined)) ∧
      exec (.rts y []) s = .next (s.setStatus (.faulted .memUndefined))) ∧
    (s.cfg.heapSize < (s.sp - 8).toNat + 8 →
      exec (.jsr y [t]) s = .next ((s.setSp (s.sp - 8)).setStatus (.faulted .memUndefined)))

/-- For n in 1, 2, 4, 8, memWrite in bounds leaves byte k of the value at address + k, every other
address and the rest of the state as before; out of bounds it faults with the state unchanged.
(R64) -/
def Obligations.MemWriteStoresExactlyItsBytes : Prop :=
  ∀ (n : Nat) (addr v : Word) (s : State), n ∈ [1, 2, 4, 8] → s.MemoryOk →
    (addr.toNat + n ≤ s.cfg.heapSize →
      ∃ m, memWrite addr n v s = .ok () (s.setMem m) ∧
        (∀ k, k < n → Memory.read m (addr.toNat + k) = (v >>> (8 * k)).setWidth 8) ∧
        (∀ x, x < addr.toNat ∨ addr.toNat + n ≤ x → Memory.read m x = Memory.read s.mem x)) ∧
    (s.cfg.heapSize < addr.toNat + n → memWrite addr n v s = .fault .memUndefined s)

/-- For n in 1, 2, 4, 8, memRead in bounds gives the sum of byte k times 256^k, zero-extended, with
the state unchanged; out of bounds it faults with the state unchanged. (R62, R63, R65) -/
def Obligations.MemReadCombinesLittleEndian : Prop :=
  ∀ (n : Nat) (addr : Word) (s : State), n ∈ [1, 2, 4, 8] →
    (addr.toNat + n ≤ s.cfg.heapSize →
      ∃ v, memRead addr n s = .ok v s ∧ v.toNat = littleEndian s.mem addr.toNat n) ∧
    (s.cfg.heapSize < addr.toNat + n → memRead addr n s = .fault .memUndefined s)

/-- After a write of n bytes, a read of m <= n bytes at the same address gives the value modulo
2^(8m); after two one-byte writes side by side, a two-byte read combines them. (R63, R64, R66) -/
def Obligations.WriteThenReadAtMixedWidths : Prop :=
  ∀ (n k : Nat) (addr v x y : Word) (s : State), n ∈ [1, 2, 4, 8] → k ∈ [1, 2, 4, 8] → k ≤ n →
    s.cfg.Valid → s.MemoryOk → addr.toNat + n ≤ s.cfg.heapSize → addr.toNat + 2 ≤ s.cfg.heapSize →
    (∃ t, memWrite addr n v s = .ok () t ∧
      memRead addr k t = .ok (BitVec.ofNat 64 (v.toNat % 2 ^ (8 * k))) t) ∧
    (∃ t u, memWrite addr 1 x s = .ok () t ∧ memWrite (addr + 1) 1 y t = .ok () u ∧
      memRead addr 2 u = .ok (BitVec.ofNat 64 (x.toNat % 256 + 256 * (y.toNat % 256))) u)

/-- For a register index below 64: register_integer reads I[i], register_float reads f2u of F[i];
increment and decrement register modes adjust I[i] by 1 modulo 2^64, pre modes giving the new
value and post modes the old; sp, pc, fr, sr read those registers; constants read their payload, a
float constant through f2u; nothing else is adjusted. (R150, R152, R153, R154, R155, R156) -/
def Obligations.ResolveGivesEachModesValue : Prop :=
  ∀ (z : OperandSize) (i : Byte) (j : Fin 64) (p : Word) (s : State), z ≠ .none → i.toNat = j.val →
    resolveInt z (.reg .registerInteger i) s = .ok (s.getI j) s ∧
    resolveInt z (.reg .registerFloat i) s = .ok (f2u (s.getF j)) s ∧
    resolveInt z (.reg .incrementRegisterPre i) s = .ok (s.getI j + 1) (s.setI j (s.getI j + 1)) ∧
    resolveInt z (.reg .incrementRegisterPost i) s = .ok (s.getI j) (s.setI j (s.getI j + 1)) ∧
    resolveInt z (.reg .decrementRegisterPre i) s = .ok (s.getI j - 1) (s.setI j (s.getI j - 1)) ∧
    resolveInt z (.reg .decrementRegisterPost i) s = .ok (s.getI j) (s.setI j (s.getI j - 1)) ∧
    (∀ x, resolveInt z (.special .registerSp x) s = .ok s.sp s ∧
      resolveInt z (.special .registerPc x) s = .ok s.pc s ∧
      resolveInt z (.special .registerFlags x) s = .ok s.fr s ∧
      resolveInt z (.special .registerStatus x) s = .ok s.sr s ∧
      resolveInt z (.const .constantFloat x p) s = .ok (f2u p) s) ∧
    (∀ m x, m ≠ .constantFloat → resolveInt z (.const m x p) s = .ok p s) ∧
    resolveFloat z (.reg .registerFloat i) s = .ok (s.getF j) s ∧
    (∀ x, resolveFloat z (.const .constantFloat x p) s = .ok p s) ∧
    (∀ m x, m ≠ .constantFloat → resolveFloat z (.const m x p) s = .ok (u2f p) s) ∧
    (∀ m, m ≠ .registerFloat → resolveFloat z (.reg m i) s = .fault .b005Kind s) ∧
    (∀ m x, resolveFloat z (.special m x) s = .fault .b005Kind s)

/-- For a register index below 64: the I modes, increment and decrement included, write I[i] (a float
through f2u) without adjusting; register_float writes F[i] (an integer through u2f); special modes
write sp, pc, fr, sr from an integer and raise B009 for a float; constants raise B006; size none
raises B005. (That the integer 0 becomes +0.0 in a float register, and not -0.0, is the model's
choice, log entry 19; no cited rule states it.) (R151, R157, R158, R159, R162) -/
def Obligations.AssignWritesEachMode : Prop :=
  ∀ (z : OperandSize) (i : Byte) (j : Fin 64) (p u x : Word) (v : Value) (s : State), z ≠ .none →
    i.toNat = j.val →
    (∀ m, m ≠ .registerFloat →
      assign z (.reg m i) (.int u) s = .ok () (s.setI j u) ∧
      assign z (.reg m i) (.float x) s = .ok () (s.setI j (f2u x))) ∧
    assign z (.reg .registerFloat i) (.int u) s = .ok () (s.setF j (u2f u)) ∧
    assign z (.reg .registerFloat i) (.int 0) s = .ok () (s.setF j 0) ∧
    assign z (.reg .registerFloat i) (.float x) s = .ok () (s.setF j x) ∧
    (∀ n, assign z (.special .registerSp n) (.int u) s = .ok () (s.setSp u) ∧
      assign z (.special .registerPc n) (.int u) s = .ok () (s.setPc u) ∧
      assign z (.special .registerFlags n) (.int u) s = .ok () (s.setFr u) ∧
      assign z (.special .registerStatus n) (.int u) s = .ok () (s.setSr u)) ∧
    (∀ m n, assign z (.special m n) (.float x) s = .fault .b009 s) ∧
    (∀ m n, assign z (.const m n p) v s = .fault .b006 s) ∧
    (∀ op, assign .none op v s = .fault .b005Size s)

/-- u2f of u is a finite f64, without the sign bit if u is not 0; no finite non-negative f64 is nearer
to u; where another is as near, the one given has an even significand; and for u below 2^53 its
value is u. Nothing is said of the sign of the zero that 0 gives, which R160 leaves open (log
entry 19). (R160) -/
def Obligations.IntegerToFloatIsNearest : Prop :=
  ∀ (u : Word),
    f64Finite (u2f u) = true ∧ (u.toNat ≠ 0 → f64Sign (u2f u) = false) ∧
    (u.toNat < 2 ^ 53 → f64Scaled (u2f u) = scaledNat u.toNat) ∧
    (∀ x, f64Finite x = true → f64Sign x = false →
      ((f64Scaled (u2f u) : Int) - scaledNat u.toNat).natAbs ≤
        ((f64Scaled x : Int) - scaledNat u.toNat).natAbs ∧
      (((f64Scaled (u2f u) : Int) - scaledNat u.toNat).natAbs =
        ((f64Scaled x : Int) - scaledNat u.toNat).natAbs → x ≠ u2f u →
        f64Significand (u2f u) % 2 = 0))

/-- A finite x with truncation in 0 .. 2^64-1 converts to that truncation: for x >= 0 below 2^64 its
floor, for x in (-1, -0] zero; a NaN, an infinity, x <= -1 and x >= 2^64 convert to F2U_OOR(x), of
which nothing is said. (R161) -/
def Obligations.FloatToIntegerTruncates : Prop :=
  ∀ (x : Word),
    (f64Finite x = true → f64Sign x = false → f64Scaled x < scaledNat (2 ^ 64) →
      scaledNat (f2u x).toNat ≤ f64Scaled x ∧ f64Scaled x < scaledNat ((f2u x).toNat + 1)) ∧
    (f64Finite x = true → f64Sign x = true → f64Scaled x < scaledNat 1 → f2u x = 0) ∧
    (f64Finite x = false ∨ (f64Sign x = true ∧ scaledNat 1 ≤ f64Scaled x) ∨
      (f64Sign x = false ∧ scaledNat (2 ^ 64) ≤ f64Scaled x) → f2u x = Config.f2uOor x)

/-- With usable operands and the access in bounds, load completes: it reads base and offset in order,
adds them modulo 2^64, reads 8 bytes (or the width of the size under SIZED_MEMORY) zero-extended,
and writes the target last. (R63, R165, R181) -/
def Obligations.LoadReadsMemory : Prop :=
  ∀ (z : OperandSize) (t a b : Operand) (s : State), Writable z t → Usable z a → Usable z b →
    ((intValue a s).toNat + accessBytes z s ≤ s.cfg.heapSize →
      exec (.load z [t, a]) s = .next (afterWrite t (.int (BitVec.ofNat 64
        (littleEndian s.mem (intValue a s).toNat (accessBytes z s)))) (afterRead a s))) ∧
    ((intValue a s + secondValue a b s).toNat + accessBytes z s ≤ s.cfg.heapSize →
      exec (.load z [t, a, b]) s = .next (afterWrite t (.int (BitVec.ofNat 64
        (littleEndian s.mem (intValue a s + secondValue a b s).toNat (accessBytes z s))))
        (afterTwoReads a b s))) ∧
    accessBytes z s = (if s.cfg.sizedMemory then width z / 8 else 8)

/-- With usable operands and the access in bounds, store completes: value, base and offset are read in
order; byte k of the value lands at the effective address + k; every other byte and, the reads
apart, every register stays. (R64, R165, R182) -/
def Obligations.StoreWritesMemory : Prop :=
  ∀ (z : OperandSize) (v a b : Operand) (s : State), Usable z v → Usable z a → Usable z b →
    s.MemoryOk →
    (∀ ea, ea = secondValue v a s → ea.toNat + accessBytes z s ≤ s.cfg.heapSize →
      ∃ m, exec (.store z [v, a]) s = .next ((afterTwoReads v a s).setMem m) ∧
        (∀ k, k < accessBytes z s →
          Memory.read m (ea.toNat + k) = (intValue v s >>> (8 * k)).setWidth 8) ∧
        (∀ x, x < ea.toNat ∨ ea.toNat + accessBytes z s ≤ x →
          Memory.read m x = Memory.read s.mem x)) ∧
    (∀ ea, ea = secondValue v a s + secondValue a b (afterRead v s) →
      ea.toNat + accessBytes z s ≤ s.cfg.heapSize →
      ∃ m, exec (.store z [v, a, b]) s = .next ((afterTwoReads a b (afterRead v s)).setMem m) ∧
        (∀ k, k < accessBytes z s →
          Memory.read m (ea.toNat + k) = (intValue v s >>> (8 * k)).setWidth 8) ∧
        (∀ x, x < ea.toNat ∨ ea.toNat + accessBytes z s ≤ x →
          Memory.read m x = Memory.read s.mem x))

/-- With a usable source and a writable target, move of an integer-kind source completes with its
integer value written; F to F copies the bits, F to I converts by f2u, I to F by u2f. (R164, R183) -/
def Obligations.MoveCopiesItsSource : Prop :=
  ∀ (z : OperandSize) (a t : Operand) (i k : Byte) (f g : Fin 64) (p : Word) (s : State),
    z ≠ .none → a.wellFormed = true → t.wellFormed = true → t.isConst = false →
    i.toNat = f.val → k.toNat = g.val →
    (isFloatSource a = false →
      exec (.move z [a, t]) s = .next (afterWrite t (.int (intValue a s)) (afterRead a s))) ∧
    exec (.move z [.reg .registerFloat i, .reg .registerFloat k]) s =
      .next (s.setF g (s.getF f)) ∧
    exec (.move z [.const .constantFloat i p, .reg .registerFloat k]) s = .next (s.setF g p) ∧
    (∀ m, m ≠ .registerFloat →
      exec (.move z [.reg .registerFloat i, .reg m k]) s = .next (s.setI g (f2u (s.getF f))) ∧
      exec (.move z [.const .constantFloat i p, .reg m k]) s = .next (s.setI g (f2u p))) ∧
    exec (.move z [.reg .registerInteger i, .reg .registerFloat k]) s =
      .next (s.setF g (u2f (s.getI f)))

/-- With a usable source and the slot in bounds, push completes with the 8 bytes of the value at sp -
8 and every other byte unchanged. With a writable target and the slot in bounds, pop completes
with the little-endian value at sp written after sp was raised. (R184, R185, R186) -/
def Obligations.PushStoresAndPopLoads : Prop :=
  ∀ (z : OperandSize) (v t : Operand) (s : State), s.MemoryOk → Usable z v → Writable z t →
    ((s.sp - 8).toNat + 8 ≤ s.cfg.heapSize →
      ∃ m, exec (.push z [v]) s = .next (((afterRead v s).setSp (s.sp - 8)).setMem m) ∧
        (∀ k, k < 8 → Memory.read m ((s.sp - 8).toNat + k) = (intValue v s >>> (8 * k)).setWidth 8) ∧
        (∀ x, x < (s.sp - 8).toNat ∨ (s.sp - 8).toNat + 8 ≤ x →
          Memory.read m x = Memory.read s.mem x)) ∧
    (s.sp.toNat + 8 ≤ s.cfg.heapSize →
      exec (.pop z [t]) s = .next (afterWrite t
        (.int (BitVec.ofNat 64 (littleEndian s.mem s.sp.toNat 8))) (s.setSp (s.sp + 8))))

/-- Where the host may push, the push port lowers sp by exactly 8, and the pop port that follows
returns the value pushed and raises sp by exactly 8: the state after both is the state before, but
for the memory that the push wrote. (R184, R334, R335) -/
def Obligations.HostPushThenPopReturnsTheValue : Prop :=
  ∀ (v : Word) (s : State), s.cfg.Valid → s.MemoryOk → s.status ≠ .uninitialised →
    8 ≤ s.sp.toNat → s.sp.toNat ≤ s.cfg.heapSize →
    ∃ t u, hostPush v s = .next t ∧ t.sp.toNat + 8 = s.sp.toNat ∧
      hostPop t = .next (u, v) ∧ u = { s with mem := t.mem }

/-- nop, meta and debug with at most four operands, of any mode and with any size qualifier, answer
the state they were given. (R180, R281, R282) -/
def Obligations.InertInstructionsChangeNothing : Prop :=
  ∀ (z : OperandSize) (ops : List Operand) (s : State), ops.length ≤ 4 →
    exec (.nop z ops) s = .next s ∧ exec (.metaData z ops) s = .next s ∧
    exec (.debug z ops) s = .next s

/-- With usable sources and a writable target, add, sub and mul complete: slot 1 then slot 2 are read,
and the result modulo 2^64 is written to slot 0. (R200, R201, R202) -/
def Obligations.AddSubMulWrap : Prop :=
  ∀ (z : OperandSize) (t a b : Operand) (s : State) (x y : Nat), Writable z t → Usable z a →
    Usable z b → x = (intValue a s).toNat → y = (secondValue a b s).toNat →
    exec (.add z [t, a, b]) s =
      .next (afterWrite t (.int (BitVec.ofNat 64 (x + y))) (afterTwoReads a b s)) ∧
    exec (.sub z [t, a, b]) s =
      .next (afterWrite t (.int (BitVec.ofInt 64 (x - y))) (afterTwoReads a b s)) ∧
    exec (.mul z [t, a, b]) s =
      .next (afterWrite t (.int (BitVec.ofNat 64 (x * y))) (afterTwoReads a b s))

/-- With usable sources and a writable target and a divisor that is not 0, div and mod complete with q
and r such that a = b * q + r and r < b; with divisor 0, div completes with 0. (R203, R204, R206,
R304) -/
def Obligations.DivModExact : Prop :=
  ∀ (z : OperandSize) (t a b : Operand) (s : State) (x y : Nat), Writable z t → Usable z a →
    Usable z b → x = (intValue a s).toNat → y = (secondValue a b s).toNat →
    (y ≠ 0 → ∃ q r : Word,
      exec (.div z [t, a, b]) s = .next (afterWrite t (.int q) (afterTwoReads a b s)) ∧
      exec (.mod z [t, a, b]) s = .next (afterWrite t (.int r) (afterTwoReads a b s)) ∧
      x = y * q.toNat + r.toNat ∧ r.toNat < y) ∧
    (y = 0 → exec (.div z [t, a, b]) s = .next (afterWrite t (.int 0) (afterTwoReads a b s)))

/-- With divisor 0, mod writes 0 under MOD_ZERO_POLICY = zero; under fault it ends
faulted(MOD_BY_ZERO_UNDEFINED) after the reads, writes no target and appends nothing. (R204, R303) -/
def Obligations.ModByZeroFollowsThePolicy : Prop :=
  ∀ (z : OperandSize) (t a b : Operand) (s : State), Usable z t → Usable z a → Usable z b →
    secondValue a b s = 0 →
    (s.cfg.modZeroPolicy = .zero → t.isConst = false →
      exec (.mod z [t, a, b]) s = .next (afterWrite t (.int 0) (afterTwoReads a b s))) ∧
    (s.cfg.modZeroPolicy = .fault →
      exec (.mod z [t, a, b]) s =
        .next ((afterTwoReads a b s).setStatus (.faulted .modByZeroUndefined)))

/-- With a usable source, a writable target and architected reserved opcodes, neg completes with r
below 2^w such that r plus the source is 0 modulo 2^w. (R139, R205) -/
def Obligations.NegIsTheComplementInWBits : Prop :=
  ∀ (z : OperandSize) (t a : Operand) (s : State), Writable z t → Usable z a →
    s.cfg.reservedOpMode = .architected →
    ∃ r : Word, exec (.neg z [t, a]) s = .next (afterWrite t (.int r) (afterRead a s)) ∧
      r.toNat < 2 ^ width z ∧ (r.toNat + (intValue a s).toNat) % 2 ^ width z = 0

/-- With usable operands and architected reserved opcodes, shr and shl complete; bit k of the result
is source bit k + c (shr) or k - c (shl) where both lie below w, else 0, for every 64-bit count c.
(R139, R220, R221) -/
def Obligations.ShiftsMoveBitsWithinTheWidth : Prop :=
  ∀ (z : OperandSize) (t a b : Operand) (s : State) (x : Word) (c : Nat), Writable z t → Usable z a →
    Usable z b → s.cfg.reservedOpMode = .architected → x = intValue a s →
    c = (secondValue a b s).toNat →
    ∃ r l : Word,
      exec (.shr z [t, a, b]) s = .next (afterWrite t (.int r) (afterTwoReads a b s)) ∧
      exec (.shl z [t, a, b]) s = .next (afterWrite t (.int l) (afterTwoReads a b s)) ∧
      (∀ k, r.getLsbD k = (decide (k + c < width z) && x.getLsbD (k + c))) ∧
      (∀ k, l.getLsbD k = (decide (k < width z ∧ c ≤ k) && x.getLsbD (k - c)))

/-- With usable operands and architected reserved opcodes, ror and rol complete; for k below w, bit k
of ror is source bit (k + c) mod w, bit (k + c) mod w of rol is source bit k; both results lie
below 2^w. (R139, R222, R223) -/
def Obligations.RotatesTurnBitsWithinTheWidth : Prop :=
  ∀ (z : OperandSize) (t a b : Operand) (s : State) (x : Word) (c : Nat), Writable z t → Usable z a →
    Usable z b → s.cfg.reservedOpMode = .architected → x = intValue a s →
    c = (secondValue a b s).toNat →
    ∃ r l : Word,
      exec (.ror z [t, a, b]) s = .next (afterWrite t (.int r) (afterTwoReads a b s)) ∧
      exec (.rol z [t, a, b]) s = .next (afterWrite t (.int l) (afterTwoReads a b s)) ∧
      r.toNat < 2 ^ width z ∧ l.toNat < 2 ^ width z ∧
      (∀ k, k < width z → r.getLsbD k = x.getLsbD ((k + c) % width z)) ∧
      (∀ k, k < width z → l.getLsbD ((k + c) % width z) = x.getLsbD k)

/-- With usable operands and architected reserved opcodes, and, or, xor and not complete; below w each
result bit is the operation on the source bits, from w on it is 0. (R139, R224, R225, R226, R227) -/
def Obligations.BitwiseResultsPerBit : Prop :=
  ∀ (z : OperandSize) (t a b : Operand) (s : State) (x y : Word), Writable z t → Usable z a →
    Usable z b → s.cfg.reservedOpMode = .architected → x = intValue a s → y = secondValue a b s →
    ∃ c d e n : Word,
      exec (.and z [t, a, b]) s = .next (afterWrite t (.int c) (afterTwoReads a b s)) ∧
      exec (.or z [t, a, b]) s = .next (afterWrite t (.int d) (afterTwoReads a b s)) ∧
      exec (.xor z [t, a, b]) s = .next (afterWrite t (.int e) (afterTwoReads a b s)) ∧
      exec (.not z [t, a]) s = .next (afterWrite t (.int n) (afterRead a s)) ∧
      ∀ k, c.getLsbD k = (decide (k < width z) && (x.getLsbD k && y.getLsbD k)) ∧
        d.getLsbD k = (decide (k < width z) && (x.getLsbD k || y.getLsbD k)) ∧
        e.getLsbD k = (decide (k < width z) && (x.getLsbD k ^^ y.getLsbD k)) ∧
        n.getLsbD k = (decide (k < width z) && !x.getLsbD k)

/-- With usable operands and architected reserved opcodes, bis and bic complete; below w only bit k
differs from the source, which is 1 after bis and 0 after bic; from w on the result is 0. (R139,
R228, R229) -/
def Obligations.BitSetAndClearOneBit : Prop :=
  ∀ (z : OperandSize) (t a b : Operand) (s : State) (x : Word) (k : Nat), Writable z t → Usable z a →
    Usable z b → s.cfg.reservedOpMode = .architected → x = intValue a s →
    k = (secondValue a b s).toNat →
    ∃ d c : Word,
      exec (.bis z [t, a, b]) s = .next (afterWrite t (.int d) (afterTwoReads a b s)) ∧
      exec (.bic z [t, a, b]) s = .next (afterWrite t (.int c) (afterTwoReads a b s)) ∧
      ∀ j, d.getLsbD j = (decide (j < width z) && (x.getLsbD j || decide (j = k))) ∧
        c.getLsbD j = (decide (j < width z) && (x.getLsbD j && decide (j ≠ k)))

/-- With usable operands and architected reserved opcodes, test completes with only fr changed, the
reads apart: Z is 1 iff no bit below w is set in both, N is bit w-1 of the and, C and V are 0,
bits 4 to 63 are kept. (R37, R230) -/
def Obligations.TestSetsTheFlagsOfTheAnd : Prop :=
  ∀ (z : OperandSize) (a b : Operand) (s : State) (x y : Word), Usable z a → Usable z b →
    s.cfg.reservedOpMode = .architected → x = intValue a s → y = secondValue a b s →
    ∃ f : Word, exec (.test z [a, b]) s = .next ((afterTwoReads a b s).setFr f) ∧
      (f.getLsbD 0 = true ↔ ∀ k, k < width z → (x.getLsbD k && y.getLsbD k) = false) ∧
      f.getLsbD 1 = false ∧ f.getLsbD 2 = false ∧
      f.getLsbD 3 = (x.getLsbD (width z - 1) && y.getLsbD (width z - 1)) ∧
      ∀ k, 4 ≤ k → f.getLsbD k = s.fr.getLsbD k

/-- With usable operands and architected reserved opcodes, cmp completes with only fr changed, the
reads apart: Z iff the w-bit sources are equal, C iff the first is below the second unsigned, V
iff the signed difference does not fit in w bits, N is the sign bit of the w-bit difference, bits
4 to 63 are kept. (R37, R139, R231) -/
def Obligations.CmpSetsTheFlagsOfTheDifference : Prop :=
  ∀ (z : OperandSize) (a b : Operand) (s : State) (x y : Word), Usable z a → Usable z b →
    s.cfg.reservedOpMode = .architected → x = intValue a s → y = secondValue a b s →
    ∃ f : Word, exec (.cmp z [a, b]) s = .next ((afterTwoReads a b s).setFr f) ∧
      (f.getLsbD 0 = true ↔ x.toNat % 2 ^ width z = y.toNat % 2 ^ width z) ∧
      (f.getLsbD 1 = true ↔ x.toNat % 2 ^ width z < y.toNat % 2 ^ width z) ∧
      (f.getLsbD 2 = true ↔ signedW (width z) x - signedW (width z) y < -2 ^ (width z - 1) ∨
        2 ^ (width z - 1) ≤ signedW (width z) x - signedW (width z) y) ∧
      f.getLsbD 3 = (x - y).getLsbD (width z - 1) ∧
      ∀ k, 4 ≤ k → f.getLsbD k = s.fr.getLsbD k

/-- With a usable target and architected reserved opcodes, each branch completes: the target is read
whether or not it is taken, and the pc becomes the target exactly under the condition of R254 on
bits 0 to 2 of fr. (R254, R255, R256, R259, R260, R261, R262, R263, R264, R265, R266, R267) -/
def Obligations.BranchesFollowTheFlags : Prop :=
  ∀ (z : OperandSize) (a : Operand) (s taken : State) (zf cf vf : Bool), Usable z a →
    s.cfg.reservedOpMode = .architected → taken = (afterRead a s).setPc (intValue a s) →
    zf = s.fr.getLsbD 0 → cf = s.fr.getLsbD 1 → vf = s.fr.getLsbD 2 →
    exec (.bz z [a]) s = .next (if zf then taken else afterRead a s) ∧
    exec (.bnz z [a]) s = .next (if zf then afterRead a s else taken) ∧
    exec (.bne z [a]) s = .next (if zf then afterRead a s else taken) ∧
    exec (.beq z [a]) s = .next (if zf then taken else afterRead a s) ∧
    exec (.bae z [a]) s = .next (if cf then afterRead a s else taken) ∧
    exec (.ba z [a]) s = .next (if cf ∨ zf then afterRead a s else taken) ∧
    exec (.ble z [a]) s = .next (if cf ∨ zf then taken else afterRead a s) ∧
    exec (.bl z [a]) s = .next (if cf then taken else afterRead a s) ∧
    exec (.bo z [a]) s = .next (if vf then taken else afterRead a s) ∧
    exec (.bcc z [a]) s = .next (if cf then afterRead a s else taken) ∧
    exec (.bcs z [a]) s = .next (if cf then taken else afterRead a s)

/-- With usable operands and architected reserved opcodes, tbz and tbnz complete: tbz jumps iff bit k
of fr is 0 or k >= 64, tbnz iff k < 64 and bit k is 1; the size does not limit k. (R257, R258) -/
def Obligations.BitBranchesTestTheNamedBit : Prop :=
  ∀ (z : OperandSize) (a b : Operand) (s taken : State) (k : Nat), Usable z a → Usable z b →
    s.cfg.reservedOpMode = .architected → k = (secondValue a b s).toNat →
    taken = (afterTwoReads a b s).setPc (intValue a s) →
    exec (.tbz z [a, b]) s =
      .next (if k < 64 ∧ s.fr.getLsbD k = true then afterTwoReads a b s else taken) ∧
    exec (.tbnz z [a, b]) s =
      .next (if k < 64 ∧ s.fr.getLsbD k = true then taken else afterTwoReads a b s)

/-- Run cmp, then a branch with a constant target: beq and bz jump iff a = b in w bits, bne and bnz
iff not, bl and bcs iff a < b, ble iff a <= b, ba iff a > b, bae and bcc iff a >= b, all unsigned,
and bo iff a - b overflows as signed. (R231, R254) -/
def Obligations.CompareThenBranch : Prop :=
  ∀ (z y : OperandSize) (a b : Operand) (s t : State) (p : Word) (u v : Nat), Usable z a → Usable z b →
    y ≠ .none → s.cfg.reservedOpMode = .architected → exec (.cmp z [a, b]) s = .next t →
    u = (intValue a s).toNat % 2 ^ width z → v = (secondValue a b s).toNat % 2 ^ width z →
    exec (.beq y [.const .constantInteger 0 p]) t = .next (if u = v then t.setPc p else t) ∧
    exec (.bz y [.const .constantInteger 0 p]) t = .next (if u = v then t.setPc p else t) ∧
    exec (.bne y [.const .constantInteger 0 p]) t = .next (if u = v then t else t.setPc p) ∧
    exec (.bnz y [.const .constantInteger 0 p]) t = .next (if u = v then t else t.setPc p) ∧
    exec (.bl y [.const .constantInteger 0 p]) t = .next (if u < v then t.setPc p else t) ∧
    exec (.bcs y [.const .constantInteger 0 p]) t = .next (if u < v then t.setPc p else t) ∧
    exec (.ble y [.const .constantInteger 0 p]) t = .next (if u ≤ v then t.setPc p else t) ∧
    exec (.ba y [.const .constantInteger 0 p]) t = .next (if v < u then t.setPc p else t) ∧
    exec (.bae y [.const .constantInteger 0 p]) t = .next (if v ≤ u then t.setPc p else t) ∧
    exec (.bcc y [.const .constantInteger 0 p]) t = .next (if v ≤ u then t.setPc p else t) ∧
    exec (.bo y [.const .constantInteger 0 p]) t =
      .next (if signedW (width z) (intValue a s) - signedW (width z) (secondValue a b s) <
          -2 ^ (width z - 1) ∨
        2 ^ (width z - 1) ≤
          signedW (width z) (intValue a s) - signedW (width z) (secondValue a b s)
        then t.setPc p else t)

/-- With a usable operand, jmp completes at its value. With the slot in bounds, jsr completes: the pc
is stored at sp - 8 and no other byte changes, the operand is read in the state after the push,
the pc becomes its value. With the slot in bounds, rts completes, with any size, with the pc read
at sp and sp raised by 8. (R250, R251, R252, R253) -/
def Obligations.JumpsAndCallsSetThePc : Prop :=
  ∀ (z y : OperandSize) (a : Operand) (s : State), s.MemoryOk → Usable z a →
    exec (.jmp z [a]) s = .next ((afterRead a s).setPc (intValue a s)) ∧
    ((s.sp - 8).toNat + 8 ≤ s.cfg.heapSize →
      ∃ u : State, u = (s.setSp (s.sp - 8)).setMem u.mem ∧
        exec (.jsr z [a]) s = .next ((afterRead a u).setPc (intValue a u)) ∧
        (∀ k, k < 8 → Memory.read u.mem ((s.sp - 8).toNat + k) = (s.pc >>> (8 * k)).setWidth 8) ∧
        (∀ x, x < (s.sp - 8).toNat ∨ (s.sp - 8).toNat + 8 ≤ x →
          Memory.read u.mem x = Memory.read s.mem x)) ∧
    (s.sp.toNat + 8 ≤ s.cfg.heapSize →
      exec (.rts y []) s =
        .next ((s.setSp (s.sp + 8)).setPc (BitVec.ofNat 64 (littleEndian s.mem s.sp.toNat 8))))

/-- If jsr completes and a later state has the sp and the memory the jsr left, rts in it completes
with the pc that followed the jsr and the sp from before it. (R251, R252, R268) -/
def Obligations.CallThenReturnRestoresPcAndSp : Prop :=
  ∀ (z y : OperandSize) (a : Operand) (s t u : State), s.MemoryOk → Usable z a →
    (s.sp - 8).toNat + 8 ≤ s.cfg.heapSize → exec (.jsr z [a]) s = .next t →
    u.sp = t.sp → u.mem = t.mem → u.cfg = t.cfg →
    ∃ v, exec (.rts y []) u = .next v ∧ v.pc = s.pc ∧ v.sp = s.sp

/-- exit with no operand, of any size, completes with the halted flag 1 and every register and all
memory as before; step returns false for that state, and a further step is refused. (R40, R280) -/
def Obligations.ExitHalts : Prop :=
  ∀ (z : OperandSize) (s : State),
    ∃ t, exec (.exit z []) s = .next t ∧ t.halted = true ∧ t.continues = false ∧
      t = { s with status := .halted } ∧ ∀ u, step t ≠ .next u

/-- For every instruction, if exec answers a next state, an integer register that the target slot does
not name and that no operand adjusts is unchanged. (R31, R39, R156, R157) -/
def Obligations.IntegerRegisterFrame : Prop :=
  ∀ (i : Instr) (s t : State) (j : Fin 64), exec i s = .next t →
    (∀ op, targetOf i = some op → namesI op j = false) →
    (∀ op ∈ i.operands, adjustsI op j = false) →
    t.getI j = s.getI j

/-- For every instruction, if exec answers a next state, a float register that the target slot does
not name is unchanged; so an instruction without a target changes no float register. (R32, R39,
R157) -/
def Obligations.FloatRegisterFrame : Prop :=
  ∀ (i : Instr) (s t : State) (j : Fin 64), exec i s = .next t →
    (∀ op, targetOf i = some op → namesF op j = false) →
    t.getF j = s.getF j

/-- For every instruction other than cmp and test whose target is not register_flags, a next state has
the same fr; with a register_flags target an integer is written bit for bit; and fr is 0 after
reset. (R232) -/
def Obligations.OnlyCmpAndTestWriteFlags : Prop :=
  (∀ (i : Instr) (s t : State), exec i s = .next t → i.op ≠ .cmp → i.op ≠ .test →
    (∀ index, targetOf i ≠ some (.special .registerFlags index)) → t.fr = s.fr) ∧
  (∀ (z : OperandSize) (index : Byte) (u : Word) (s : State), z ≠ .none →
    assign z (.special .registerFlags index) (.int u) s = .ok () (s.setFr u)) ∧
  (∀ (cfg : Config) (m : Memory), (State.boot cfg m).fr = 0)

/-- For every instruction, a next state has the same sr unless the target is register_status, and the
same sp unless the target is register_sp or the instruction is push, pop, jsr or rts. (R36, R38,
R39) -/
def Obligations.StatusRegisterAndStackPointerFrame : Prop :=
  ∀ (i : Instr) (s t : State), exec i s = .next t →
    ((∀ index, targetOf i ≠ some (.special .registerStatus index)) → t.sr = s.sr) ∧
    ((∀ index, targetOf i ≠ some (.special .registerSp index)) →
      i.op ∉ [Op.push, .pop, .jsr, .rts] → t.sp = s.sp)

/-- For every instruction that is no control transfer and has no register_pc target, a next state of
exec has the pc it was given, the address of the next instruction. (R34, R137) -/
def Obligations.ProgramCounterFrame : Prop :=
  ∀ (i : Instr) (s t : State), exec i s = .next t →
    (∀ index, targetOf i ≠ some (.special .registerPc index)) →
    i.op ∉ [Op.jsr, .rts, .jmp, .bz, .bnz, .tbz, .tbnz, .bne, .beq, .bae, .ba, .ble, .bl, .bo, .bcc,
      .bcs] → t.pc = s.pc

/-- For every instruction and next state, every address outside the bytes that storedBytes computes
(the effective address of a store, the slot below sp of push and jsr; none for every other
instruction) reads as before. (R61, R64, R182, R184) -/
def Obligations.MemoryFrame : Prop :=
  ∀ (i : Instr) (s t : State) (x : Nat), exec i s = .next t →
    (∀ a n, storedBytes i s = some (a, n) → x < a ∨ a + n ≤ x) →
    Memory.read t.mem x = Memory.read s.mem x

/-- Replace the sink of a state by any records: the step answers the same outcome, with the same
records appended, to the replaced sink instead. (R43) -/
def Obligations.SinkIsNeverRead : Prop :=
  ∀ (s : State) (l : List Diagnostic),
    match step s with
    | .next t => ∃ added, t.sink = s.sink ++ added ∧
        step { s with sink := l } = .next { t with sink := l ++ added }
    | .fault f => step { s with sink := l } = .fault f
    | .refused r => step { s with sink := l } = .refused r

/-- Take an 8-byte store, with or without an offset, whose effective address is the pc, or a push
whose slot is at the pc, with usable operands and 8 bytes left there. It completes, leaves the pc,
and the first 8 bytes that the next fetch reads are the bytes of the stored value. (R76, R337) -/
def Obligations.StoredBytesAreFetched : Prop :=
  ∀ (z : OperandSize) (v a b : Operand) (s : State), Usable z v → Usable z a → Usable z b →
    s.MemoryOk → s.pc.toNat + 8 ≤ s.cfg.heapSize →
    (accessBytes z s = 8 → secondValue v a s = s.pc →
      ∃ t, exec (.store z [v, a]) s = .next t ∧ t.pc = s.pc ∧
        (fetchWindow t).take 8 = leBytes 8 (intValue v s).toNat) ∧
    (accessBytes z s = 8 → secondValue v a s + secondValue a b (afterRead v s) = s.pc →
      ∃ t, exec (.store z [v, a, b]) s = .next t ∧ t.pc = s.pc ∧
        (fetchWindow t).take 8 = leBytes 8 (intValue v s).toNat) ∧
    (s.sp - 8 = s.pc →
      ∃ t, exec (.push z [v]) s = .next t ∧ t.pc = s.pc ∧
        (fetchWindow t).take 8 = leBytes 8 (intValue v s).toNat)

/-- State.reset has a HEAP_SIZE in range, injective number tables, a canonical memory inside the heap
and no unrecorded fault. (HEAP_SIZE, the memory contents and the number tables of State.reset are
the model's choices, log entries 1, 2 and 4.) (R6, R45, R60) -/
def Obligations.ResetStateHasTheInvariant : Prop :=
  State.reset.Inv

/-- For every state with the invariant, whether or not a run reaches it, a step that answers a next
state leads to a state with the invariant, with the same launch parameters. (R6, R60, R65, R301) -/
def Obligations.StepKeepsTheInvariant : Prop :=
  ∀ (s t : State), s.Inv → step s = .next t → t.Inv ∧ t.cfg = s.cfg

/-- The reset port is refused before initialisation; otherwise it answers a state with I and F
registers 0, pc, fr and sr 0, sp = HEAP_SIZE, halted flag 0, status running, and the same memory.
(R45, R332) -/
def Obligations.ResetSetsTheSpecsValues : Prop :=
  ∀ (s : State),
    (s.status = .uninitialised → hostReset s = .refused .uninitialised) ∧
    (s.status ≠ .uninitialised → ∃ t, hostReset s = .next t ∧
      (∀ j, t.getI j = 0 ∧ t.getF j = 0) ∧ t.pc = 0 ∧ t.fr = 0 ∧ t.sr = 0 ∧
      t.sp = BitVec.ofNat 64 s.cfg.heapSize ∧ t.halted = false ∧ t.status = .running ∧
      t.mem = s.mem ∧ t.cfg = s.cfg)

/-- After initialisation, encode at an address that is no multiple of 8 returns 0 and appends B003; at
an aligned address with more than four operands it returns 0 and appends S002; memory, registers
and the status are unchanged in both. (R102, R103) -/
def Obligations.EncodePortGuards : Prop :=
  ∀ (s : State) (addr : Word) (i : Instr), s.status ≠ .uninitialised →
    (addr.toNat % 8 ≠ 0 → hostEncode addr i s = .next ({ s with sink := s.sink ++
      [⟨"B003", "instructions must be encoded on 8-byte boundaries", true⟩] }, 0)) ∧
    (addr.toNat % 8 = 0 → i.operands.length > 4 → hostEncode addr i s = .next ({ s with sink :=
      s.sink ++ [⟨"S002", "operand count exceeds 4", true⟩] }, 0))

/-- encode, push, pop, reset and the initialising port (given a canonical memory inside the heap) lead
from a state whose memory is well formed to one whose memory is. (R60, R64, R334, R335) -/
def Obligations.HostPortsKeepTheMemoryForm : Prop :=
  ∀ (s t : State) (addr v : Word) (i : Instr) (n : Nat) (m : Memory), s.MemoryOk →
    Memory.wf m = true → Memory.below m s.cfg.heapSize = true →
    (hostEncode addr i s = .next (t, n) → t.MemoryOk ∧ t.cfg = s.cfg) ∧
    (hostPush v s = .next t → t.MemoryOk ∧ t.cfg = s.cfg) ∧
    (hostPop s = .next (t, v) → t.MemoryOk ∧ t.cfg = s.cfg) ∧
    (hostReset s = .next t → t.MemoryOk ∧ t.cfg = s.cfg) ∧
    (hostInitialise m s = .next t → t.MemoryOk ∧ t.cfg = s.cfg)
end

