-- ==== Sys2Proof/Laws/Memory.lean ====
section
/-! SUPPORT. The laws of memory: what a read sees after a write, that every write keeps the canonical
form and stays below the heap size, and the same for runs of bytes. -/

namespace Sys2Proof.Machine

/-! ### One byte -/

/-- A write leaves every other address as it was, whatever the list. -/
theorem Memory.read_write_other (m : Memory) (a x : Nat) (b : Byte) (h : x ≠ a) :
    Memory.read (Memory.write m a b) x = Memory.read m x := by
  induction m with
  | nil => unfold Memory.write; split <;> simp [Memory.read, h]
  | cons c rest ih =>
    obtain ⟨k, v⟩ := c
    unfold Memory.write
    split
    · split <;> simp [Memory.read, h]
    · split
      · subst_vars; split <;> simp [Memory.read, h]
      · simp [Memory.read, ih]

/-- Below the first address the form allows, nothing is listed. -/
theorem Memory.read_of_canonicalFrom (m : Memory) (low a : Nat)
    (hm : Memory.canonicalFrom m low = true) (h : a < low) : Memory.read m a = unlistedByte := by
  induction m generalizing low with
  | nil => rfl
  | cons c rest ih =>
    obtain ⟨k, v⟩ := c
    simp only [Memory.canonicalFrom, Bool.and_eq_true, decide_eq_true_eq] at hm
    have hk : a ≠ k := by omega
    simp only [Memory.read, hk, if_false]
    exact ih (k + 1) hm.2 (by omega)

/-- A canonical memory reads back what was written. -/
theorem Memory.read_write_same_from (m : Memory) (low a : Nat) (b : Byte)
    (hm : Memory.canonicalFrom m low = true) : Memory.read (Memory.write m a b) a = b := by
  induction m generalizing low with
  | nil => unfold Memory.write; split <;> simp_all [Memory.read]
  | cons c rest ih =>
    obtain ⟨k, v⟩ := c
    have hm' := hm
    simp only [Memory.canonicalFrom, Bool.and_eq_true, decide_eq_true_eq] at hm
    unfold Memory.write
    split
    · split
      · have hk : a ≠ k := by omega
        simp only [Memory.read, hk, if_false]
        rw [Memory.read_of_canonicalFrom rest (k + 1) a hm.2 (by omega)]
        simp_all
      · simp [Memory.read]
    · split
      · split
        · rw [Memory.read_of_canonicalFrom rest (k + 1) a hm.2 (by omega)]
          simp_all
        · simp [Memory.read]
      · rename_i h1 h2
        simp only [Memory.read, h2, if_false]
        exact ih (k + 1) hm.2

theorem Memory.read_write_same (m : Memory) (a : Nat) (b : Byte) (hm : Memory.wf m = true) :
    Memory.read (Memory.write m a b) a = b := Memory.read_write_same_from m 0 a b hm

/-- The form from an address on is the form from any lower address on. -/
theorem Memory.canonicalFrom_mono (m : Memory) (low low' : Nat) (h : low' ≤ low)
    (hm : Memory.canonicalFrom m low = true) : Memory.canonicalFrom m low' = true := by
  cases m with
  | nil => rfl
  | cons c rest =>
    simp only [Memory.canonicalFrom, Bool.and_eq_true, decide_eq_true_eq] at hm ⊢
    exact ⟨⟨by omega, hm.1.2⟩, hm.2⟩

/-- A write keeps the canonical form. -/
theorem Memory.write_canonicalFrom (m : Memory) (low a : Nat) (b : Byte)
    (hm : Memory.canonicalFrom m low = true) (h : low ≤ a) :
    Memory.canonicalFrom (Memory.write m a b) low = true := by
  induction m generalizing low with
  | nil => unfold Memory.write; split <;> simp_all [Memory.canonicalFrom]
  | cons c rest ih =>
    obtain ⟨k, v⟩ := c
    have hm' := hm
    simp only [Memory.canonicalFrom, Bool.and_eq_true, decide_eq_true_eq] at hm
    unfold Memory.write
    split
    · split
      · exact hm'
      · simp only [Memory.canonicalFrom, Bool.and_eq_true, decide_eq_true_eq]
        exact ⟨⟨h, ‹_›⟩, ⟨by omega, hm.1.2⟩, hm.2⟩
    · split
      · split
        · exact Memory.canonicalFrom_mono rest (k + 1) low (by omega) hm.2
        · simp only [Memory.canonicalFrom, Bool.and_eq_true, decide_eq_true_eq]
          exact ⟨⟨h, ‹_›⟩, by simp_all⟩
      · simp only [Memory.canonicalFrom, Bool.and_eq_true, decide_eq_true_eq]
        exact ⟨hm.1, ih (k + 1) hm.2 (by omega)⟩

theorem Memory.write_wf (m : Memory) (a : Nat) (b : Byte) (hm : Memory.wf m = true) :
    Memory.wf (Memory.write m a b) = true := Memory.write_canonicalFrom m 0 a b hm (Nat.zero_le _)

@[simp] theorem Memory.below_nil (size : Nat) : Memory.below [] size = true := rfl

theorem Memory.below_cons (k : Nat) (v : Byte) (rest : Memory) (size : Nat) :
    Memory.below ((k, v) :: rest) size = true ↔ k < size ∧ Memory.below rest size = true := by
  simp [Memory.below]

/-- A write below a bound keeps every listed address below it. -/
theorem Memory.write_below (m : Memory) (a : Nat) (b : Byte) (size : Nat)
    (hm : Memory.below m size = true) (h : a < size) :
    Memory.below (Memory.write m a b) size = true := by
  induction m with
  | nil =>
    unfold Memory.write
    split
    · rfl
    · exact (Memory.below_cons ..).2 ⟨h, rfl⟩
  | cons c rest ih =>
    obtain ⟨k, v⟩ := c
    have hc := (Memory.below_cons ..).1 hm
    unfold Memory.write
    split
    · split
      · exact hm
      · exact (Memory.below_cons ..).2 ⟨h, hm⟩
    · split
      · split
        · exact hc.2
        · exact (Memory.below_cons ..).2 ⟨h, hc.2⟩
      · exact (Memory.below_cons ..).2 ⟨hc.1, ih hc.2⟩

/-! ### Runs of bytes -/

@[simp] theorem leBytes_length (n v : Nat) : (leBytes n v).length = n := by
  induction n generalizing v with
  | zero => rfl
  | succ n ih => simp [leBytes, ih]

@[simp] theorem Memory.bytes_length (m : Memory) (a n : Nat) :
    (Memory.bytes m a n).length = n := by
  induction n generalizing a with
  | zero => rfl
  | succ n ih => simp [Memory.bytes, ih]

theorem leNat_leBytes (n v : Nat) : leNat (leBytes n v) = v % 256 ^ n := by
  induction n generalizing v with
  | zero => simp [leBytes, leNat, Nat.mod_one]
  | succ n ih =>
    simp only [leBytes, leNat, ih, BitVec.toNat_ofNat]
    rw [show (256 : Nat) ^ (n + 1) = 256 * 256 ^ n from by rw [Nat.pow_succ, Nat.mul_comm],
      Nat.mod_mul]

theorem leNat_lt (l : List Byte) : leNat l < 256 ^ l.length := by
  induction l with
  | nil => simp [leNat]
  | cons b rest ih =>
    have hb := b.isLt
    simp only [leNat, List.length_cons, Nat.pow_succ]
    omega

/-- A run of bytes leaves every address outside it as it was. -/
theorem Memory.read_writeBytes_other (m : Memory) (a x : Nat) (l : List Byte)
    (h : x < a ∨ a + l.length ≤ x) :
    Memory.read (Memory.writeBytes m a l) x = Memory.read m x := by
  induction l generalizing m a with
  | nil => rfl
  | cons b rest ih =>
    simp only [List.length_cons] at h
    rw [Memory.writeBytes, ih _ _ (by omega), Memory.read_write_other _ _ _ _ (by omega)]

theorem Memory.writeBytes_wf (m : Memory) (a : Nat) (l : List Byte) (hm : Memory.wf m = true) :
    Memory.wf (Memory.writeBytes m a l) = true := by
  induction l generalizing m a with
  | nil => exact hm
  | cons b rest ih => exact ih _ _ (Memory.write_wf m a b hm)

theorem Memory.writeBytes_below (m : Memory) (a : Nat) (l : List Byte) (size : Nat)
    (hm : Memory.below m size = true) (h : a + l.length ≤ size) :
    Memory.below (Memory.writeBytes m a l) size = true := by
  induction l generalizing m a with
  | nil => exact hm
  | cons b rest ih =>
    simp only [List.length_cons] at h
    exact ih _ _ (Memory.write_below m a b size hm (by omega)) (by omega)

/-- A canonical memory reads back a run of bytes, byte by byte. -/
theorem Memory.read_writeBytes_same (m : Memory) (a : Nat) (l : List Byte) (i : Nat)
    (hi : i < l.length) (hm : Memory.wf m = true) :
    Memory.read (Memory.writeBytes m a l) (a + i) = l[i] := by
  induction l generalizing m a i with
  | nil => simp at hi
  | cons b rest ih =>
    cases i with
    | zero =>
      rw [Memory.writeBytes, Memory.read_writeBytes_other _ _ _ _ (by omega)]
      exact Memory.read_write_same m a b hm
    | succ i =>
      have := ih (Memory.write m a b) (a + 1) i (by simpa using hi) (Memory.write_wf m a b hm)
      simpa [Memory.writeBytes, Nat.add_assoc, Nat.add_comm 1 i] using this

theorem Memory.bytes_getElem (m : Memory) (a n i : Nat) (h : i < (Memory.bytes m a n).length) :
    (Memory.bytes m a n)[i] = Memory.read m (a + i) := by
  induction n generalizing a i with
  | zero => simp [Memory.bytes] at h
  | succ n ih =>
    cases i with
    | zero => simp [Memory.bytes]
    | succ i =>
      simp only [Memory.bytes, List.getElem_cons_succ]
      rw [ih]; congr 1; omega

/-- A canonical memory reads back a run of bytes. -/
theorem Memory.bytes_writeBytes_same (m : Memory) (a : Nat) (l : List Byte)
    (hm : Memory.wf m = true) :
    Memory.bytes (Memory.writeBytes m a l) a l.length = l := by
  apply List.ext_getElem (by simp)
  intro i h1 h2
  rw [Memory.bytes_getElem, Memory.read_writeBytes_same m a l i h2 hm]

/-- Bytes outside a run are read as before. -/
theorem Memory.bytes_writeBytes_other (m : Memory) (a x n : Nat) (l : List Byte)
    (h : x + n ≤ a ∨ a + l.length ≤ x) :
    Memory.bytes (Memory.writeBytes m a l) x n = Memory.bytes m x n := by
  apply List.ext_getElem (by simp)
  intro i h1 h2
  simp only [Memory.bytes_length] at h1
  rw [Memory.bytes_getElem, Memory.bytes_getElem,
    Memory.read_writeBytes_other _ _ _ _ (by omega)]

end Sys2Proof.Machine
end

