-- ==== Sys2Proof/Laws/State.lean ====
section
/-! SUPPORT. One lemma per field of State for every update, all true by `rfl`, so that no proof unfolds
a record update, and the read-after-write laws of the two register banks. -/

namespace Sys2Proof.Machine

/-! ### `setI` -/

@[simp] theorem State.setI_iregs (s : State) (i : Fin 64) (v : Word) : (s.setI i v).iregs = s.iregs.set i v := rfl
@[simp] theorem State.setI_fregs (s : State) (i : Fin 64) (v : Word) : (s.setI i v).fregs = s.fregs := rfl
@[simp] theorem State.setI_pc (s : State) (i : Fin 64) (v : Word) : (s.setI i v).pc = s.pc := rfl
@[simp] theorem State.setI_sp (s : State) (i : Fin 64) (v : Word) : (s.setI i v).sp = s.sp := rfl
@[simp] theorem State.setI_fr (s : State) (i : Fin 64) (v : Word) : (s.setI i v).fr = s.fr := rfl
@[simp] theorem State.setI_sr (s : State) (i : Fin 64) (v : Word) : (s.setI i v).sr = s.sr := rfl
@[simp] theorem State.setI_status (s : State) (i : Fin 64) (v : Word) : (s.setI i v).status = s.status := rfl
@[simp] theorem State.setI_mem (s : State) (i : Fin 64) (v : Word) : (s.setI i v).mem = s.mem := rfl
@[simp] theorem State.setI_sink (s : State) (i : Fin 64) (v : Word) : (s.setI i v).sink = s.sink := rfl
@[simp] theorem State.setI_cfg (s : State) (i : Fin 64) (v : Word) : (s.setI i v).cfg = s.cfg := rfl

/-! ### `setF` -/

@[simp] theorem State.setF_iregs (s : State) (i : Fin 64) (v : Word) : (s.setF i v).iregs = s.iregs := rfl
@[simp] theorem State.setF_fregs (s : State) (i : Fin 64) (v : Word) : (s.setF i v).fregs = s.fregs.set i v := rfl
@[simp] theorem State.setF_pc (s : State) (i : Fin 64) (v : Word) : (s.setF i v).pc = s.pc := rfl
@[simp] theorem State.setF_sp (s : State) (i : Fin 64) (v : Word) : (s.setF i v).sp = s.sp := rfl
@[simp] theorem State.setF_fr (s : State) (i : Fin 64) (v : Word) : (s.setF i v).fr = s.fr := rfl
@[simp] theorem State.setF_sr (s : State) (i : Fin 64) (v : Word) : (s.setF i v).sr = s.sr := rfl
@[simp] theorem State.setF_status (s : State) (i : Fin 64) (v : Word) : (s.setF i v).status = s.status := rfl
@[simp] theorem State.setF_mem (s : State) (i : Fin 64) (v : Word) : (s.setF i v).mem = s.mem := rfl
@[simp] theorem State.setF_sink (s : State) (i : Fin 64) (v : Word) : (s.setF i v).sink = s.sink := rfl
@[simp] theorem State.setF_cfg (s : State) (i : Fin 64) (v : Word) : (s.setF i v).cfg = s.cfg := rfl

/-! ### `setPc` -/

@[simp] theorem State.setPc_iregs (s : State) (v : Word) : (s.setPc v).iregs = s.iregs := rfl
@[simp] theorem State.setPc_fregs (s : State) (v : Word) : (s.setPc v).fregs = s.fregs := rfl
@[simp] theorem State.setPc_pc (s : State) (v : Word) : (s.setPc v).pc = v := rfl
@[simp] theorem State.setPc_sp (s : State) (v : Word) : (s.setPc v).sp = s.sp := rfl
@[simp] theorem State.setPc_fr (s : State) (v : Word) : (s.setPc v).fr = s.fr := rfl
@[simp] theorem State.setPc_sr (s : State) (v : Word) : (s.setPc v).sr = s.sr := rfl
@[simp] theorem State.setPc_status (s : State) (v : Word) : (s.setPc v).status = s.status := rfl
@[simp] theorem State.setPc_mem (s : State) (v : Word) : (s.setPc v).mem = s.mem := rfl
@[simp] theorem State.setPc_sink (s : State) (v : Word) : (s.setPc v).sink = s.sink := rfl
@[simp] theorem State.setPc_cfg (s : State) (v : Word) : (s.setPc v).cfg = s.cfg := rfl

/-! ### `setSp` -/

@[simp] theorem State.setSp_iregs (s : State) (v : Word) : (s.setSp v).iregs = s.iregs := rfl
@[simp] theorem State.setSp_fregs (s : State) (v : Word) : (s.setSp v).fregs = s.fregs := rfl
@[simp] theorem State.setSp_pc (s : State) (v : Word) : (s.setSp v).pc = s.pc := rfl
@[simp] theorem State.setSp_sp (s : State) (v : Word) : (s.setSp v).sp = v := rfl
@[simp] theorem State.setSp_fr (s : State) (v : Word) : (s.setSp v).fr = s.fr := rfl
@[simp] theorem State.setSp_sr (s : State) (v : Word) : (s.setSp v).sr = s.sr := rfl
@[simp] theorem State.setSp_status (s : State) (v : Word) : (s.setSp v).status = s.status := rfl
@[simp] theorem State.setSp_mem (s : State) (v : Word) : (s.setSp v).mem = s.mem := rfl
@[simp] theorem State.setSp_sink (s : State) (v : Word) : (s.setSp v).sink = s.sink := rfl
@[simp] theorem State.setSp_cfg (s : State) (v : Word) : (s.setSp v).cfg = s.cfg := rfl

/-! ### `setFr` -/

@[simp] theorem State.setFr_iregs (s : State) (v : Word) : (s.setFr v).iregs = s.iregs := rfl
@[simp] theorem State.setFr_fregs (s : State) (v : Word) : (s.setFr v).fregs = s.fregs := rfl
@[simp] theorem State.setFr_pc (s : State) (v : Word) : (s.setFr v).pc = s.pc := rfl
@[simp] theorem State.setFr_sp (s : State) (v : Word) : (s.setFr v).sp = s.sp := rfl
@[simp] theorem State.setFr_fr (s : State) (v : Word) : (s.setFr v).fr = v := rfl
@[simp] theorem State.setFr_sr (s : State) (v : Word) : (s.setFr v).sr = s.sr := rfl
@[simp] theorem State.setFr_status (s : State) (v : Word) : (s.setFr v).status = s.status := rfl
@[simp] theorem State.setFr_mem (s : State) (v : Word) : (s.setFr v).mem = s.mem := rfl
@[simp] theorem State.setFr_sink (s : State) (v : Word) : (s.setFr v).sink = s.sink := rfl
@[simp] theorem State.setFr_cfg (s : State) (v : Word) : (s.setFr v).cfg = s.cfg := rfl

/-! ### `setSr` -/

@[simp] theorem State.setSr_iregs (s : State) (v : Word) : (s.setSr v).iregs = s.iregs := rfl
@[simp] theorem State.setSr_fregs (s : State) (v : Word) : (s.setSr v).fregs = s.fregs := rfl
@[simp] theorem State.setSr_pc (s : State) (v : Word) : (s.setSr v).pc = s.pc := rfl
@[simp] theorem State.setSr_sp (s : State) (v : Word) : (s.setSr v).sp = s.sp := rfl
@[simp] theorem State.setSr_fr (s : State) (v : Word) : (s.setSr v).fr = s.fr := rfl
@[simp] theorem State.setSr_sr (s : State) (v : Word) : (s.setSr v).sr = v := rfl
@[simp] theorem State.setSr_status (s : State) (v : Word) : (s.setSr v).status = s.status := rfl
@[simp] theorem State.setSr_mem (s : State) (v : Word) : (s.setSr v).mem = s.mem := rfl
@[simp] theorem State.setSr_sink (s : State) (v : Word) : (s.setSr v).sink = s.sink := rfl
@[simp] theorem State.setSr_cfg (s : State) (v : Word) : (s.setSr v).cfg = s.cfg := rfl

/-! ### `setMem` -/

@[simp] theorem State.setMem_iregs (s : State) (m : Memory) : (s.setMem m).iregs = s.iregs := rfl
@[simp] theorem State.setMem_fregs (s : State) (m : Memory) : (s.setMem m).fregs = s.fregs := rfl
@[simp] theorem State.setMem_pc (s : State) (m : Memory) : (s.setMem m).pc = s.pc := rfl
@[simp] theorem State.setMem_sp (s : State) (m : Memory) : (s.setMem m).sp = s.sp := rfl
@[simp] theorem State.setMem_fr (s : State) (m : Memory) : (s.setMem m).fr = s.fr := rfl
@[simp] theorem State.setMem_sr (s : State) (m : Memory) : (s.setMem m).sr = s.sr := rfl
@[simp] theorem State.setMem_status (s : State) (m : Memory) : (s.setMem m).status = s.status := rfl
@[simp] theorem State.setMem_mem (s : State) (m : Memory) : (s.setMem m).mem = m := rfl
@[simp] theorem State.setMem_sink (s : State) (m : Memory) : (s.setMem m).sink = s.sink := rfl
@[simp] theorem State.setMem_cfg (s : State) (m : Memory) : (s.setMem m).cfg = s.cfg := rfl

/-! ### `setStatus` -/

@[simp] theorem State.setStatus_iregs (s : State) (x : Status) : (s.setStatus x).iregs = s.iregs := rfl
@[simp] theorem State.setStatus_fregs (s : State) (x : Status) : (s.setStatus x).fregs = s.fregs := rfl
@[simp] theorem State.setStatus_pc (s : State) (x : Status) : (s.setStatus x).pc = s.pc := rfl
@[simp] theorem State.setStatus_sp (s : State) (x : Status) : (s.setStatus x).sp = s.sp := rfl
@[simp] theorem State.setStatus_fr (s : State) (x : Status) : (s.setStatus x).fr = s.fr := rfl
@[simp] theorem State.setStatus_sr (s : State) (x : Status) : (s.setStatus x).sr = s.sr := rfl
@[simp] theorem State.setStatus_status (s : State) (x : Status) : (s.setStatus x).status = x := rfl
@[simp] theorem State.setStatus_mem (s : State) (x : Status) : (s.setStatus x).mem = s.mem := rfl
@[simp] theorem State.setStatus_sink (s : State) (x : Status) : (s.setStatus x).sink = s.sink := rfl
@[simp] theorem State.setStatus_cfg (s : State) (x : Status) : (s.setStatus x).cfg = s.cfg := rfl

/-! ### `raise` and `report` -/

@[simp] theorem raise_iregs (c : FaultCause) (s : State) : (raise c s).iregs = s.iregs := rfl
@[simp] theorem raise_fregs (c : FaultCause) (s : State) : (raise c s).fregs = s.fregs := rfl
@[simp] theorem raise_pc (c : FaultCause) (s : State) : (raise c s).pc = s.pc := rfl
@[simp] theorem raise_sp (c : FaultCause) (s : State) : (raise c s).sp = s.sp := rfl
@[simp] theorem raise_fr (c : FaultCause) (s : State) : (raise c s).fr = s.fr := rfl
@[simp] theorem raise_sr (c : FaultCause) (s : State) : (raise c s).sr = s.sr := rfl
@[simp] theorem raise_status (c : FaultCause) (s : State) : (raise c s).status = .faulted c.code := rfl
@[simp] theorem raise_mem (c : FaultCause) (s : State) : (raise c s).mem = s.mem := rfl
@[simp] theorem raise_sink (c : FaultCause) (s : State) : (raise c s).sink = s.sink ++ c.diagnostics := rfl
@[simp] theorem raise_cfg (c : FaultCause) (s : State) : (raise c s).cfg = s.cfg := rfl

@[simp] theorem report_iregs (c : FaultCause) (s : State) : (report c s).iregs = s.iregs := rfl
@[simp] theorem report_fregs (c : FaultCause) (s : State) : (report c s).fregs = s.fregs := rfl
@[simp] theorem report_pc (c : FaultCause) (s : State) : (report c s).pc = s.pc := rfl
@[simp] theorem report_sp (c : FaultCause) (s : State) : (report c s).sp = s.sp := rfl
@[simp] theorem report_fr (c : FaultCause) (s : State) : (report c s).fr = s.fr := rfl
@[simp] theorem report_sr (c : FaultCause) (s : State) : (report c s).sr = s.sr := rfl
@[simp] theorem report_status (c : FaultCause) (s : State) : (report c s).status = s.status := rfl
@[simp] theorem report_mem (c : FaultCause) (s : State) : (report c s).mem = s.mem := rfl
@[simp] theorem report_sink (c : FaultCause) (s : State) : (report c s).sink = s.sink ++ c.diagnostics := rfl
@[simp] theorem report_cfg (c : FaultCause) (s : State) : (report c s).cfg = s.cfg := rfl

/-! ### `advance` -/

@[simp] theorem advance_iregs (s : State) (n : Nat) : (advance s n).iregs = s.iregs := rfl
@[simp] theorem advance_fregs (s : State) (n : Nat) : (advance s n).fregs = s.fregs := rfl
@[simp] theorem advance_pc (s : State) (n : Nat) : (advance s n).pc = s.pc + BitVec.ofNat 64 n := rfl
@[simp] theorem advance_sp (s : State) (n : Nat) : (advance s n).sp = s.sp := rfl
@[simp] theorem advance_fr (s : State) (n : Nat) : (advance s n).fr = s.fr := rfl
@[simp] theorem advance_sr (s : State) (n : Nat) : (advance s n).sr = s.sr := rfl
@[simp] theorem advance_status (s : State) (n : Nat) : (advance s n).status = s.status := rfl
@[simp] theorem advance_mem (s : State) (n : Nat) : (advance s n).mem = s.mem := rfl
@[simp] theorem advance_sink (s : State) (n : Nat) : (advance s n).sink = s.sink := rfl
@[simp] theorem advance_cfg (s : State) (n : Nat) : (advance s n).cfg = s.cfg := rfl

/-! ### `resetRegisters` -/

@[simp] theorem resetRegisters_iregs (s : State) : (resetRegisters s).iregs = Vector.replicate 64 0 := rfl
@[simp] theorem resetRegisters_fregs (s : State) : (resetRegisters s).fregs = Vector.replicate 64 0 := rfl
@[simp] theorem resetRegisters_pc (s : State) : (resetRegisters s).pc = 0 := rfl
@[simp] theorem resetRegisters_sp (s : State) : (resetRegisters s).sp = BitVec.ofNat 64 s.cfg.heapSize := rfl
@[simp] theorem resetRegisters_fr (s : State) : (resetRegisters s).fr = 0 := rfl
@[simp] theorem resetRegisters_sr (s : State) : (resetRegisters s).sr = 0 := rfl
@[simp] theorem resetRegisters_status (s : State) : (resetRegisters s).status = .running := rfl
@[simp] theorem resetRegisters_mem (s : State) : (resetRegisters s).mem = s.mem := rfl
@[simp] theorem resetRegisters_sink (s : State) : (resetRegisters s).sink = s.sink := rfl
@[simp] theorem resetRegisters_cfg (s : State) : (resetRegisters s).cfg = s.cfg := rfl

/-! ### The register banks -/

theorem State.getI_setI (s : State) (i j : Fin 64) (v : Word) :
    (s.setI i v).getI j = if i = j then v else s.getI j := by
  simp only [State.getI, State.setI, Fin.getElem_fin, Vector.getElem_set, Fin.ext_iff]

theorem State.getF_setF (s : State) (i j : Fin 64) (v : Word) :
    (s.setF i v).getF j = if i = j then v else s.getF j := by
  simp only [State.getF, State.setF, Fin.getElem_fin, Vector.getElem_set, Fin.ext_iff]

@[simp] theorem State.getI_setI_same (s : State) (i : Fin 64) (v : Word) :
    (s.setI i v).getI i = v := by simp [State.getI_setI]

@[simp] theorem State.getF_setF_same (s : State) (i : Fin 64) (v : Word) :
    (s.setF i v).getF i = v := by simp [State.getF_setF]

@[simp] theorem State.getF_setI (s : State) (i : Fin 64) (v : Word) (j : Fin 64) : (s.setI i v).getF j = s.getF j := rfl
@[simp] theorem State.getI_setF (s : State) (i : Fin 64) (v : Word) (j : Fin 64) : (s.setF i v).getI j = s.getI j := rfl
@[simp] theorem State.getI_setPc (s : State) (v : Word) (j : Fin 64) : (s.setPc v).getI j = s.getI j := rfl
@[simp] theorem State.getF_setPc (s : State) (v : Word) (j : Fin 64) : (s.setPc v).getF j = s.getF j := rfl
@[simp] theorem State.getI_setSp (s : State) (v : Word) (j : Fin 64) : (s.setSp v).getI j = s.getI j := rfl
@[simp] theorem State.getF_setSp (s : State) (v : Word) (j : Fin 64) : (s.setSp v).getF j = s.getF j := rfl
@[simp] theorem State.getI_setFr (s : State) (v : Word) (j : Fin 64) : (s.setFr v).getI j = s.getI j := rfl
@[simp] theorem State.getF_setFr (s : State) (v : Word) (j : Fin 64) : (s.setFr v).getF j = s.getF j := rfl
@[simp] theorem State.getI_setSr (s : State) (v : Word) (j : Fin 64) : (s.setSr v).getI j = s.getI j := rfl
@[simp] theorem State.getF_setSr (s : State) (v : Word) (j : Fin 64) : (s.setSr v).getF j = s.getF j := rfl
@[simp] theorem State.getI_setMem (s : State) (m : Memory) (j : Fin 64) : (s.setMem m).getI j = s.getI j := rfl
@[simp] theorem State.getF_setMem (s : State) (m : Memory) (j : Fin 64) : (s.setMem m).getF j = s.getF j := rfl
@[simp] theorem State.getI_setStatus (s : State) (x : Status) (j : Fin 64) : (s.setStatus x).getI j = s.getI j := rfl
@[simp] theorem State.getF_setStatus (s : State) (x : Status) (j : Fin 64) : (s.setStatus x).getF j = s.getF j := rfl
@[simp] theorem raise_getI (c : FaultCause) (s : State) (j : Fin 64) : (raise c s).getI j = s.getI j := rfl
@[simp] theorem advance_getI (s : State) (n : Nat) (j : Fin 64) : (advance s n).getI j = s.getI j := rfl
@[simp] theorem raise_getF (c : FaultCause) (s : State) (j : Fin 64) : (raise c s).getF j = s.getF j := rfl
@[simp] theorem advance_getF (s : State) (n : Nat) (j : Fin 64) : (advance s n).getF j = s.getF j := rfl

end Sys2Proof.Machine
end

