-- ==== Sys2Proof/Laws/Ops.lean ====
section
/-! SUPPORT. What each shared operation can do, said once: the conditions under which it succeeds, its
result and its fault, and what it leaves alone. -/

namespace Sys2Proof.Machine

/-! ### Results -/

@[simp] theorem Res.bind_ok {α β : Type} (v : α) (s : State) (f : α → State → Res β) :
    (Res.ok v s).bind f = f v s := rfl

@[simp] theorem Res.bind_fault {α β : Type} (c : FaultCause) (s : State) (f : α → State → Res β) :
    (Res.fault c s : Res α).bind f = .fault c s := rfl

@[simp] theorem Res.finish_ok (s : State) : (Res.ok () s).finish = .next s := rfl

@[simp] theorem Res.finish_fault (c : FaultCause) (s : State) :
    (Res.fault c s).finish = .next (raise c s) := rfl

/-- Finishing never stops the machine: a fault is a next state (60_exceptions.md R301). -/
theorem Res.finish_next (r : Res Unit) : ∃ t, r.finish = .next t := by
  cases r with
  | ok v s => exact ⟨s, rfl⟩
  | fault c s => exact ⟨raise c s, rfl⟩

@[simp] theorem reservedOp_architected (s : State) (o : Host.Outcome State Fault Refusal)
    (h : s.cfg.reservedOpMode = .architected) : reservedOp s o = o := by simp [reservedOp, h]

@[simp] theorem reservedOp_referenceNop (s : State) (o : Host.Outcome State Fault Refusal)
    (h : s.cfg.reservedOpMode = .referenceNop) : reservedOp s o = .next s := by simp [reservedOp, h]

/-! ### Operand access -/

theorem accessFault_eq_none (size : OperandSize) (op : Operand) :
    accessFault size op = none ↔ size ≠ .none ∧ op.wellFormed = true := by
  unfold accessFault
  split
  · simp_all
  · split <;> simp_all

@[simp] theorem accessFault_ok (size : OperandSize) (op : Operand) (h : size ≠ .none)
    (hw : op.wellFormed = true) : accessFault size op = none :=
  (accessFault_eq_none size op).2 ⟨h, hw⟩

@[simp] theorem accessFault_sizeNone (op : Operand) : accessFault .none op = some .b005Size := rfl

/-- What `resolveInt` does: it faults without a change, or gives the value and adjusts. -/
theorem resolveInt_cases (size : OperandSize) (op : Operand) (s : State) :
    (∃ c, accessFault size op = some c ∧ resolveInt size op s = .fault c s) ∨
    (accessFault size op = none ∧
      resolveInt size op s = .ok (intValue op s) (afterRead op s)) := by
  unfold resolveInt
  cases h : accessFault size op with
  | some c => exact .inl ⟨c, rfl, rfl⟩
  | none => exact .inr ⟨rfl, rfl⟩

theorem resolveInt_ok (size : OperandSize) (op : Operand) (s : State) (h : size ≠ .none)
    (hw : op.wellFormed = true) :
    resolveInt size op s = .ok (intValue op s) (afterRead op s) := by
  simp [resolveInt, h, hw]

theorem resolveFloat_ok (size : OperandSize) (op : Operand) (s : State) (x : Word)
    (h : size ≠ .none) (hw : op.wellFormed = true) (hx : floatValue op s = some x) :
    resolveFloat size op s = .ok x (afterRead op s) := by
  simp [resolveFloat, h, hw, hx]

/-- What `assign` does: it faults without a change, or writes. -/
theorem assign_cases (size : OperandSize) (op : Operand) (v : Value) (s : State) :
    (∃ c, targetFault size op v = some c ∧ assign size op v s = .fault c s) ∨
    (targetFault size op v = none ∧ assign size op v s = .ok () (afterWrite op v s)) := by
  unfold assign
  cases h : targetFault size op v with
  | some c => exact .inl ⟨c, rfl, rfl⟩
  | none => exact .inr ⟨rfl, rfl⟩

theorem targetFault_int (size : OperandSize) (op : Operand) (u : Word) (h : size ≠ .none)
    (hw : op.wellFormed = true) (hc : op.isConst = false) :
    targetFault size op (.int u) = none := by
  cases op <;> simp_all [targetFault, Operand.isConst]

theorem targetFault_const (size : OperandSize) (op : Operand) (v : Value) (h : size ≠ .none)
    (hc : op.isConst = true) : targetFault size op v = some .b006 := by
  cases op with
  | reg m i => simp [Operand.isConst] at hc
  | special m i => simp [Operand.isConst] at hc
  | const m i p => simp [targetFault, accessFault_ok size (.const m i p) h rfl]

theorem assign_int_ok (size : OperandSize) (op : Operand) (u : Word) (s : State) (h : size ≠ .none)
    (hw : op.wellFormed = true) (hc : op.isConst = false) :
    assign size op (.int u) s = .ok () (afterWrite op (.int u) s) := by
  simp [assign, targetFault_int size op u h hw hc]

/-! ### What reading and writing an operand leave alone -/

@[simp] theorem afterRead_fregs (op : Operand) (s : State) : (afterRead op s).fregs = s.fregs := by
  rcases op with ⟨m, i⟩ | ⟨m, i⟩ | ⟨m, i, p⟩ <;> cases m <;> rfl

@[simp] theorem afterRead_pc (op : Operand) (s : State) : (afterRead op s).pc = s.pc := by
  rcases op with ⟨m, i⟩ | ⟨m, i⟩ | ⟨m, i, p⟩ <;> cases m <;> rfl

@[simp] theorem afterRead_sp (op : Operand) (s : State) : (afterRead op s).sp = s.sp := by
  rcases op with ⟨m, i⟩ | ⟨m, i⟩ | ⟨m, i, p⟩ <;> cases m <;> rfl

@[simp] theorem afterRead_fr (op : Operand) (s : State) : (afterRead op s).fr = s.fr := by
  rcases op with ⟨m, i⟩ | ⟨m, i⟩ | ⟨m, i, p⟩ <;> cases m <;> rfl

@[simp] theorem afterRead_sr (op : Operand) (s : State) : (afterRead op s).sr = s.sr := by
  rcases op with ⟨m, i⟩ | ⟨m, i⟩ | ⟨m, i, p⟩ <;> cases m <;> rfl

@[simp] theorem afterRead_status (op : Operand) (s : State) : (afterRead op s).status = s.status := by
  rcases op with ⟨m, i⟩ | ⟨m, i⟩ | ⟨m, i, p⟩ <;> cases m <;> rfl

@[simp] theorem afterRead_mem (op : Operand) (s : State) : (afterRead op s).mem = s.mem := by
  rcases op with ⟨m, i⟩ | ⟨m, i⟩ | ⟨m, i, p⟩ <;> cases m <;> rfl

@[simp] theorem afterRead_sink (op : Operand) (s : State) : (afterRead op s).sink = s.sink := by
  rcases op with ⟨m, i⟩ | ⟨m, i⟩ | ⟨m, i, p⟩ <;> cases m <;> rfl

@[simp] theorem afterRead_cfg (op : Operand) (s : State) : (afterRead op s).cfg = s.cfg := by
  rcases op with ⟨m, i⟩ | ⟨m, i⟩ | ⟨m, i, p⟩ <;> cases m <;> rfl

@[simp] theorem afterRead_getF (op : Operand) (s : State) (j : Fin 64) :
    (afterRead op s).getF j = s.getF j := by
  rcases op with ⟨m, i⟩ | ⟨m, i⟩ | ⟨m, i, p⟩ <;> cases m <;> rfl

/-- An operand that is not an increment or decrement register mode changes nothing when read. -/
theorem afterRead_const (op : Operand) (s : State) (h : op.isConst = true) : afterRead op s = s := by
  cases op <;> simp_all [Operand.isConst, afterRead]

@[simp] theorem afterWrite_status (op : Operand) (v : Value) (s : State) :
    (afterWrite op v s).status = s.status := by
  rcases op with ⟨m, i⟩ | ⟨m, i⟩ | ⟨m, i, p⟩ <;> cases m <;> rfl

@[simp] theorem afterWrite_mem (op : Operand) (v : Value) (s : State) :
    (afterWrite op v s).mem = s.mem := by
  rcases op with ⟨m, i⟩ | ⟨m, i⟩ | ⟨m, i, p⟩ <;> cases m <;> rfl

@[simp] theorem afterWrite_sink (op : Operand) (v : Value) (s : State) :
    (afterWrite op v s).sink = s.sink := by
  rcases op with ⟨m, i⟩ | ⟨m, i⟩ | ⟨m, i, p⟩ <;> cases m <;> rfl

@[simp] theorem afterWrite_cfg (op : Operand) (v : Value) (s : State) :
    (afterWrite op v s).cfg = s.cfg := by
  rcases op with ⟨m, i⟩ | ⟨m, i⟩ | ⟨m, i, p⟩ <;> cases m <;> rfl

/-! ### Memory and stack -/

theorem memRead_ok (addr : Word) (n : Nat) (s : State) (h : s.inBounds addr n = true) :
    memRead addr n s = .ok (BitVec.ofNat 64 (leNat (Memory.bytes s.mem addr.toNat n))) s := by
  simp [memRead, h]

theorem memRead_fault (addr : Word) (n : Nat) (s : State) (h : s.inBounds addr n = false) :
    memRead addr n s = .fault .memUndefined s := by simp [memRead, h]

/-- What `memRead` does: it reads without a change, or faults without a change. -/
theorem memRead_cases (addr : Word) (n : Nat) (s : State) :
    (s.inBounds addr n = true ∧
      memRead addr n s = .ok (BitVec.ofNat 64 (leNat (Memory.bytes s.mem addr.toNat n))) s) ∨
    (s.inBounds addr n = false ∧ memRead addr n s = .fault .memUndefined s) := by
  cases h : s.inBounds addr n
  · exact .inr ⟨rfl, memRead_fault addr n s h⟩
  · exact .inl ⟨rfl, memRead_ok addr n s h⟩

theorem memWrite_ok (addr : Word) (n : Nat) (v : Word) (s : State) (h : s.inBounds addr n = true) :
    memWrite addr n v s =
      .ok () (s.setMem (Memory.writeBytes s.mem addr.toNat (leBytes n v.toNat))) := by
  simp [memWrite, h]

theorem memWrite_fault (addr : Word) (n : Nat) (v : Word) (s : State)
    (h : s.inBounds addr n = false) : memWrite addr n v s = .fault .memUndefined s := by
  simp [memWrite, h]

/-- What `memWrite` does: it stores in bounds, or faults without a change. -/
theorem memWrite_cases (addr : Word) (n : Nat) (v : Word) (s : State) :
    (s.inBounds addr n = true ∧ memWrite addr n v s =
      .ok () (s.setMem (Memory.writeBytes s.mem addr.toNat (leBytes n v.toNat)))) ∨
    (s.inBounds addr n = false ∧ memWrite addr n v s = .fault .memUndefined s) := by
  cases h : s.inBounds addr n
  · exact .inr ⟨rfl, memWrite_fault addr n v s h⟩
  · exact .inl ⟨rfl, memWrite_ok addr n v s h⟩

/-- An in-bounds store keeps memory canonical and inside the heap. -/
theorem writeBytes_memoryOk (s : State) (addr : Word) (n : Nat) (v : Word)
    (h : s.inBounds addr n = true) (hw : Memory.wf s.mem = true)
    (hb : Memory.below s.mem s.cfg.heapSize = true) :
    Memory.wf (Memory.writeBytes s.mem addr.toNat (leBytes n v.toNat)) = true ∧
    Memory.below (Memory.writeBytes s.mem addr.toNat (leBytes n v.toNat)) s.cfg.heapSize = true := by
  refine ⟨Memory.writeBytes_wf _ _ _ hw, Memory.writeBytes_below _ _ _ _ hb ?_⟩
  simpa [State.inBounds] using h

/-- What `stackPush` does: `sp` moves in either case. -/
theorem stackPush_cases (v : Word) (s : State) :
    (s.inBounds (s.sp - 8) 8 = true ∧ stackPush v s = .ok () ((s.setSp (s.sp - 8)).setMem
      (Memory.writeBytes s.mem (s.sp - 8).toNat (leBytes 8 v.toNat)))) ∨
    (s.inBounds (s.sp - 8) 8 = false ∧
      stackPush v s = .fault .memUndefined (s.setSp (s.sp - 8))) :=
  memWrite_cases (s.sp - 8) 8 v (s.setSp (s.sp - 8))

/-- What `stackPop` does: `sp` moves only if the read is in bounds. -/
theorem stackPop_cases (s : State) :
    (s.inBounds s.sp 8 = true ∧ stackPop s =
      .ok (BitVec.ofNat 64 (leNat (Memory.bytes s.mem s.sp.toNat 8))) (s.setSp (s.sp + 8))) ∨
    (s.inBounds s.sp 8 = false ∧ stackPop s = .fault .memUndefined s) := by
  rcases memRead_cases s.sp 8 s with ⟨h, e⟩ | ⟨h, e⟩
  · exact .inl ⟨h, by simp [stackPop, e]⟩
  · exact .inr ⟨h, by simp [stackPop, e]⟩

/-- The memory that reset starts from is canonical and inside the heap. -/
theorem reset_memory_wf : Memory.wf State.reset.mem = true ∧
    Memory.below State.reset.mem State.reset.cfg.heapSize = true := ⟨rfl, rfl⟩

end Sys2Proof.Machine
end

