-- ==== Sys2Proof/Laws/PerInstr.lean ====
section
/-! SUPPORT. Statements about every instruction as syntax, one lemma per constructor. -/

namespace Sys2Proof

theorem encodeOperand_length (t : NumberTables) (op : Operand) : (encodeOperand t op).length = op.encodedLength := by
  cases op <;> rfl

theorem flatMap_encodeOperand_length (t : NumberTables) (ops : List Operand) :
    5 + (ops.flatMap (encodeOperand t)).length = contentLength ops := by
  induction ops with
  | nil => rfl
  | cons op rest ih =>
    simp only [contentLength, List.flatMap_cons, List.length_append, encodeOperand_length,
      List.map_cons, List.sum_cons] at ih ⊢
    omega

theorem le_roundUp8 (x : Nat) : x ≤ roundUp8 x := by
  unfold roundUp8; split <;> omega

theorem roundUp8_mod (x : Nat) : roundUp8 x % 8 = 0 := by
  unfold roundUp8; split <;> omega

theorem contentLength_le_encodedSize (ops : List Operand) :
    contentLength ops ≤ encodedSize ops := by
  have h := le_roundUp8 (contentLength ops + if ops.length > 0 then 1 else 0)
  unfold encodedSize
  omega

theorem encodedSize_mod (ops : List Operand) : encodedSize ops % 8 = 0 := by
  have h := roundUp8_mod (contentLength ops + if ops.length > 0 then 1 else 0)
  unfold encodedSize
  omega

/-- The encoding of an instruction has the size that its byte 0 tells (30_encoding.md R92, R94). -/
theorem encode_length (t : NumberTables) (i : Instr) : (encode t i).length = encodedSize i.operands := by
  have h1 := flatMap_encodeOperand_length t i.operands
  have h2 := contentLength_le_encodedSize i.operands
  simp only [encode, leBytes, List.length_cons, List.length_append, List.length_replicate,
    List.length_nil]
  omega

namespace Laws.EncodedLength

/-- Under any number tables, the encoding has as many bytes as `encodedSize` says, a multiple of 8 and at least 8
(30_encoding.md R92, R94). -/
def Statement (i : Instr) : Prop :=
  (∀ t, (encode t i).length = encodedSize i.operands) ∧ encodedSize i.operands % 8 = 0 ∧
    8 ≤ encodedSize i.operands

theorem all (i : Instr) : Statement i :=
  ⟨fun t => encode_length t i, encodedSize_mod i.operands, Nat.le_max_left ..⟩

theorem nop (size : OperandSize) (ops : List Operand) : Statement (.nop size ops) := all _
theorem load (size : OperandSize) (ops : List Operand) : Statement (.load size ops) := all _
theorem store (size : OperandSize) (ops : List Operand) : Statement (.store size ops) := all _
theorem move (size : OperandSize) (ops : List Operand) : Statement (.move size ops) := all _
theorem push (size : OperandSize) (ops : List Operand) : Statement (.push size ops) := all _
theorem pop (size : OperandSize) (ops : List Operand) : Statement (.pop size ops) := all _
theorem add (size : OperandSize) (ops : List Operand) : Statement (.add size ops) := all _
theorem sub (size : OperandSize) (ops : List Operand) : Statement (.sub size ops) := all _
theorem mul (size : OperandSize) (ops : List Operand) : Statement (.mul size ops) := all _
theorem div (size : OperandSize) (ops : List Operand) : Statement (.div size ops) := all _
theorem mod (size : OperandSize) (ops : List Operand) : Statement (.mod size ops) := all _
theorem neg (size : OperandSize) (ops : List Operand) : Statement (.neg size ops) := all _
theorem shr (size : OperandSize) (ops : List Operand) : Statement (.shr size ops) := all _
theorem shl (size : OperandSize) (ops : List Operand) : Statement (.shl size ops) := all _
theorem ror (size : OperandSize) (ops : List Operand) : Statement (.ror size ops) := all _
theorem rol (size : OperandSize) (ops : List Operand) : Statement (.rol size ops) := all _
theorem and (size : OperandSize) (ops : List Operand) : Statement (.and size ops) := all _
theorem or (size : OperandSize) (ops : List Operand) : Statement (.or size ops) := all _
theorem xor (size : OperandSize) (ops : List Operand) : Statement (.xor size ops) := all _
theorem not (size : OperandSize) (ops : List Operand) : Statement (.not size ops) := all _
theorem bis (size : OperandSize) (ops : List Operand) : Statement (.bis size ops) := all _
theorem bic (size : OperandSize) (ops : List Operand) : Statement (.bic size ops) := all _
theorem test (size : OperandSize) (ops : List Operand) : Statement (.test size ops) := all _
theorem cmp (size : OperandSize) (ops : List Operand) : Statement (.cmp size ops) := all _
theorem bz (size : OperandSize) (ops : List Operand) : Statement (.bz size ops) := all _
theorem bnz (size : OperandSize) (ops : List Operand) : Statement (.bnz size ops) := all _
theorem tbz (size : OperandSize) (ops : List Operand) : Statement (.tbz size ops) := all _
theorem tbnz (size : OperandSize) (ops : List Operand) : Statement (.tbnz size ops) := all _
theorem bne (size : OperandSize) (ops : List Operand) : Statement (.bne size ops) := all _
theorem beq (size : OperandSize) (ops : List Operand) : Statement (.beq size ops) := all _
theorem bae (size : OperandSize) (ops : List Operand) : Statement (.bae size ops) := all _
theorem ba (size : OperandSize) (ops : List Operand) : Statement (.ba size ops) := all _
theorem ble (size : OperandSize) (ops : List Operand) : Statement (.ble size ops) := all _
theorem bl (size : OperandSize) (ops : List Operand) : Statement (.bl size ops) := all _
theorem bo (size : OperandSize) (ops : List Operand) : Statement (.bo size ops) := all _
theorem bcc (size : OperandSize) (ops : List Operand) : Statement (.bcc size ops) := all _
theorem bcs (size : OperandSize) (ops : List Operand) : Statement (.bcs size ops) := all _
theorem jsr (size : OperandSize) (ops : List Operand) : Statement (.jsr size ops) := all _
theorem rts (size : OperandSize) (ops : List Operand) : Statement (.rts size ops) := all _
theorem jmp (size : OperandSize) (ops : List Operand) : Statement (.jmp size ops) := all _
theorem metaData (size : OperandSize) (ops : List Operand) : Statement (.metaData size ops) := all _
theorem debug (size : OperandSize) (ops : List Operand) : Statement (.debug size ops) := all _
theorem exit (size : OperandSize) (ops : List Operand) : Statement (.exit size ops) := all _

end Laws.EncodedLength

end Sys2Proof
end

