-- ==== Sys2Proof/Laws/Tables.lean ====
section
/-! SUPPORT. Reading the number tables both ways: a code that is found is the code of the name, in any
table, and in an injective table every name is found under its code. -/

namespace Sys2Proof

/-- What `lookupCode` finds stands at one place of both lists. -/
theorem lookupCode_some {α : Type} {w : Nat} (names : List α) (codes : List (BitVec w)) (x : BitVec w)
    (name : α) (h : lookupCode names codes x = some name) :
    ∃ i : Nat, names[i]? = some name ∧ codes[i]? = some x := by
  induction names generalizing codes with
  | nil => simp [lookupCode] at h
  | cons k names ih =>
    cases codes with
    | nil => simp [lookupCode] at h
    | cons c codes =>
      simp only [lookupCode] at h
      split at h
      · exact ⟨0, by simpa using h, by simpa⟩
      · obtain ⟨i, h1, h2⟩ := ih codes h
        exact ⟨i + 1, by simpa using h1, by simpa using h2⟩

/-- Without repeated codes, `lookupCode` finds the name that stands where the code stands. -/
theorem lookupCode_of_nodup {α : Type} {w : Nat} (names : List α) (codes : List (BitVec w))
    (x : BitVec w) (name : α) (i : Nat) (hc : codes.Nodup) (hn : names[i]? = some name)
    (hx : codes[i]? = some x) : lookupCode names codes x = some name := by
  induction names generalizing codes i with
  | nil => simp at hn
  | cons k names ih =>
    cases codes with
    | nil => simp at hx
    | cons c codes =>
      rw [List.nodup_cons] at hc
      cases i with
      | zero => simp_all [lookupCode]
      | succ i =>
        simp only [List.getElem?_cons_succ] at hn hx
        have hne : c ≠ x := fun e => hc.1 (e ▸ List.mem_of_getElem? hx)
        simp only [lookupCode, hne, if_false]
        exact ih codes i hc.2 hn hx

/-! ### The names stand at their index -/

theorem Op.all_index (o : Op) : Op.all[o.index.val]? = some o := by cases o <;> rfl

theorem Mode.all_index (m : Mode) : Mode.all[m.index.val]? = some m := by
  cases m with
  | reg m => cases m <;> rfl
  | special m => cases m <;> rfl
  | const m => cases m <;> rfl

theorem OperandSize.all_index (z : OperandSize) : OperandSize.all[z.index.val]? = some z := by
  cases z <;> rfl

theorem Op.index_of_all (i : Nat) (o : Op) (h : Op.all[i]? = some o) : i = o.index.val :=
  (List.getElem?_inj (List.getElem?_eq_some_iff.1 h).1 (by decide)).1 (h.trans (Op.all_index o).symm)

theorem Mode.index_of_all (i : Nat) (m : Mode) (h : Mode.all[i]? = some m) : i = m.index.val :=
  (List.getElem?_inj (List.getElem?_eq_some_iff.1 h).1 (by decide)).1
    (h.trans (Mode.all_index m).symm)

theorem OperandSize.index_of_all (i : Nat) (z : OperandSize) (h : OperandSize.all[i]? = some z) :
    i = z.index.val :=
  (List.getElem?_inj (List.getElem?_eq_some_iff.1 h).1 (by decide)).1
    (h.trans (OperandSize.all_index z).symm)

/-! ### Each table read back -/

/-- An opcode is found under its number in an injective table (30_encoding.md R96). -/
theorem Op.ofNumber_number (t : NumberTables) (h : t.Valid) (o : Op) :
    Op.ofNumber t (o.number t) = some o :=
  lookupCode_of_nodup _ _ _ _ o.index.val h.1 (Op.all_index o) (by simp [Op.number])

/-- A number that names an opcode is the opcode's number, in any table (30_encoding.md R106). -/
theorem Op.number_of_ofNumber (t : NumberTables) (x : BitVec 16) (o : Op)
    (h : Op.ofNumber t x = some o) : o.number t = x := by
  obtain ⟨i, h1, h2⟩ := lookupCode_some _ _ _ _ h
  rw [Op.index_of_all i o h1] at h2
  simpa [Op.number] using h2

/-- An addressing mode is found under its tag in an injective table (30_encoding.md R97). -/
theorem Mode.ofTag_tag (t : NumberTables) (h : t.Valid) (m : Mode) :
    Mode.ofTag t (m.tag t) = some m :=
  lookupCode_of_nodup _ _ _ _ m.index.val h.2.1 (Mode.all_index m) (by simp [Mode.tag])

/-- A tag that names an addressing mode is the mode's tag, in any table (30_encoding.md R109). -/
theorem Mode.tag_of_ofTag (t : NumberTables) (x : Byte) (m : Mode) (h : Mode.ofTag t x = some m) :
    m.tag t = x := by
  obtain ⟨i, h1, h2⟩ := lookupCode_some _ _ _ _ h
  rw [Mode.index_of_all i m h1] at h2
  simpa [Mode.tag] using h2

/-- An operand size is found under its code in an injective table (30_encoding.md R99). -/
theorem OperandSize.ofCode_code (t : NumberTables) (h : t.Valid) (z : OperandSize) :
    OperandSize.ofCode t (z.code t) = some z :=
  lookupCode_of_nodup _ _ _ _ z.index.val h.2.2 (OperandSize.all_index z)
    (by simp [OperandSize.code])

/-- A code that names an operand size is the size's code, in any table (30_encoding.md R107). -/
theorem OperandSize.code_of_ofCode (t : NumberTables) (x : Byte) (z : OperandSize)
    (h : OperandSize.ofCode t x = some z) : z.code t = x := by
  obtain ⟨i, h1, h2⟩ := lookupCode_some _ _ _ _ h
  rw [OperandSize.index_of_all i z h1] at h2
  simpa [OperandSize.code] using h2

/-- The default tables are injective (30_encoding.md R96, R97, R99). -/
theorem defaultTables_valid : defaultTables.Valid := by decide

/-- Under the default table, the codes that name a size are 0 to 4 (30_encoding.md R107). -/
theorem ofCode_default_none (x : Byte) :
    OperandSize.ofCode defaultTables x = none ↔ 4 < x.toNat := by decide +revert

/-- Under the default table, the tags that name a mode are 1 to 16 (30_encoding.md R109). -/
theorem ofTag_default_none (x : Byte) :
    Mode.ofTag defaultTables x = none ↔ x = 0 ∨ 16 < x.toNat := by decide +revert

end Sys2Proof
end

