-- ==== Sys2Proof/Tests/Slice0.lean ====
section
/-! SUPPORT. Tests: well-formedness, one word per instruction decoded, single steps, and for every
statement with hypotheses a witness that meets them. Words and expected values come from
spec/95_test_vectors.md; the vector is named where it is used. -/

open Sys2Proof Sys2Proof.Machine

/-! ### Well-formedness -/

/-- Five operands are one too many (30_encoding.md R90). -/
theorem test_wf_five_operands :
    (Instr.nop .none (List.replicate 5 (.special .registerSp 0))).wellFormed = false := by decide

/-- Register 64 does not exist, in any register-kind mode (10_state.md R33). -/
theorem test_wf_index_64 : ∀ m ∈ [RegMode.registerInteger, .registerFloat, .incrementRegisterPre,
    .incrementRegisterPost, .decrementRegisterPre, .decrementRegisterPost],
    (Instr.push .qword [.reg m 64]).wellFormed = false ∧
    (Instr.push .qword [.reg m 63]).wellFormed = true := by decide

/-- The index of any other mode has no meaning (30_encoding.md R110). -/
theorem test_wf_other_index :
    (Instr.move .qword [.special .registerSp 200, .const .constantInteger 200 0]).wellFormed = true := by
  decide

/-- The decoder refuses the ill-formed words by name: S002 for a fifth operand (V-EN5), S007 for
register 64 (V-EN8). -/
theorem test_decode_refuses_ill_formed :
    decode defaultTables .strict [0x08, 0x01, 0, 0x04, 0x05, 0, 0, 0] = .error .s002 ∧
    decode defaultTables .strict [0x08, 0x05, 0, 0x04, 0x01, 0x01, 0x40, 0] = .error .s007 := by decide

/-- The encoder writes the bytes of T1, and 48 bytes for four constants (V-DM38). -/
theorem test_encode :
    encode defaultTables (.move .qword [.const .decrementConstantPre 0 5, .reg .registerInteger 0]) =
      [0x18, 0x04, 0, 0x04, 0x02, 0x0f, 0, 0x05, 0, 0, 0, 0, 0, 0, 0, 0x01, 0, 0, 0, 0, 0, 0, 0, 0] ∧
    (encode defaultTables (.nop .qword [.const .constantInteger 0 1, .const .constantInteger 0 2,
      .const .constantInteger 0 3, .const .constantInteger 0 4])).length = 48 := by decide

/-! ### Decoding: a word for every constructor, and for every mode -/

/-- V-DM37. -/
theorem test_decode_nop :
    decode defaultTables .strict [0x08, 0x01, 0, 0, 0, 0, 0, 0] =
      .ok (.nop .none [], 8) := by
  decide

/-- V-DM2. -/
theorem test_decode_load :
    decode defaultTables .strict [0x10, 0x02, 0, 0x04, 0x02, 0x01, 0x04, 0x0a, 0x05, 0, 0, 0, 0,
      0, 0, 0] =
      .ok (.load .qword [.reg .registerInteger 4, .reg .incrementRegisterPost 5], 16) := by
  decide

/-- V-DM10. -/
theorem test_decode_store :
    decode defaultTables .strict [0x10, 0x03, 0, 0x04, 0x02, 0x01, 0x02, 0x01, 0x03, 0, 0, 0, 0,
      0, 0, 0] =
      .ok (.store .qword [.reg .registerInteger 2, .reg .registerInteger 3], 16) := by
  decide

/-- V-RS4. -/
theorem test_decode_move :
    decode defaultTables .strict [0x10, 0x04, 0, 0x04, 0x02, 0x02, 0x01, 0x01, 0x02, 0, 0, 0, 0,
      0, 0, 0] =
      .ok (.move .qword [.reg .registerFloat 1, .reg .registerInteger 2], 16) := by
  decide

/-- V-DM27. -/
theorem test_decode_push :
    decode defaultTables .strict [0x08, 0x05, 0, 0x04, 0x01, 0x01, 0x01, 0] =
      .ok (.push .qword [.reg .registerInteger 1], 8) := by
  decide

/-- V-DM33. -/
theorem test_decode_pop :
    decode defaultTables .strict [0x10, 0x06, 0, 0x04, 0x01, 0x07, 0, 0x05, 0, 0, 0, 0, 0, 0, 0,
      0] =
      .ok (.pop .qword [.const .constantInteger 0 5], 16) := by
  decide

/-- V-RS7. -/
theorem test_decode_add :
    decode defaultTables .strict [0x10, 0x07, 0, 0x04, 0x03, 0x02, 0x01, 0x01, 0x01, 0x01, 0x02,
      0, 0, 0, 0, 0] =
      .ok (.add .qword [.reg .registerFloat 1, .reg .registerInteger 1, .reg .registerInteger 2],
        16) := by
  decide

/-- V-AR8. -/
theorem test_decode_sub :
    decode defaultTables .strict [0x10, 0x08, 0, 0x04, 0x03, 0x01, 0, 0x01, 0x01, 0x01, 0x02, 0,
      0, 0, 0, 0] =
      .ok (.sub .qword [.reg .registerInteger 0, .reg .registerInteger 1, .reg .registerInteger
        2], 16) := by
  decide

/-- V-AR10. -/
theorem test_decode_mul :
    decode defaultTables .strict [0x10, 0x09, 0, 0x04, 0x03, 0x01, 0, 0x01, 0x01, 0x01, 0x02, 0,
      0, 0, 0, 0] =
      .ok (.mul .qword [.reg .registerInteger 0, .reg .registerInteger 1, .reg .registerInteger
        2], 16) := by
  decide

/-- V-AR12. -/
theorem test_decode_div :
    decode defaultTables .strict [0x10, 0x0a, 0, 0x04, 0x03, 0x01, 0, 0x01, 0x01, 0x01, 0x02, 0,
      0, 0, 0, 0] =
      .ok (.div .qword [.reg .registerInteger 0, .reg .registerInteger 1, .reg .registerInteger
        2], 16) := by
  decide

/-- V-AR15. -/
theorem test_decode_mod :
    decode defaultTables .strict [0x10, 0x0b, 0, 0x04, 0x03, 0x01, 0, 0x01, 0x01, 0x01, 0x02, 0,
      0, 0, 0, 0] =
      .ok (.mod .qword [.reg .registerInteger 0, .reg .registerInteger 1, .reg .registerInteger
        2], 16) := by
  decide

/-- V-AR19. -/
theorem test_decode_neg :
    decode defaultTables .strict [0x10, 0x0c, 0, 0x02, 0x02, 0x01, 0, 0x01, 0x01, 0, 0, 0, 0, 0,
      0, 0] =
      .ok (.neg .word [.reg .registerInteger 0, .reg .registerInteger 1], 16) := by
  decide

/-- V-LS4. -/
theorem test_decode_shr :
    decode defaultTables .strict [0x10, 0x0d, 0, 0x04, 0x03, 0x01, 0, 0x01, 0x01, 0x01, 0x02, 0,
      0, 0, 0, 0] =
      .ok (.shr .qword [.reg .registerInteger 0, .reg .registerInteger 1, .reg .registerInteger
        2], 16) := by
  decide

/-- V-LS5. -/
theorem test_decode_shl :
    decode defaultTables .strict [0x18, 0x0e, 0, 0x01, 0x03, 0x01, 0, 0x01, 0x01, 0x07, 0, 0x01,
      0, 0, 0, 0, 0, 0, 0, 0, 0, 0, 0, 0] =
      .ok (.shl .byte [.reg .registerInteger 0, .reg .registerInteger 1, .const .constantInteger 0
        1], 24) := by
  decide

/-- V-LS8. -/
theorem test_decode_ror :
    decode defaultTables .strict [0x18, 0x0f, 0, 0x01, 0x03, 0x01, 0, 0x01, 0x01, 0x07, 0, 0x01,
      0, 0, 0, 0, 0, 0, 0, 0, 0, 0, 0, 0] =
      .ok (.ror .byte [.reg .registerInteger 0, .reg .registerInteger 1, .const .constantInteger 0
        1], 24) := by
  decide

/-- V-LS12. -/
theorem test_decode_rol :
    decode defaultTables .strict [0x18, 0x10, 0, 0x01, 0x03, 0x01, 0, 0x01, 0x01, 0x07, 0, 0x01,
      0, 0, 0, 0, 0, 0, 0, 0, 0, 0, 0, 0] =
      .ok (.rol .byte [.reg .registerInteger 0, .reg .registerInteger 1, .const .constantInteger 0
        1], 24) := by
  decide

/-- V-LS14. -/
theorem test_decode_and :
    decode defaultTables .strict [0x10, 0x11, 0, 0x04, 0x03, 0x01, 0, 0x01, 0x01, 0x01, 0x02, 0,
      0, 0, 0, 0] =
      .ok (.and .qword [.reg .registerInteger 0, .reg .registerInteger 1, .reg .registerInteger
        2], 16) := by
  decide

/-- V-LS16. -/
theorem test_decode_or :
    decode defaultTables .strict [0x10, 0x12, 0, 0x02, 0x03, 0x01, 0, 0x01, 0x01, 0x01, 0x02, 0,
      0, 0, 0, 0] =
      .ok (.or .word [.reg .registerInteger 0, .reg .registerInteger 1, .reg .registerInteger 2],
        16) := by
  decide

/-- V-LS17. -/
theorem test_decode_xor :
    decode defaultTables .strict [0x10, 0x13, 0, 0x04, 0x03, 0x01, 0, 0x01, 0x01, 0x01, 0x02, 0,
      0, 0, 0, 0] =
      .ok (.xor .qword [.reg .registerInteger 0, .reg .registerInteger 1, .reg .registerInteger
        2], 16) := by
  decide

/-- V-LS19. -/
theorem test_decode_not :
    decode defaultTables .strict [0x10, 0x14, 0, 0x01, 0x02, 0x01, 0, 0x01, 0x01, 0, 0, 0, 0, 0,
      0, 0] =
      .ok (.not .byte [.reg .registerInteger 0, .reg .registerInteger 1], 16) := by
  decide

/-- V-LS21. -/
theorem test_decode_bis :
    decode defaultTables .strict [0x18, 0x15, 0, 0x04, 0x03, 0x01, 0, 0x01, 0x01, 0x07, 0, 0x3f,
      0, 0, 0, 0, 0, 0, 0, 0, 0, 0, 0, 0] =
      .ok (.bis .qword [.reg .registerInteger 0, .reg .registerInteger 1, .const .constantInteger
        0 63], 24) := by
  decide

/-- V-LS23. -/
theorem test_decode_bic :
    decode defaultTables .strict [0x18, 0x16, 0, 0x01, 0x03, 0x01, 0, 0x01, 0x01, 0x07, 0, 0, 0,
      0, 0, 0, 0, 0, 0, 0, 0, 0, 0, 0] =
      .ok (.bic .byte [.reg .registerInteger 0, .reg .registerInteger 1, .const .constantInteger 0
        0], 24) := by
  decide

/-- V-LS25. -/
theorem test_decode_test :
    decode defaultTables .strict [0x10, 0x17, 0, 0x04, 0x02, 0x01, 0x01, 0x01, 0x02, 0, 0, 0, 0,
      0, 0, 0] =
      .ok (.test .qword [.reg .registerInteger 1, .reg .registerInteger 2], 16) := by
  decide

/-- V-LS31. -/
theorem test_decode_cmp :
    decode defaultTables .strict [0x10, 0x18, 0, 0x04, 0x02, 0x01, 0x01, 0x01, 0x02, 0, 0, 0, 0,
      0, 0, 0] =
      .ok (.cmp .qword [.reg .registerInteger 1, .reg .registerInteger 2], 16) := by
  decide

/-- V-CT11. -/
theorem test_decode_bz :
    decode defaultTables .strict [0x10, 0x19, 0, 0x04, 0x01, 0x07, 0, 0x60, 0, 0, 0, 0, 0, 0, 0,
      0] =
      .ok (.bz .qword [.const .constantInteger 0 96], 16) := by
  decide

/-- V-CT13. -/
theorem test_decode_bnz :
    decode defaultTables .strict [0x10, 0x1a, 0, 0x04, 0x01, 0x07, 0, 0x60, 0, 0, 0, 0, 0, 0, 0,
      0] =
      .ok (.bnz .qword [.const .constantInteger 0 96], 16) := by
  decide

/-- V-CT29. -/
theorem test_decode_tbz :
    decode defaultTables .strict [0x20, 0x1b, 0, 0x04, 0x02, 0x07, 0, 0x60, 0, 0, 0, 0, 0, 0, 0,
      0x07, 0, 0x02, 0, 0, 0, 0, 0, 0, 0, 0, 0, 0, 0, 0, 0, 0] =
      .ok (.tbz .qword [.const .constantInteger 0 96, .const .constantInteger 0 2], 32) := by
  decide

/-- V-CT31. -/
theorem test_decode_tbnz :
    decode defaultTables .strict [0x20, 0x1c, 0, 0x04, 0x02, 0x07, 0, 0x60, 0, 0, 0, 0, 0, 0, 0,
      0x07, 0, 0x02, 0, 0, 0, 0, 0, 0, 0, 0, 0, 0, 0, 0, 0, 0] =
      .ok (.tbnz .qword [.const .constantInteger 0 96, .const .constantInteger 0 2], 32) := by
  decide

/-- V-CT15. -/
theorem test_decode_bne :
    decode defaultTables .strict [0x10, 0x1d, 0, 0x04, 0x01, 0x07, 0, 0x30, 0, 0, 0, 0, 0, 0, 0,
      0] =
      .ok (.bne .qword [.const .constantInteger 0 48], 16) := by
  decide

/-- V-CT14. -/
theorem test_decode_beq :
    decode defaultTables .strict [0x10, 0x1e, 0, 0x04, 0x01, 0x07, 0, 0x60, 0, 0, 0, 0, 0, 0, 0,
      0] =
      .ok (.beq .qword [.const .constantInteger 0 96], 16) := by
  decide

/-- V-CT16. -/
theorem test_decode_bae :
    decode defaultTables .strict [0x10, 0x1f, 0, 0x04, 0x01, 0x07, 0, 0x60, 0, 0, 0, 0, 0, 0, 0,
      0] =
      .ok (.bae .qword [.const .constantInteger 0 96], 16) := by
  decide

/-- V-CT18. -/
theorem test_decode_ba :
    decode defaultTables .strict [0x10, 0x20, 0, 0x04, 0x01, 0x07, 0, 0x60, 0, 0, 0, 0, 0, 0, 0,
      0] =
      .ok (.ba .qword [.const .constantInteger 0 96], 16) := by
  decide

/-- V-CT20. -/
theorem test_decode_ble :
    decode defaultTables .strict [0x10, 0x21, 0, 0x04, 0x01, 0x07, 0, 0x60, 0, 0, 0, 0, 0, 0, 0,
      0] =
      .ok (.ble .qword [.const .constantInteger 0 96], 16) := by
  decide

/-- V-CT23. -/
theorem test_decode_bl :
    decode defaultTables .strict [0x10, 0x22, 0, 0x04, 0x01, 0x07, 0, 0x60, 0, 0, 0, 0, 0, 0, 0,
      0] =
      .ok (.bl .qword [.const .constantInteger 0 96], 16) := by
  decide

/-- V-CT25. -/
theorem test_decode_bo :
    decode defaultTables .strict [0x10, 0x23, 0, 0x04, 0x01, 0x07, 0, 0x60, 0, 0, 0, 0, 0, 0, 0,
      0] =
      .ok (.bo .qword [.const .constantInteger 0 96], 16) := by
  decide

/-- V-CT27. -/
theorem test_decode_bcc :
    decode defaultTables .strict [0x10, 0x24, 0, 0x04, 0x01, 0x07, 0, 0x60, 0, 0, 0, 0, 0, 0, 0,
      0] =
      .ok (.bcc .qword [.const .constantInteger 0 96], 16) := by
  decide

/-- V-CT28. -/
theorem test_decode_bcs :
    decode defaultTables .strict [0x10, 0x25, 0, 0x04, 0x01, 0x07, 0, 0x60, 0, 0, 0, 0, 0, 0, 0,
      0] =
      .ok (.bcs .qword [.const .constantInteger 0 96], 16) := by
  decide

/-- V-CT1. -/
theorem test_decode_jsr :
    decode defaultTables .strict [0x10, 0x26, 0, 0x04, 0x01, 0x07, 0, 0x20, 0, 0, 0, 0, 0, 0, 0,
      0] =
      .ok (.jsr .qword [.const .constantInteger 0 32], 16) := by
  decide

/-- V-CT5. -/
theorem test_decode_rts :
    decode defaultTables .strict [0x08, 0x27, 0, 0, 0, 0, 0, 0] =
      .ok (.rts .none [], 8) := by
  decide

/-- V-CT7. -/
theorem test_decode_jmp :
    decode defaultTables .strict [0x10, 0x28, 0, 0x04, 0x01, 0x07, 0, 0x40, 0, 0, 0, 0, 0, 0, 0,
      0] =
      .ok (.jmp .qword [.const .constantInteger 0 64], 16) := by
  decide

/-- V-SY2. -/
theorem test_decode_metaData :
    decode defaultTables .strict [0x10, 0x29, 0, 0x04, 0x01, 0x07, 0, 0x07, 0, 0, 0, 0, 0, 0, 0,
      0] =
      .ok (.metaData .qword [.const .constantInteger 0 7], 16) := by
  decide

/-- V-SY3. -/
theorem test_decode_debug :
    decode defaultTables .strict [0x08, 0x2a, 0, 0, 0, 0, 0, 0] =
      .ok (.debug .none [], 8) := by
  decide

/-- V-SY1. -/
theorem test_decode_exit :
    decode defaultTables .strict [0x08, 0x2b, 0, 0, 0, 0, 0, 0] =
      .ok (.exit .none [], 8) := by
  decide

/-- V-DM3. -/
theorem test_decode_mode_pre_increment :
    decode defaultTables .strict [0x10, 0x02, 0, 0x04, 0x02, 0x01, 0x04, 0x09, 0x05, 0, 0, 0, 0,
      0, 0, 0] =
      .ok (.load .qword [.reg .registerInteger 4, .reg .incrementRegisterPre 5], 16) := by
  decide

/-- V-RS3. -/
theorem test_decode_mode_pre_decrement :
    decode defaultTables .strict [0x10, 0x07, 0, 0x04, 0x03, 0x01, 0, 0x0b, 0x01, 0x0c, 0x01, 0,
      0, 0, 0, 0] =
      .ok (.add .qword [.reg .registerInteger 0, .reg .decrementRegisterPre 1, .reg
        .decrementRegisterPost 1], 16) := by
  decide

/-- V-RS13. -/
theorem test_decode_mode_float_to_post_increment :
    decode defaultTables .strict [0x10, 0x04, 0, 0x04, 0x02, 0x02, 0x01, 0x0a, 0x01, 0, 0, 0, 0,
      0, 0, 0] =
      .ok (.move .qword [.reg .registerFloat 1, .reg .incrementRegisterPost 1], 16) := by
  decide

/-- V-RS2. -/
theorem test_decode_mode_constant_pre_increment :
    decode defaultTables .strict [0x18, 0x02, 0, 0x04, 0x02, 0x01, 0, 0x0d, 0, 0x80, 0, 0, 0, 0,
      0, 0, 0, 0, 0, 0, 0, 0, 0, 0] =
      .ok (.load .qword [.reg .registerInteger 0, .const .incrementConstantPre 0 128], 24) := by
  decide

/-- V-RS11. -/
theorem test_decode_mode_constant_pre_decrement :
    decode defaultTables .strict [0x18, 0x04, 0, 0x04, 0x02, 0x0f, 0, 0x05, 0, 0, 0, 0, 0, 0, 0,
      0x01, 0, 0, 0, 0, 0, 0, 0, 0] =
      .ok (.move .qword [.const .decrementConstantPre 0 5, .reg .registerInteger 0], 24) := by
  decide

/-- V-DM18. -/
theorem test_decode_mode_float_constant_to_sp :
    decode defaultTables .strict [0x18, 0x04, 0, 0x04, 0x02, 0x08, 0, 0, 0, 0, 0, 0, 0, 0x04,
      0x40, 0x03, 0, 0, 0, 0, 0, 0, 0, 0] =
      .ok (.move .qword [.const .constantFloat 0 0x4004000000000000, .special .registerSp 0], 24)
        := by
  decide

/-- V-DM19. -/
theorem test_decode_mode_to_pc :
    decode defaultTables .strict [0x18, 0x04, 0, 0x04, 0x02, 0x07, 0, 0x40, 0, 0, 0, 0, 0, 0, 0,
      0x04, 0, 0, 0, 0, 0, 0, 0, 0] =
      .ok (.move .qword [.const .constantInteger 0 64, .special .registerPc 0], 24) := by
  decide

/-- V-DM26. -/
theorem test_decode_mode_to_flags :
    decode defaultTables .strict [0x18, 0x04, 0, 0x04, 0x02, 0x07, 0, 0x0f, 0, 0, 0, 0, 0, 0, 0,
      0x05, 0, 0, 0, 0, 0, 0, 0, 0] =
      .ok (.move .qword [.const .constantInteger 0 0xF, .special .registerFlags 0], 24) := by
  decide

/-- V-RS8. -/
theorem test_decode_mode_from_status :
    decode defaultTables .strict [0x10, 0x04, 0, 0x04, 0x02, 0x06, 0, 0x01, 0, 0, 0, 0, 0, 0, 0,
      0] =
      .ok (.move .qword [.special .registerStatus 0, .reg .registerInteger 0], 16) := by
  decide

/-- The tags of the two constant post modes, 14 and 16, with their index byte kept (30_encoding.md R97,
R113). -/
theorem test_decode_mode_constant_post :
    decode defaultTables .strict [0x20, 0x04, 0, 0x04, 0x02, 0x0e, 0x07, 0x02, 0, 0, 0, 0, 0, 0, 0,
      0x10, 0x09, 0x03, 0, 0, 0, 0, 0, 0, 0, 0, 0, 0, 0, 0, 0, 0] =
      .ok (.move .qword [.const .incrementConstantPost 7 2, .const .decrementConstantPost 9 3], 32) := by
  decide

/-- Other number tables: nop and exit change places, and so do the tags 1 and 2, and the codes of byte
and qword (30_encoding.md R96, R97, R99, log entry 4). -/
def swappedTables : NumberTables where
  opcodeNum := (defaultTables.opcodeNum.set 0 43).set 42 1
  modeTag := (defaultTables.modeTag.set 0 2).set 1 1
  sizeCode := (defaultTables.sizeCode.set 1 4).set 4 1

theorem swappedTables_valid : swappedTables.Valid := by decide

/-- The bytes follow the tables, both ways: `push.qw I3`, `exit`, and opcode 44, which neither has. -/
theorem test_swapped_tables :
    decode swappedTables .strict [0x08, 0x05, 0, 0x01, 0x01, 0x02, 0x03, 0] =
      .ok (.push .qword [.reg .registerInteger 3], 8) ∧
    encode swappedTables (.push .qword [.reg .registerInteger 3]) =
      [0x08, 0x05, 0, 0x01, 0x01, 0x02, 0x03, 0] ∧
    decode swappedTables .strict [0x08, 0x01, 0, 0, 0, 0, 0, 0] = .ok (.exit .none [], 8) ∧
    decode swappedTables .strict [0x08, 0x2c, 0, 0, 0, 0, 0, 0] = .error .s001 := by decide

/-- The table word of `add I0, I1, I2` without its size byte is the same instruction (log entry 10). -/
theorem test_table_word :
    decodeTableWord 128 0x0201010100010304000700 =
      some (.add .qword [.reg .registerInteger 0, .reg .registerInteger 1, .reg .registerInteger 2]) := by
  decide

/-! ### Single steps -/

/-- A machine after reset with the bytes at address 0 and some registers set. -/
def testMachine (cfg : Config) (bytes : List Byte) (set : State → State) : State :=
  set (State.boot cfg (Memory.writeBytes [] 0 bytes))

/-- The next state of a step, if it has one. -/
def testNext (o : Host.Outcome State Fault Refusal) : Option State :=
  match o with
  | .next t => some t
  | .fault _ => none
  | .refused _ => none

/-- What a test looks at after a step. -/
def testStep (s : State) : Option (Word × Status × List String × State) :=
  (testNext (step s)).map fun t => (t.pc, t.status, t.sink.map (·.code), t)

/-- The placed table word is what the next step runs (V-AR1, with zero registers). -/
theorem test_withFetchWord :
    testNext (step (State.reset.withFetchWord 128 0x0201010100010304000710)) =
      testNext (exec (.add .qword [.reg .registerInteger 0, .reg .registerInteger 1,
        .reg .registerInteger 2]) (advance (State.reset.withFetchWord 128
          0x0201010100010304000710) 16)) := by decide


/-- V-EN1: misaligned pc -/
theorem test_step_en1 :
    (testStep (testMachine launchConfig [0x08, 0x01, 0, 0, 0, 0, 0, 0] (fun s => s.setPc
      0x4))).map (fun x => (x.1, x.2.1, x.2.2.1)) =
      some (4, .faulted .b003, ["B003"]) := by
  decide

/-- V-EN2: opcode 0 (zeroed memory) -/
theorem test_step_en2 :
    (testStep (testMachine launchConfig [0, 0, 0, 0, 0, 0, 0, 0] id)).map (fun x => (x.1, x.2.1,
      x.2.2.1)) =
      some (0, .faulted .s001, ["S001"]) := by
  decide

/-- V-EN11: byte 0 = 16, computed 8, SIZE_BYTE_POLICY = trust_byte0 -/
theorem test_step_en11 :
    (testStep (testMachine { launchConfig with sizeBytePolicy := .trustByte0 } [0x10, 0x01, 0, 0,
      0, 0, 0, 0] id)).map (fun x => (x.1, x.2.1, x.2.2.1)) =
      some (16, .running, []) := by
  decide

/-- V-EN12: a constant payload past the end of memory (HEAP_SIZE = 8) -/
theorem test_step_en12 :
    (testStep (testMachine { launchConfig with heapSize := 8 } [0x18, 0x05, 0, 0x04, 0x01, 0x07,
      0, 0] id)).map (fun x => (x.1, x.2.1, x.2.2.1)) =
      some (0, .faulted .memUndefined, []) := by
  decide

/-- V-EN13b: push.qw I1 with HEAP_SIZE = 8: the push overwrites the instruction itself -/
theorem test_step_en13b :
    (testStep (testMachine { launchConfig with heapSize := 8 } [0x08, 0x05, 0, 0x04, 0x01, 0x01,
      0x01, 0] (fun s => s.setI 1 0x55))).map (fun x => (x.1, x.2.1, x.2.2.1, x.2.2.2.sp,
      Memory.bytes x.2.2.2.mem 0 8)) =
      some (8, .running, [], 0, [0x55, 0, 0, 0, 0, 0, 0, 0]) := by
  decide

/-- V-SQ4: tbz.none 96, 1 -/
theorem test_step_sq4 :
    (testStep (testMachine { launchConfig with reservedOpMode := .referenceNop } [0x20, 0x1b, 0,
      0, 0x02, 0x07, 0, 0x60, 0, 0, 0, 0, 0, 0, 0, 0x07, 0, 0x01, 0, 0, 0, 0, 0, 0, 0, 0, 0, 0, 0,
      0, 0, 0] (fun s => s.setFr 0x1))).map (fun x => (x.1, x.2.1, x.2.2.1)) =
      some (32, .running, []) := by
  decide

/-- V-RS3: add I0, -I1, I1- -/
theorem test_step_rs3 :
    (testStep (testMachine launchConfig [0x10, 0x07, 0, 0x04, 0x03, 0x01, 0, 0x0b, 0x01, 0x0c,
      0x01, 0, 0, 0, 0, 0] (fun s => s.setI 1 0x5))).map (fun x => (x.1, x.2.1, x.2.2.1,
      x.2.2.2.getI 0, x.2.2.2.getI 1)) =
      some (16, .running, [], 8, 3) := by
  decide

/-- V-RS5: move.qw F1, fr -/
theorem test_step_rs5 :
    (testStep (testMachine launchConfig [0x10, 0x04, 0, 0x04, 0x02, 0x02, 0x01, 0x05, 0, 0, 0, 0,
      0, 0, 0, 0] (fun s => s.setF 1 0x3ff0000000000000))).map (fun x => (x.1, x.2.1, x.2.2.1)) =
      some (16, .faulted .b009, ["B009"]) := by
  decide

/-- V-RS10: move.qw I1, F1 -/
theorem test_step_rs10 :
    (testStep (testMachine launchConfig [0x10, 0x04, 0, 0x04, 0x02, 0x01, 0x01, 0x02, 0x01, 0, 0,
      0, 0, 0, 0, 0] (fun s => s.setI 1 0xffffffffffffffff))).map (fun x => (x.1, x.2.1, x.2.2.1,
      x.2.2.2.getF 1)) =
      some (16, .running, [], 0x43F0000000000000) := by
  decide

/-- V-DM1: load.qw I0, I1, 8 -/
theorem test_step_dm1 :
    (testStep (testMachine { launchConfig with heapSize := 512 } [0x18, 0x02, 0, 0x04, 0x03, 0x01,
      0, 0x01, 0x01, 0x07, 0, 0x08, 0, 0, 0, 0, 0, 0, 0, 0, 0, 0, 0, 0] (fun s => (s.setI 1
      0x100).setMem (Memory.writeBytes s.mem 264 (leBytes 8 0x1122334455667788))))).map (fun x =>
      (x.1, x.2.1, x.2.2.1, x.2.2.2.getI 0)) =
      some (24, .running, [], 0x1122334455667788) := by
  decide

/-- V-DM9: load.b I0, 128 -/
theorem test_step_dm9 :
    (testStep (testMachine { launchConfig with sizedMemory := true } [0x18, 0x02, 0, 0x01, 0x02,
      0x01, 0, 0x07, 0, 0x80, 0, 0, 0, 0, 0, 0, 0, 0, 0, 0, 0, 0, 0, 0] (fun s => s.setMem
      (Memory.writeBytes s.mem 128 (leBytes 8 0x1122334455667788))))).map (fun x => (x.1, x.2.1,
      x.2.2.1, x.2.2.2.getI 0)) =
      some (24, .running, [], 0x88) := by
  decide

/-- V-DM11: store.qw I1+, I1 -/
theorem test_step_dm11 :
    (testStep (testMachine launchConfig [0x10, 0x03, 0, 0x04, 0x02, 0x0a, 0x01, 0x01, 0x01, 0, 0,
      0, 0, 0, 0, 0] (fun s => s.setI 1 0x80))).map (fun x => (x.1, x.2.1, x.2.2.1, x.2.2.2.getI
      1, Memory.bytes x.2.2.2.mem 129 8)) =
      some (16, .running, [], 0x81, [0x80, 0, 0, 0, 0, 0, 0, 0]) := by
  decide

/-- V-DM13: store.w I2, 128 -/
theorem test_step_dm13 :
    (testStep (testMachine { launchConfig with sizedMemory := true } [0x18, 0x03, 0, 0x02, 0x02,
      0x01, 0x02, 0x07, 0, 0x80, 0, 0, 0, 0, 0, 0, 0, 0, 0, 0, 0, 0, 0, 0] (fun s => s.setI 2
      0x11223344))).map (fun x => (x.1, x.2.1, x.2.2.1, Memory.bytes x.2.2.2.mem 128 2)) =
      some (24, .running, [], [0x44, 0x33]) := by
  decide

/-- V-DM28: push.qw sp -/
theorem test_step_dm28 :
    (testStep (testMachine launchConfig [0x08, 0x05, 0, 0x04, 0x01, 0x03, 0, 0] id)).map (fun x =>
      (x.1, x.2.1, x.2.2.1, x.2.2.2.sp, Memory.bytes x.2.2.2.mem 248 8)) =
      some (8, .running, [], 248, [0, 0x01, 0, 0, 0, 0, 0, 0]) := by
  decide

/-- V-DM30: push.qw I1 -/
theorem test_step_dm30 :
    (testStep (testMachine launchConfig [0x08, 0x05, 0, 0x04, 0x01, 0x01, 0x01, 0] (fun s =>
      s.setSp 0x4))).map (fun x => (x.1, x.2.1, x.2.2.1, x.2.2.2.sp)) =
      some (8, .faulted .memUndefined, [], 18446744073709551612) := by
  decide

/-- V-DM32: pop.qw sp -/
theorem test_step_dm32 :
    (testStep (testMachine launchConfig [0x08, 0x06, 0, 0x04, 0x01, 0x03, 0, 0] (fun s => (s.setSp
      0xf8).setMem (Memory.writeBytes s.mem 248 (leBytes 8 0x40))))).map (fun x => (x.1, x.2.1,
      x.2.2.1, x.2.2.2.sp)) =
      some (8, .running, [], 64) := by
  decide

/-- V-DM33: pop.qw 5 -/
theorem test_step_dm33 :
    (testStep (testMachine launchConfig [0x10, 0x06, 0, 0x04, 0x01, 0x07, 0, 0x05, 0, 0, 0, 0, 0,
      0, 0, 0] (fun s => (s.setSp 0xf8).setMem (Memory.writeBytes s.mem 248 (leBytes 8
      0x5))))).map (fun x => (x.1, x.2.1, x.2.2.1, x.2.2.2.sp)) =
      some (16, .faulted .b006, ["B006"], 256) := by
  decide

/-- V-DM39: nop.none I1+ -/
theorem test_step_dm39 :
    (testStep (testMachine launchConfig [0x08, 0x01, 0, 0, 0x01, 0x0a, 0x01, 0] (fun s => s.setI 1
      0x9))).map (fun x => (x.1, x.2.1, x.2.2.1)) =
      some (8, .running, []) := by
  decide

/-- V-AR3: add.b I0, I1, I2 -/
theorem test_step_ar3 :
    (testStep (testMachine launchConfig [0x10, 0x07, 0, 0x01, 0x03, 0x01, 0, 0x01, 0x01, 0x01,
      0x02, 0, 0, 0, 0, 0] (fun s => (s.setI 1 0xff).setI 2 0x1))).map (fun x => (x.1, x.2.1,
      x.2.2.1, x.2.2.2.getI 0)) =
      some (16, .running, [], 0x100) := by
  decide

/-- V-AR8: sub I0, I1, I2 -/
theorem test_step_ar8 :
    (testStep (testMachine launchConfig [0x10, 0x08, 0, 0x04, 0x03, 0x01, 0, 0x01, 0x01, 0x01,
      0x02, 0, 0, 0, 0, 0] (fun s => (s.setI 1 0x3).setI 2 0x5))).map (fun x => (x.1, x.2.1,
      x.2.2.1, x.2.2.2.getI 0)) =
      some (16, .running, [], 0xFFFFFFFFFFFFFFFE) := by
  decide

/-- V-AR11: mul I0, I1, I1 -/
theorem test_step_ar11 :
    (testStep (testMachine launchConfig [0x10, 0x09, 0, 0x04, 0x03, 0x01, 0, 0x01, 0x01, 0x01,
      0x01, 0, 0, 0, 0, 0] (fun s => s.setI 1 0xffffffffffffffff))).map (fun x => (x.1, x.2.1,
      x.2.2.1, x.2.2.2.getI 0)) =
      some (16, .running, [], 1) := by
  decide

/-- V-AR12: div I0, I1, I2 -/
theorem test_step_ar12 :
    (testStep (testMachine launchConfig [0x10, 0x0a, 0, 0x04, 0x03, 0x01, 0, 0x01, 0x01, 0x01,
      0x02, 0, 0, 0, 0, 0] (fun s => ((s.setI 0 0xee).setI 1 0x7).setI 2 0x0))).map (fun x =>
      (x.1, x.2.1, x.2.2.1, x.2.2.2.getI 0)) =
      some (16, .running, [], 0) := by
  decide

/-- V-AR13: div I0, I1, I2 -/
theorem test_step_ar13 :
    (testStep (testMachine launchConfig [0x10, 0x0a, 0, 0x04, 0x03, 0x01, 0, 0x01, 0x01, 0x01,
      0x02, 0, 0, 0, 0, 0] (fun s => (s.setI 1 0xffffffffffffffff).setI 2 0x2))).map (fun x =>
      (x.1, x.2.1, x.2.2.1, x.2.2.2.getI 0)) =
      some (16, .running, [], 0x7FFFFFFFFFFFFFFF) := by
  decide

/-- V-AR17: mod I0, I1, I2 -/
theorem test_step_ar17 :
    (testStep (testMachine { launchConfig with modZeroPolicy := .fault } [0x10, 0x0b, 0, 0x04,
      0x03, 0x01, 0, 0x01, 0x01, 0x01, 0x02, 0, 0, 0, 0, 0] (fun s => (s.setI 1 0x7).setI 2
      0x0))).map (fun x => (x.1, x.2.1, x.2.2.1)) =
      some (16, .faulted .modByZeroUndefined, []) := by
  decide

/-- V-AR18: mod I0, I1, 10 -/
theorem test_step_ar18 :
    (testStep (testMachine launchConfig [0x18, 0x0b, 0, 0x04, 0x03, 0x01, 0, 0x01, 0x01, 0x07, 0,
      0x0a, 0, 0, 0, 0, 0, 0, 0, 0, 0, 0, 0, 0] (fun s => s.setI 1 0xffffffffffffffff))).map (fun
      x => (x.1, x.2.1, x.2.2.1, x.2.2.2.getI 0)) =
      some (24, .running, [], 5) := by
  decide

/-- V-AR21: neg.b I0, I1 -/
theorem test_step_ar21 :
    (testStep (testMachine launchConfig [0x10, 0x0c, 0, 0x01, 0x02, 0x01, 0, 0x01, 0x01, 0, 0, 0,
      0, 0, 0, 0] (fun s => s.setI 1 0x1ff))).map (fun x => (x.1, x.2.1, x.2.2.1, x.2.2.2.getI 0))
      =
      some (16, .running, [], 1) := by
  decide

/-- V-AR26: neg.w I0, I1 -/
theorem test_step_ar26 :
    (testStep (testMachine { launchConfig with reservedOpMode := .referenceNop } [0x10, 0x0c, 0,
      0x02, 0x02, 0x01, 0, 0x01, 0x01, 0, 0, 0, 0, 0, 0, 0] (fun s => s.setI 1 0x1))).map (fun x
      => (x.1, x.2.1, x.2.2.1)) =
      some (16, .running, []) := by
  decide

/-- V-LS1: shr.b I0, I1, 1 -/
theorem test_step_ls1 :
    (testStep (testMachine launchConfig [0x18, 0x0d, 0, 0x01, 0x03, 0x01, 0, 0x01, 0x01, 0x07, 0,
      0x01, 0, 0, 0, 0, 0, 0, 0, 0, 0, 0, 0, 0] (fun s => s.setI 1 0x181))).map (fun x => (x.1,
      x.2.1, x.2.2.1, x.2.2.2.getI 0)) =
      some (24, .running, [], 0x40) := by
  decide

/-- V-LS4: shr.qw I0, I1, I2 -/
theorem test_step_ls4 :
    (testStep (testMachine launchConfig [0x10, 0x0d, 0, 0x04, 0x03, 0x01, 0, 0x01, 0x01, 0x01,
      0x02, 0, 0, 0, 0, 0] (fun s => ((s.setI 0 0xee).setI 1 0xff).setI 2
      0xffffffffffffffff))).map (fun x => (x.1, x.2.1, x.2.2.1, x.2.2.2.getI 0)) =
      some (16, .running, [], 0) := by
  decide

/-- V-LS6: shl.dw I0, I1, 31 -/
theorem test_step_ls6 :
    (testStep (testMachine launchConfig [0x18, 0x0e, 0, 0x03, 0x03, 0x01, 0, 0x01, 0x01, 0x07, 0,
      0x1f, 0, 0, 0, 0, 0, 0, 0, 0, 0, 0, 0, 0] (fun s => s.setI 1 0x3))).map (fun x => (x.1,
      x.2.1, x.2.2.1, x.2.2.2.getI 0)) =
      some (24, .running, [], 0x80000000) := by
  decide

/-- V-LS10: ror.b I0, I1, 9 -/
theorem test_step_ls10 :
    (testStep (testMachine launchConfig [0x18, 0x0f, 0, 0x01, 0x03, 0x01, 0, 0x01, 0x01, 0x07, 0,
      0x09, 0, 0, 0, 0, 0, 0, 0, 0, 0, 0, 0, 0] (fun s => s.setI 1 0x1))).map (fun x => (x.1,
      x.2.1, x.2.2.1, x.2.2.2.getI 0)) =
      some (24, .running, [], 0x80) := by
  decide

/-- V-LS13: rol.qw I0, I1, 4 -/
theorem test_step_ls13 :
    (testStep (testMachine launchConfig [0x18, 0x10, 0, 0x04, 0x03, 0x01, 0, 0x01, 0x01, 0x07, 0,
      0x04, 0, 0, 0, 0, 0, 0, 0, 0, 0, 0, 0, 0] (fun s => s.setI 1 0xf000000000000001))).map (fun
      x => (x.1, x.2.1, x.2.2.1, x.2.2.2.getI 0)) =
      some (24, .running, [], 0x1F) := by
  decide

/-- V-LS15: and.b I0, I1, I2 -/
theorem test_step_ls15 :
    (testStep (testMachine launchConfig [0x10, 0x11, 0, 0x01, 0x03, 0x01, 0, 0x01, 0x01, 0x01,
      0x02, 0, 0, 0, 0, 0] (fun s => ((s.setI 0 0xee).setI 1 0xf0f0).setI 2 0xff00))).map (fun x
      => (x.1, x.2.1, x.2.2.1, x.2.2.2.getI 0)) =
      some (16, .running, [], 0) := by
  decide

/-- V-LS16: or.w I0, I1, I2 -/
theorem test_step_ls16 :
    (testStep (testMachine launchConfig [0x10, 0x12, 0, 0x02, 0x03, 0x01, 0, 0x01, 0x01, 0x01,
      0x02, 0, 0, 0, 0, 0] (fun s => (s.setI 1 0xf0f0).setI 2 0xff00))).map (fun x => (x.1, x.2.1,
      x.2.2.1, x.2.2.2.getI 0)) =
      some (16, .running, [], 0xFFF0) := by
  decide

/-- V-LS17: xor.qw I0, I1, I2 -/
theorem test_step_ls17 :
    (testStep (testMachine launchConfig [0x10, 0x13, 0, 0x04, 0x03, 0x01, 0, 0x01, 0x01, 0x01,
      0x02, 0, 0, 0, 0, 0] (fun s => (s.setI 1 0xf0f0).setI 2 0xff00))).map (fun x => (x.1, x.2.1,
      x.2.2.1, x.2.2.2.getI 0)) =
      some (16, .running, [], 0xFF0) := by
  decide

/-- V-LS19: not.b I0, I1 -/
theorem test_step_ls19 :
    (testStep (testMachine launchConfig [0x10, 0x14, 0, 0x01, 0x02, 0x01, 0, 0x01, 0x01, 0, 0, 0,
      0, 0, 0, 0] (fun s => s.setI 1 0xf))).map (fun x => (x.1, x.2.1, x.2.2.1, x.2.2.2.getI 0)) =
      some (16, .running, [], 0xF0) := by
  decide

/-- V-LS22: bis.b I0, I1, 8 -/
theorem test_step_ls22 :
    (testStep (testMachine launchConfig [0x18, 0x15, 0, 0x01, 0x03, 0x01, 0, 0x01, 0x01, 0x07, 0,
      0x08, 0, 0, 0, 0, 0, 0, 0, 0, 0, 0, 0, 0] (fun s => (s.setI 0 0xee).setI 1 0x0))).map (fun x
      => (x.1, x.2.1, x.2.2.1, x.2.2.2.getI 0)) =
      some (24, .running, [], 0) := by
  decide

/-- V-LS23: bic.b I0, I1, 0 -/
theorem test_step_ls23 :
    (testStep (testMachine launchConfig [0x18, 0x16, 0, 0x01, 0x03, 0x01, 0, 0x01, 0x01, 0x07, 0,
      0, 0, 0, 0, 0, 0, 0, 0, 0, 0, 0, 0, 0] (fun s => s.setI 1 0xff))).map (fun x => (x.1, x.2.1,
      x.2.2.1, x.2.2.2.getI 0)) =
      some (24, .running, [], 0xFE) := by
  decide

/-- V-LS27: test.qw I1, I1 -/
theorem test_step_ls27 :
    (testStep (testMachine launchConfig [0x10, 0x17, 0, 0x04, 0x02, 0x01, 0x01, 0x01, 0x01, 0, 0,
      0, 0, 0, 0, 0] (fun s => (s.setI 1 0x8000000000000000).setFr 0x30))).map (fun x => (x.1,
      x.2.1, x.2.2.1, x.2.2.2.fr)) =
      some (16, .running, [], 0x38) := by
  decide

/-- V-LS29: cmp.b 0x80, 1 -/
theorem test_step_ls29 :
    (testStep (testMachine launchConfig [0x20, 0x18, 0, 0x01, 0x02, 0x07, 0, 0x80, 0, 0, 0, 0, 0,
      0, 0, 0x07, 0, 0x01, 0, 0, 0, 0, 0, 0, 0, 0, 0, 0, 0, 0, 0, 0] id)).map (fun x => (x.1,
      x.2.1, x.2.2.1, x.2.2.2.fr)) =
      some (32, .running, [], 4) := by
  decide

/-- V-LS31: cmp.qw I1, I2 -/
theorem test_step_ls31 :
    (testStep (testMachine launchConfig [0x10, 0x18, 0, 0x04, 0x02, 0x01, 0x01, 0x01, 0x02, 0, 0,
      0, 0, 0, 0, 0] (fun s => (s.setI 1 0x7fffffffffffffff).setI 2 0xffffffffffffffff))).map (fun
      x => (x.1, x.2.1, x.2.2.1, x.2.2.2.fr)) =
      some (16, .running, [], 0xE) := by
  decide

/-- V-CT2: jsr.qw sp -/
theorem test_step_ct2 :
    (testStep (testMachine launchConfig [0x08, 0x26, 0, 0x04, 0x01, 0x03, 0, 0] id)).map (fun x =>
      (x.1, x.2.1, x.2.2.1, x.2.2.2.sp, Memory.bytes x.2.2.2.mem 248 8)) =
      some (248, .running, [], 248, [0x08, 0, 0, 0, 0, 0, 0, 0]) := by
  decide

/-- V-CT3: jsr.none 32 -/
theorem test_step_ct3 :
    (testStep (testMachine launchConfig [0x10, 0x26, 0, 0, 0x01, 0x07, 0, 0x20, 0, 0, 0, 0, 0, 0,
      0, 0] id)).map (fun x => (x.1, x.2.1, x.2.2.1, x.2.2.2.sp, Memory.bytes x.2.2.2.mem 248 8))
      =
      some (16, .faulted .b005, ["B005"], 248, [0x10, 0, 0, 0, 0, 0, 0, 0]) := by
  decide

/-- V-CT5: rts -/
theorem test_step_ct5 :
    (testStep (testMachine launchConfig [0x08, 0x27, 0, 0, 0, 0, 0, 0] (fun s => (s.setSp
      0xf8).setMem (Memory.writeBytes s.mem 248 (leBytes 8 0x10))))).map (fun x => (x.1, x.2.1,
      x.2.2.1, x.2.2.2.sp)) =
      some (16, .running, [], 256) := by
  decide

/-- V-CT8: jmp.qw I3+ -/
theorem test_step_ct8 :
    (testStep (testMachine launchConfig [0x08, 0x28, 0, 0x04, 0x01, 0x0a, 0x03, 0] (fun s =>
      s.setI 3 0x28))).map (fun x => (x.1, x.2.1, x.2.2.1, x.2.2.2.getI 3)) =
      some (40, .running, [], 0x29) := by
  decide

/-- V-CT11: bz.qw 96 -/
theorem test_step_ct11 :
    (testStep (testMachine launchConfig [0x10, 0x19, 0, 0x04, 0x01, 0x07, 0, 0x60, 0, 0, 0, 0, 0,
      0, 0, 0] (fun s => s.setFr 0x1))).map (fun x => (x.1, x.2.1, x.2.2.1)) =
      some (96, .running, []) := by
  decide

/-- V-CT13: bnz.qw 96 -/
theorem test_step_ct13 :
    (testStep (testMachine launchConfig [0x10, 0x1a, 0, 0x04, 0x01, 0x07, 0, 0x60, 0, 0, 0, 0, 0,
      0, 0, 0] (fun s => s.setFr 0x0))).map (fun x => (x.1, x.2.1, x.2.2.1)) =
      some (96, .running, []) := by
  decide

/-- V-CT14: beq.qw 96 -/
theorem test_step_ct14 :
    (testStep (testMachine launchConfig [0x10, 0x1e, 0, 0x04, 0x01, 0x07, 0, 0x60, 0, 0, 0, 0, 0,
      0, 0, 0] (fun s => s.setFr 0x1))).map (fun x => (x.1, x.2.1, x.2.2.1)) =
      some (96, .running, []) := by
  decide

/-- V-CT15: bne.qw 48 -/
theorem test_step_ct15 :
    (testStep (testMachine launchConfig [0x10, 0x1d, 0, 0x04, 0x01, 0x07, 0, 0x30, 0, 0, 0, 0, 0,
      0, 0, 0] (fun s => s.setFr 0xa))).map (fun x => (x.1, x.2.1, x.2.2.1)) =
      some (48, .running, []) := by
  decide

/-- V-CT17: bae.qw 96 -/
theorem test_step_ct17 :
    (testStep (testMachine launchConfig [0x10, 0x1f, 0, 0x04, 0x01, 0x07, 0, 0x60, 0, 0, 0, 0, 0,
      0, 0, 0] (fun s => s.setFr 0x2))).map (fun x => (x.1, x.2.1, x.2.2.1)) =
      some (16, .running, []) := by
  decide

/-- V-CT19: ba.qw 96 -/
theorem test_step_ct19 :
    (testStep (testMachine launchConfig [0x10, 0x20, 0, 0x04, 0x01, 0x07, 0, 0x60, 0, 0, 0, 0, 0,
      0, 0, 0] (fun s => s.setFr 0x1))).map (fun x => (x.1, x.2.1, x.2.2.1)) =
      some (16, .running, []) := by
  decide

/-- V-CT21: ble.qw 96 -/
theorem test_step_ct21 :
    (testStep (testMachine launchConfig [0x10, 0x21, 0, 0x04, 0x01, 0x07, 0, 0x60, 0, 0, 0, 0, 0,
      0, 0, 0] (fun s => s.setFr 0x2))).map (fun x => (x.1, x.2.1, x.2.2.1)) =
      some (96, .running, []) := by
  decide

/-- V-CT24: bl.qw 96 -/
theorem test_step_ct24 :
    (testStep (testMachine launchConfig [0x10, 0x22, 0, 0x04, 0x01, 0x07, 0, 0x60, 0, 0, 0, 0, 0,
      0, 0, 0] (fun s => s.setFr 0x0))).map (fun x => (x.1, x.2.1, x.2.2.1)) =
      some (16, .running, []) := by
  decide

/-- V-CT26: bo.qw 96 -/
theorem test_step_ct26 :
    (testStep (testMachine launchConfig [0x10, 0x23, 0, 0x04, 0x01, 0x07, 0, 0x60, 0, 0, 0, 0, 0,
      0, 0, 0] (fun s => s.setFr 0xb))).map (fun x => (x.1, x.2.1, x.2.2.1)) =
      some (16, .running, []) := by
  decide

/-- V-CT27: bcc.qw 96 -/
theorem test_step_ct27 :
    (testStep (testMachine launchConfig [0x10, 0x24, 0, 0x04, 0x01, 0x07, 0, 0x60, 0, 0, 0, 0, 0,
      0, 0, 0] (fun s => s.setFr 0x0))).map (fun x => (x.1, x.2.1, x.2.2.1)) =
      some (96, .running, []) := by
  decide

/-- V-CT28: bcs.qw 96 -/
theorem test_step_ct28 :
    (testStep (testMachine launchConfig [0x10, 0x25, 0, 0x04, 0x01, 0x07, 0, 0x60, 0, 0, 0, 0, 0,
      0, 0, 0] (fun s => s.setFr 0x2))).map (fun x => (x.1, x.2.1, x.2.2.1)) =
      some (96, .running, []) := by
  decide

/-- V-CT32: tbz.qw 96, 64 -/
theorem test_step_ct32 :
    (testStep (testMachine launchConfig [0x20, 0x1b, 0, 0x04, 0x02, 0x07, 0, 0x60, 0, 0, 0, 0, 0,
      0, 0, 0x07, 0, 0x40, 0, 0, 0, 0, 0, 0, 0, 0, 0, 0, 0, 0, 0, 0] (fun s => s.setFr
      0xffffffffffffffff))).map (fun x => (x.1, x.2.1, x.2.2.1)) =
      some (96, .running, []) := by
  decide

/-- V-CT33: tbnz.qw 96, 40 -/
theorem test_step_ct33 :
    (testStep (testMachine launchConfig [0x20, 0x1c, 0, 0x04, 0x02, 0x07, 0, 0x60, 0, 0, 0, 0, 0,
      0, 0, 0x07, 0, 0x28, 0, 0, 0, 0, 0, 0, 0, 0, 0, 0, 0, 0, 0, 0] (fun s => s.setFr
      0x10000000000))).map (fun x => (x.1, x.2.1, x.2.2.1)) =
      some (96, .running, []) := by
  decide

/-- V-CT34: bne.qw I3+ -/
theorem test_step_ct34 :
    (testStep (testMachine launchConfig [0x08, 0x1d, 0, 0x04, 0x01, 0x0a, 0x03, 0] (fun s =>
      (s.setI 3 0x28).setFr 0x1))).map (fun x => (x.1, x.2.1, x.2.2.1, x.2.2.2.getI 3)) =
      some (8, .running, [], 0x29) := by
  decide

/-- V-SY1: exit -/
theorem test_step_sy1 :
    (testStep (testMachine launchConfig [0x08, 0x2b, 0, 0, 0, 0, 0, 0] id)).map (fun x => (x.1,
      x.2.1, x.2.2.1)) =
      some (8, .halted, []) := by
  decide

/-- V-SY3: debug -/
theorem test_step_sy3 :
    (testStep (testMachine launchConfig (List.replicate 8 0 ++ [0x08, 0x2a, 0, 0, 0, 0, 0, 0])
      (fun s => s.setPc 8))).map (fun x => (x.1, x.2.1, x.2.2.1)) =
      some (16, .running, []) := by
  decide

/-- V-SY5: meta.none 5, I1+ -/
theorem test_step_sy5 :
    (testStep (testMachine launchConfig [0x18, 0x29, 0, 0, 0x02, 0x07, 0, 0x05, 0, 0, 0, 0, 0, 0,
      0, 0x0a, 0x01, 0, 0, 0, 0, 0, 0, 0] (fun s => s.setI 1 0x3))).map (fun x => (x.1, x.2.1,
      x.2.2.1)) =
      some (24, .running, []) := by
  decide

/-! ### A witness for the hypotheses of every statement

Each theorem `witness_<name>` meets all hypotheses of `Obligations.<Name>` together, at boundary values
where a clause has a range. -/

/-- Operands the witnesses use. -/
def wI (i : Byte) : Operand := .reg .registerInteger i
def wF (i : Byte) : Operand := .reg .registerFloat i
def wC (p : Word) : Operand := .const .constantInteger 0 p

/-- A machine in reset with bytes placed at the pc. -/
def wAt (s : State) (i : Instr) : State := s.setMem (Memory.writeBytes s.mem s.pc.toNat (encode s.cfg.tables i))

/-- The longest instruction, with the highest register and an index on a constant. -/
def wLong : Instr :=
  .nop .byte [wC 1, .const .constantFloat 255 2, wC 3, .const .decrementConstantPost 7 4]

theorem witness_EncodeThenDecodeGivesInstruction :
    defaultTables.Valid ∧ swappedTables.Valid ∧ wLong.wellFormed = true ∧ (Instr.push .qword [wI 63]).wellFormed = true ∧
    (Instr.exit .none []).wellFormed = true :=
  ⟨defaultTables_valid, swappedTables_valid, by decide⟩

theorem witness_LoadedInstructionIsFetched :
    State.reset.cfg.Valid ∧ State.reset.MemoryOk ∧ State.reset.status ≠ .uninitialised ∧
    wLong.wellFormed = true ∧ (208 : Word).toNat % 8 = 0 ∧
    (208 : Word).toNat + encodedSize wLong.operands = State.reset.cfg.heapSize := by decide

theorem witness_StrictDecodeAcceptsOnlyEncodings :
    decode defaultTables .strict [0x08, 0x05, 0, 0x04, 0x01, 0x03, 0xc8, 0x77] =
      .ok (.push .qword [.special .registerSp 200], 8) := by decide

theorem witness_SizeBytePoliciesDifferOnlyOnMismatch :
    decode defaultTables .strict [0x10, 0x01, 0, 0, 0, 0, 0, 0] = .error .s005 ∧
    decode defaultTables .trustByte0 [0x10, 0x01, 0, 0, 0, 0, 0, 0] = .ok (.nop .none [], 16) ∧
    decode defaultTables .trustByte0 [0x08, 0x01, 0, 0, 0, 0, 0, 0] = .ok (.nop .none [], 8) ∧
    decode defaultTables .strict [0x08, 0x01, 0, 0, 0, 0, 0, 0] ≠ .error .s005 := by decide

theorem witness_StepRunsTheDecodedInstruction :
    (wAt (State.reset.setPc 248) (.exit .none [])).status = .running ∧
    (wAt (State.reset.setPc 248) (.exit .none [])).pc.toNat % 8 = 0 ∧
    decode State.reset.cfg.tables State.reset.cfg.sizeBytePolicy (fetchWindow (wAt (State.reset.setPc 248) (.exit .none []))) =
      .ok (.exit .none [], 8) := by decide

theorem witness_MisalignedPcRaisesB003 :
    (State.reset.setPc 7).status = .running ∧ (State.reset.setPc 7).pc.toNat % 8 ≠ 0 := by decide

theorem witness_DecodeErrorsChangeNoRegister :
    State.reset.status = .running ∧ State.reset.pc.toNat % 8 = 0 ∧
    decode State.reset.cfg.tables State.reset.cfg.sizeBytePolicy (fetchWindow State.reset) = .error .s001 ∧
    decode State.reset.cfg.tables State.reset.cfg.sizeBytePolicy (fetchWindow (State.reset.setPc 256)) =
      .error .memUndefined := by decide

theorem witness_NoStepOutsideRunning :
    (State.construct launchConfig).status = .uninitialised ∧
    (State.reset.setStatus .halted).status = .halted ∧
    (State.reset.setStatus (.faulted .s001)).status = .faulted .s001 ∧
    State.reset.status = .running := by decide

theorem witness_StrictDecodeStaysInMemory :
    State.reset.cfg.Valid ∧ State.reset.cfg.sizeBytePolicy = .strict ∧
    fetch (wAt (State.reset.setPc 208) wLong) = .instr wLong 48 ∧
    fetch (wAt (State.reset.setPc 248) (.exit .none [])) = .instr (.exit .none []) 8 := by decide

theorem witness_WrongOperandCountRaisesS006 :
    RunsItsRule (.add .qword [wI 0, wI 1]) State.reset ∧
    (Instr.add .qword [wI 0, wI 1]).op.accepts 2 = false ∧
    (wAt State.reset (.add .qword [wI 0, wI 1])).status = .running ∧
    fetch (wAt State.reset (.add .qword [wI 0, wI 1])) = .instr (.add .qword [wI 0, wI 1]) 16 := by
  decide

theorem witness_ReservedOpcodesUnderReferenceNop :
    (Instr.cmp .none [wI 1]).op.reserved = true ∧
    (State.boot { launchConfig with reservedOpMode := .referenceNop } []).cfg.reservedOpMode =
      .referenceNop := by decide

theorem witness_SizeNoneRaisesB005 :
    (Instr.bz .none [wC 96]).size = .none ∧ (Instr.bz .none [wC 96]).op.accepts 1 = true ∧
    RunsItsRule (.bz .none [wC 96]) State.reset ∧
    (Instr.bz .none [wC 96]).op ∉ [Op.nop, .metaData, .debug, .rts, .exit, .pop, .jsr] := by decide

theorem witness_PopAndJsrMoveTheStackBeforeB005 :
    State.reset.MemoryOk ∧ (State.reset.setSp 248).sp.toNat + 8 = State.reset.cfg.heapSize ∧
    (State.reset.sp - 8).toNat + 8 = State.reset.cfg.heapSize ∧
    ((State.reset.setSp 8).sp - 8).toNat = 0 := by decide

theorem witness_NoInstructionCompletesWithAConstantTarget :
    targetOf (.add .qword [wC 5, wI 1, wI 2]) = some (wC 5) ∧ (wC 5).isConst = true ∧
    RunsItsRule (.add .qword [wC 5, wI 1, wI 2]) State.reset ∧
    (Instr.add .qword [wC 5, wI 1, wI 2]).op ≠ .pop := by decide

theorem witness_ConstantTargetRaisesB006 :
    (wC 5).isConst = true ∧ (wC 248).wellFormed = true ∧ (wC 0).wellFormed = true ∧
    RunsItsRule (.add .byte [wC 5, wC 248, wC 0]) State.reset ∧
    RunsItsRule (.neg .byte [wC 5, wC 248]) State.reset ∧
    State.reset.cfg.modZeroPolicy = .zero ∧
    (intValue (wC 248) State.reset).toNat + accessBytes .byte State.reset = State.reset.cfg.heapSize ∧
    (intValue (wC 248) State.reset + secondValue (wC 248) (wC 0) State.reset).toNat +
      accessBytes .byte State.reset = State.reset.cfg.heapSize ∧
    (State.reset.setSp 248).sp.toNat + 8 = State.reset.cfg.heapSize := by decide

theorem witness_FloatIntoSpecialRegisterRaisesB009 :
    Usable .qword (wF 63) ∧ isFloatSource (wF 63) = true ∧
    Usable .qword (.const .constantFloat 0 0) ∧ isFloatSource (.const .constantFloat 0 0) = true := by
  decide

/-- Every access starts one byte too high; the stack pointers stand at 4, 7 and 249. -/
theorem witness_OutOfBoundsAccessIsMemUndefined :
    (wI 1).wellFormed = true ∧ (wC 249).wellFormed = true ∧ (wC 0).wellFormed = true ∧
    State.reset.cfg.heapSize < (intValue (wC 249) State.reset).toNat +
      accessBytes .qword State.reset ∧
    State.reset.cfg.heapSize < (intValue (wC 249) State.reset +
      secondValue (wC 249) (wC 0) State.reset).toNat + accessBytes .qword State.reset ∧
    State.reset.cfg.heapSize < (secondValue (wI 1) (wC 249) State.reset).toNat +
      accessBytes .qword State.reset ∧
    State.reset.cfg.heapSize < (secondValue (wI 1) (wC 249) State.reset +
      secondValue (wC 249) (wC 0) (afterRead (wI 1) State.reset)).toNat +
      accessBytes .qword State.reset ∧
    State.reset.cfg.heapSize < ((State.reset.setSp 7).sp - 8).toNat + 8 ∧
    State.reset.cfg.heapSize < (State.reset.setSp 249).sp.toNat + 8 := by decide

theorem witness_MemWriteStoresExactlyItsBytes :
    8 ∈ [1, 2, 4, 8] ∧ State.reset.MemoryOk ∧
    (248 : Word).toNat + 8 = State.reset.cfg.heapSize ∧
    State.reset.cfg.heapSize < (249 : Word).toNat + 8 ∧
    State.reset.cfg.heapSize < (0xFFFFFFFFFFFFFFFF : Word).toNat + 1 := by decide

theorem witness_MemReadCombinesLittleEndian :
    8 ∈ [1, 2, 4, 8] ∧ (248 : Word).toNat + 8 = State.reset.cfg.heapSize ∧
    1 ∈ [1, 2, 4, 8] ∧ State.reset.cfg.heapSize < (256 : Word).toNat + 1 := by decide

theorem witness_WriteThenReadAtMixedWidths :
    State.reset.cfg.Valid ∧ State.reset.MemoryOk ∧ (248 : Word).toNat + 8 = State.reset.cfg.heapSize ∧
    (254 : Word).toNat + 2 = State.reset.cfg.heapSize ∧ 1 ≤ 8 := by decide

theorem witness_ResolveGivesEachModesValue :
    OperandSize.byte ≠ .none ∧ (63 : Byte).toNat = (63 : Fin 64).val ∧
    ConstMode.decrementConstantPost ≠ .constantFloat ∧ RegMode.registerInteger ≠ .registerFloat := by
  decide

theorem witness_AssignWritesEachMode :
    OperandSize.byte ≠ .none ∧ (63 : Byte).toNat = (63 : Fin 64).val ∧
    RegMode.incrementRegisterPre ≠ .registerFloat := by decide

/-- The least u that is not 0, the largest below 2^53, and a tie: 2^53 + 1 lies as far from 2^53 + 2 as from the result. -/
theorem witness_IntegerToFloatIsNearest :
    (1 : Word).toNat ≠ 0 ∧ (0x1FFFFFFFFFFFFF : Word).toNat < 2 ^ 53 ∧
    f64Finite 0x4340000000000001 = true ∧
    f64Sign 0x4340000000000001 = false ∧ 0x4340000000000001 ≠ u2f 0x20000000000001 ∧
    ((f64Scaled (u2f 0x20000000000001) : Int) - scaledNat 0x20000000000001).natAbs =
      ((f64Scaled 0x4340000000000001 : Int) - scaledNat 0x20000000000001).natAbs := by
  decide +kernel

/-- The largest f64 below 2^64 and 0.0; the f64 next to -1 and -0.0; then -1, 2^64, an infinity and a
NaN. -/
theorem witness_FloatToIntegerTruncates :
    (f64Finite 0x43EFFFFFFFFFFFFF = true ∧ f64Sign 0x43EFFFFFFFFFFFFF = false ∧
      f64Scaled 0x43EFFFFFFFFFFFFF < scaledNat (2 ^ 64)) ∧
    (f64Finite 0 = true ∧ f64Sign 0 = false ∧ f64Scaled 0 < scaledNat (2 ^ 64)) ∧
    (f64Finite 0xBFEFFFFFFFFFFFFF = true ∧ f64Sign 0xBFEFFFFFFFFFFFFF = true ∧
      f64Scaled 0xBFEFFFFFFFFFFFFF < scaledNat 1) ∧
    (f64Finite 0x8000000000000000 = true ∧ f64Sign 0x8000000000000000 = true ∧
      f64Scaled 0x8000000000000000 < scaledNat 1) ∧
    (f64Sign 0xBFF0000000000000 = true ∧ scaledNat 1 = f64Scaled 0xBFF0000000000000) ∧
    (f64Sign 0x43F0000000000000 = false ∧ scaledNat (2 ^ 64) = f64Scaled 0x43F0000000000000) ∧
    f64Finite 0x7FF0000000000000 = false ∧ f64Finite 0x7FF8000000000000 = false := by
  decide +kernel

theorem witness_LoadReadsMemory :
    Writable .byte (wF 63) ∧ Usable .byte (wC 240) ∧ Usable .byte (wC 8) ∧
    (intValue (wC 240) State.reset).toNat + accessBytes .byte State.reset ≤ State.reset.cfg.heapSize ∧
    (intValue (wC 240) State.reset + secondValue (wC 240) (wC 8) State.reset).toNat +
      accessBytes .byte State.reset = State.reset.cfg.heapSize := by decide

theorem witness_StoreWritesMemory :
    Usable .word (wI 63) ∧ Usable .word (wC 240) ∧ Usable .word (wC 8) ∧ State.reset.MemoryOk ∧
    (secondValue (wI 63) (wC 240) State.reset).toNat + accessBytes .word State.reset ≤
      State.reset.cfg.heapSize ∧
    (secondValue (wI 63) (wC 240) State.reset +
      secondValue (wC 240) (wC 8) (afterRead (wI 63) State.reset)).toNat +
      accessBytes .word State.reset = State.reset.cfg.heapSize := by decide

theorem witness_MoveCopiesItsSource :
    OperandSize.byte ≠ .none ∧ (wC 5).wellFormed = true ∧ (wI 63).wellFormed = true ∧
    (wI 63).isConst = false ∧ isFloatSource (wC 5) = false ∧
    (63 : Byte).toNat = (63 : Fin 64).val ∧ RegMode.registerInteger ≠ .registerFloat := by decide

theorem witness_PushStoresAndPopLoads :
    State.reset.MemoryOk ∧ Usable .qword (.special .registerSp 0) ∧
    Writable .qword (.special .registerSp 0) ∧
    (State.reset.sp - 8).toNat + 8 = State.reset.cfg.heapSize ∧
    ((State.reset.setSp 8).sp - 8).toNat = 0 ∧
    (State.reset.setSp 248).sp.toNat + 8 = State.reset.cfg.heapSize := by decide

theorem witness_HostPushThenPopReturnsTheValue :
    State.reset.cfg.Valid ∧ State.reset.MemoryOk ∧ State.reset.status ≠ .uninitialised ∧
    8 ≤ State.reset.sp.toNat ∧ State.reset.sp.toNat = State.reset.cfg.heapSize := by decide

theorem witness_InertInstructionsChangeNothing :
    [wI 64, wC 1, wC 2, wC 3].length = 4 := by decide

theorem witness_AddSubMulWrap :
    Writable .byte (wI 1) ∧ Usable .byte (.reg .incrementRegisterPre 1) ∧ Usable .byte (wI 1) ∧
    0 = (intValue (.reg .incrementRegisterPre 1) (State.reset.setI 1 (-1))).toNat ∧
    0 = (secondValue (.reg .incrementRegisterPre 1) (wI 1) (State.reset.setI 1 (-1))).toNat := by
  decide

theorem witness_DivModExact :
    Writable .qword (wI 0) ∧ Usable .qword (wC 7) ∧ Usable .qword (wC 3) ∧
    Usable .qword (wC 0) ∧ (secondValue (wC 7) (wC 3) State.reset).toNat ≠ 0 ∧
    (secondValue (wC 7) (wC 0) State.reset).toNat = 0 := by decide

theorem witness_ModByZeroFollowsThePolicy :
    Usable .qword (wI 0) ∧ Usable .qword (wC 7) ∧ Usable .qword (wC 0) ∧
    secondValue (wC 7) (wC 0) State.reset = 0 ∧ State.reset.cfg.modZeroPolicy = .zero ∧
    (wI 0).isConst = false ∧
    (State.boot { launchConfig with modZeroPolicy := .fault } []).cfg.modZeroPolicy = .fault := by
  decide

theorem witness_NegIsTheComplementInWBits :
    Writable .byte (wI 63) ∧ Usable .byte (wC 0x180) ∧
    State.reset.cfg.reservedOpMode = .architected := by decide

/-- The largest count: 2^64 - 1. -/
theorem witness_ShiftsMoveBitsWithinTheWidth :
    Writable .qword (wI 63) ∧ Usable .qword (wC 1) ∧ Usable .qword (wC (-1)) ∧
    State.reset.cfg.reservedOpMode = .architected ∧ 1 = intValue (wC 1) State.reset ∧
    0xFFFFFFFFFFFFFFFF = (secondValue (wC 1) (wC (-1)) State.reset).toNat := by decide

/-- A count equal to the width. -/
theorem witness_RotatesTurnBitsWithinTheWidth :
    Writable .byte (wI 63) ∧ Usable .byte (wC 0x180) ∧ Usable .byte (wC 8) ∧
    State.reset.cfg.reservedOpMode = .architected ∧ 0x180 = intValue (wC 0x180) State.reset ∧
    width .byte = (secondValue (wC 0x180) (wC 8) State.reset).toNat := by decide

theorem witness_BitwiseResultsPerBit :
    Writable .word (wI 63) ∧ Usable .word (wC 0xF0F0) ∧ Usable .word (wC 0xFF00) ∧
    State.reset.cfg.reservedOpMode = .architected ∧ 0xF0F0 = intValue (wC 0xF0F0) State.reset ∧
    0xFF00 = secondValue (wC 0xF0F0) (wC 0xFF00) State.reset := by decide

/-- The first bit number outside the width. -/
theorem witness_BitSetAndClearOneBit :
    Writable .byte (wI 63) ∧ Usable .byte (wC 0x180) ∧ Usable .byte (wC 8) ∧
    State.reset.cfg.reservedOpMode = .architected ∧ 0x180 = intValue (wC 0x180) State.reset ∧
    8 = (secondValue (wC 0x180) (wC 8) State.reset).toNat := by decide

theorem witness_TestSetsTheFlagsOfTheAnd :
    Usable .byte (wC 0x180) ∧ Usable .byte (wC 0x80) ∧ State.reset.cfg.reservedOpMode = .architected ∧
    0x180 = intValue (wC 0x180) State.reset ∧
    0x80 = secondValue (wC 0x180) (wC 0x80) State.reset := by decide

/-- The byte -128 against 1, whose difference does not fit. -/
theorem witness_CmpSetsTheFlagsOfTheDifference :
    Usable .byte (wC 0x80) ∧ Usable .byte (wC 1) ∧ State.reset.cfg.reservedOpMode = .architected ∧
    0x80 = intValue (wC 0x80) State.reset ∧ 1 = secondValue (wC 0x80) (wC 1) State.reset ∧
    signedW (width .byte) 0x80 - signedW (width .byte) 1 < -2 ^ (width .byte - 1) := by decide

theorem witness_BranchesFollowTheFlags :
    Usable .qword (.reg .incrementRegisterPost 3) ∧ State.reset.cfg.reservedOpMode = .architected ∧
    (State.reset.setFr 0xB).fr.getLsbD 0 = true ∧ (State.reset.setFr 0xB).fr.getLsbD 1 = true ∧
    (State.reset.setFr 0xB).fr.getLsbD 2 = false := by decide

/-- Bit numbers 63 and 64, on the two sides of the bound. -/
theorem witness_BitBranchesTestTheNamedBit :
    Usable .byte (wC 96) ∧ Usable .byte (wC 63) ∧ Usable .byte (wC 64) ∧
    State.reset.cfg.reservedOpMode = .architected ∧
    (secondValue (wC 96) (wC 63) State.reset).toNat = 63 ∧
    (State.reset.setFr (-1)).fr.getLsbD 63 = true ∧
    (secondValue (wC 96) (wC 64) State.reset).toNat = 64 := by decide

theorem witness_CompareThenBranch :
    Usable .byte (wC 0x80) ∧ Usable .byte (wC 1) ∧ OperandSize.qword ≠ .none ∧
    State.reset.cfg.reservedOpMode = .architected ∧
    testNext (exec (.cmp .byte [wC 0x80, wC 1]) State.reset) = some (State.reset.setFr 0x4) := by decide

theorem witness_JumpsAndCallsSetThePc :
    State.reset.MemoryOk ∧ Usable .qword (.special .registerSp 0) ∧
    (State.reset.sp - 8).toNat + 8 = State.reset.cfg.heapSize ∧
    ((State.reset.setSp 8).sp - 8).toNat = 0 ∧
    (State.reset.setSp 248).sp.toNat + 8 = State.reset.cfg.heapSize := by decide

/-- The next state of `jsr 32` right after reset, at pc 16. -/
def wCalled : State :=
  { State.reset with
    pc := 32
    sp := 248
    mem := [(248, 16)] }

theorem witness_CallThenReturnRestoresPcAndSp :
    State.reset.MemoryOk ∧ Usable .qword (wC 32) ∧
    (State.reset.sp - 8).toNat + 8 = State.reset.cfg.heapSize ∧
    testNext (exec (.jsr .qword [wC 32]) (State.reset.setPc 16)) = some wCalled ∧
    (wCalled.setI 1 5).sp = wCalled.sp ∧ (wCalled.setI 1 5).mem = wCalled.mem ∧
    (wCalled.setI 1 5).cfg = wCalled.cfg := by decide

theorem witness_IntegerRegisterFrame :
    (∃ t, exec (.add .qword [wI 0, .reg .incrementRegisterPost 1, wI 2]) State.reset = .next t) ∧
    (targetOf (.add .qword [wI 0, .reg .incrementRegisterPost 1, wI 2])).all
      (fun op => !namesI op 63) = true ∧
    ∀ op ∈ (Instr.add .qword [wI 0, .reg .incrementRegisterPost 1, wI 2]).operands,
      adjustsI op 63 = false := ⟨⟨_, rfl⟩, by decide⟩

theorem witness_FloatRegisterFrame :
    (∃ t, exec (.pop .qword [wF 3]) (State.reset.setSp 248) = .next t) ∧
    (targetOf (.pop .qword [wF 3])).all (fun op => !namesF op 63) = true := ⟨⟨_, rfl⟩, by decide⟩

theorem witness_OnlyCmpAndTestWriteFlags :
    (∃ t, exec (.add .qword [wI 0, wI 1, wI 2]) (State.reset.setFr 0xF) = .next t) ∧
    (Instr.add .qword [wI 0, wI 1, wI 2]).op ≠ .cmp ∧
    (Instr.add .qword [wI 0, wI 1, wI 2]).op ≠ .test ∧
    targetOf (.add .qword [wI 0, wI 1, wI 2]) = some (wI 0) ∧ OperandSize.byte ≠ .none :=
  ⟨⟨_, rfl⟩, by decide⟩

theorem witness_StatusRegisterAndStackPointerFrame :
    (∃ t, exec (.add .qword [wI 0, wI 1, wI 2]) (State.reset.setSr 0xF) = .next t) ∧
    targetOf (.add .qword [wI 0, wI 1, wI 2]) = some (wI 0) ∧
    (Instr.add .qword [wI 0, wI 1, wI 2]).op ∉ [Op.push, .pop, .jsr, .rts] := ⟨⟨_, rfl⟩, by decide⟩

theorem witness_ProgramCounterFrame :
    (∃ t, exec (.pop .qword [wF 3]) ((State.reset.setSp 248).setPc 16) = .next t) ∧
    targetOf (.pop .qword [wF 3]) = some (wF 3) ∧
    (Instr.pop .qword [wF 3]).op ∉ [Op.jsr, .rts, .jmp, .bz, .bnz, .tbz, .tbnz, .bne, .beq, .bae, .ba,
      .ble, .bl, .bo, .bcc, .bcs] := ⟨⟨_, rfl⟩, by decide⟩

/-- A store to the last 8 bytes; address 247 lies just below them. -/
theorem witness_MemoryFrame :
    (∃ t, exec (.store .qword [wC 7, wC 248]) State.reset = .next t) ∧
    storedBytes (.store .qword [wC 7, wC 248]) State.reset = some (248, 8) ∧ 247 < 248 :=
  ⟨⟨_, rfl⟩, by decide⟩

/-- The last 8 bytes hold the next instruction: a sized qword store with a base, one with an offset,
and a push from sp = 256. -/
theorem witness_StoredBytesAreFetched :
    Usable .qword (wC 0x108) ∧ Usable .qword (wC 240) ∧ Usable .qword (wC 8) ∧
    Usable .qword (.special .registerPc 0) ∧ (State.reset.setPc 248).MemoryOk ∧
    (State.reset.setPc 248).pc.toNat + 8 = (State.reset.setPc 248).cfg.heapSize ∧
    accessBytes .qword (State.boot { launchConfig with sizedMemory := true } []) = 8 ∧
    accessBytes .byte (State.reset.setPc 248) = 8 ∧
    secondValue (wC 0x108) (.special .registerPc 0) (State.reset.setPc 248) =
      (State.reset.setPc 248).pc ∧
    secondValue (wC 0x108) (wC 240) (State.reset.setPc 248) +
      secondValue (wC 240) (wC 8) (afterRead (wC 0x108) (State.reset.setPc 248)) =
      (State.reset.setPc 248).pc ∧
    (State.reset.setPc 248).sp - 8 = (State.reset.setPc 248).pc := by decide

theorem witness_StepKeepsTheInvariant :
    (wAt State.reset (.push .qword [wC 7])).Inv ∧
    (∃ t, step (wAt State.reset (.push .qword [wC 7])) = .next t) :=
  ⟨⟨by decide, by decide, trivial⟩, ⟨_, rfl⟩⟩

/-- The invariant also speaks of a faulted machine, whose last record is the fault. -/
theorem witness_faulted_with_invariant : (raise .b006 State.reset).Inv :=
  ⟨by decide, by decide, rfl⟩

theorem witness_ResetSetsTheSpecsValues :
    (State.construct launchConfig).status = .uninitialised ∧
    (State.reset.setStatus (.faulted .b003)).status ≠ .uninitialised := by decide

theorem witness_EncodePortGuards :
    State.reset.status ≠ .uninitialised ∧ (7 : Word).toNat % 8 ≠ 0 ∧ (8 : Word).toNat % 8 = 0 ∧
    (Instr.nop .none (List.replicate 5 (wI 0))).operands.length > 4 := by decide

/-- Each port answers: encode at the last 8 bytes, push and pop, reset, and the initialising port on a
constructed machine. -/
theorem witness_HostPortsKeepTheMemoryForm :
    State.reset.MemoryOk ∧ Memory.wf [(255, 1)] = true ∧
    Memory.below [(255, 1)] State.reset.cfg.heapSize = true ∧
    (∃ t n, hostEncode 248 (.exit .none []) State.reset = .next (t, n)) ∧
    (∃ t, hostPush 7 State.reset = .next t) ∧
    (∃ t v, hostPop (State.reset.setSp 248) = .next (t, v)) ∧
    (∃ t, hostReset State.reset = .next t) ∧
    (State.construct launchConfig).MemoryOk ∧
    (∃ t, hostInitialise [(255, 1)] (State.construct launchConfig) = .next t) :=
  ⟨by decide, by decide, by decide, ⟨_, _, rfl⟩, ⟨_, rfl⟩, ⟨_, _, rfl⟩, ⟨_, rfl⟩, by decide, ⟨_, rfl⟩⟩
end

/-! PROOF. The invariant at reset and through every step (O56, O57). What the model can do to a state
is a short list of primitive writes, `ClosedUnderWrites`; a property that each of them keeps is kept
by every instruction (`exec_keeps`) and by every step (`step_keeps`). The invariant is one such
property. -/

namespace Sys2Proof.Machine

section Closure

variable {P : State → Prop}

/-! ### A property of the state that a part of an instruction reaches -/

/-- The state a result carries has the property, whether it is a value or a fault. -/
def Res.All {α : Type} (P : State → Prop) : Res α → Prop
  | .ok _ s => P s
  | .fault _ s => P s

/-- The next state has the property, if there is a next state. -/
def NextAll (P : State → Prop) (o : Host.Outcome State Fault Refusal) : Prop :=
  ∀ t, o = .next t → P t

theorem nextAll_next {s : State} (hs : P s) : NextAll P (.next s) := by
  rintro _ ⟨⟩
  exact hs

theorem Res.All.bind {α β : Type} {r : Res α} {f : α → State → Res β} (hr : r.All P)
    (hf : ∀ v s, P s → (f v s).All P) : (r.bind f).All P := by
  cases r with
  | ok v s => exact hf v s hr
  | fault c s => exact hr

theorem Res.All.finish {r : Res Unit} (hr : r.All P) (hraise : ∀ c s, P s → P (raise c s)) :
    NextAll P r.finish := by
  cases r with
  | ok _ s => exact nextAll_next hr
  | fault c s => exact nextAll_next (hraise c s hr)

theorem memRead_all {s : State} (addr : Word) (n : Nat) (hs : P s) : (memRead addr n s).All P := by
  rcases memRead_cases addr n s with ⟨-, e⟩ | ⟨-, e⟩ <;> rw [e] <;> exact hs

theorem reservedOp_next {s : State} {o : Host.Outcome State Fault Refusal} (hs : P s)
    (ho : NextAll P o) : NextAll P (reservedOp s o) := by
  unfold reservedOp
  split
  · exact ho
  · exact nextAll_next hs

/-! ### The primitive writes -/

/-- The property is kept by every write that an instruction is made of: the register writes, a store
inside the heap (20_memory.md R65), `exit` and a raised fault. -/
structure ClosedUnderWrites (P : State → Prop) : Prop where
  setI   : ∀ s i v, P s → P (s.setI i v)
  setF   : ∀ s i v, P s → P (s.setF i v)
  setPc  : ∀ s v, P s → P (s.setPc v)
  setSp  : ∀ s v, P s → P (s.setSp v)
  setFr  : ∀ s v, P s → P (s.setFr v)
  setSr  : ∀ s v, P s → P (s.setSr v)
  store  : ∀ (s : State) (addr : Word) (n : Nat) (v : Word), s.inBounds addr n = true → P s →
    P (s.setMem (Memory.writeBytes s.mem addr.toNat (leBytes n v.toNat)))
  halt   : ∀ s, P s → P (s.setStatus .halted)
  raised : ∀ c s, P s → P (raise c s)

namespace ClosedUnderWrites

variable {s : State} (hP : ClosedUnderWrites P)

include hP

/-! ### Operands, memory and stack -/

theorem afterRead_keeps (op : Operand) (hs : P s) : P (afterRead op s) :=
  match op with
  | .reg .incrementRegisterPre _ => hP.setI _ _ _ hs
  | .reg .incrementRegisterPost _ => hP.setI _ _ _ hs
  | .reg .decrementRegisterPre _ => hP.setI _ _ _ hs
  | .reg .decrementRegisterPost _ => hP.setI _ _ _ hs
  | .reg .registerInteger _ => hs
  | .reg .registerFloat _ => hs
  | .special _ _ => hs
  | .const _ _ _ => hs

theorem afterWrite_keeps (op : Operand) (v : Value) (hs : P s) : P (afterWrite op v s) :=
  match op with
  | .reg .registerFloat _ => hP.setF _ _ _ hs
  | .reg .registerInteger _ => hP.setI _ _ _ hs
  | .reg .incrementRegisterPre _ => hP.setI _ _ _ hs
  | .reg .incrementRegisterPost _ => hP.setI _ _ _ hs
  | .reg .decrementRegisterPre _ => hP.setI _ _ _ hs
  | .reg .decrementRegisterPost _ => hP.setI _ _ _ hs
  | .special .registerSp _ => hP.setSp _ _ hs
  | .special .registerPc _ => hP.setPc _ _ hs
  | .special .registerFlags _ => hP.setFr _ _ hs
  | .special .registerStatus _ => hP.setSr _ _ hs
  | .const _ _ _ => hs

theorem resolveInt_all (size : OperandSize) (op : Operand) (hs : P s) :
    (resolveInt size op s).All P := by
  rcases resolveInt_cases size op s with ⟨c, -, e⟩ | ⟨-, e⟩ <;> rw [e]
  · exact hs
  · exact hP.afterRead_keeps op hs

theorem resolveFloat_all (size : OperandSize) (op : Operand) (hs : P s) :
    (resolveFloat size op s).All P := by
  unfold resolveFloat
  split
  · exact hs
  · split
    · exact hP.afterRead_keeps op hs
    · exact hs

theorem resolveMove_all (size : OperandSize) (op : Operand) (hs : P s) :
    (resolveMove size op s).All P := by
  unfold resolveMove
  split
  · exact (hP.resolveFloat_all size op hs).bind fun _ _ h1 => h1
  · exact (hP.resolveInt_all size op hs).bind fun _ _ h1 => h1

theorem assign_all (size : OperandSize) (op : Operand) (v : Value) (hs : P s) :
    (assign size op v s).All P := by
  rcases assign_cases size op v s with ⟨c, -, e⟩ | ⟨-, e⟩ <;> rw [e]
  · exact hs
  · exact hP.afterWrite_keeps op v hs

theorem effectiveAddress_all (size : OperandSize) (base : Operand) (offset : Option Operand)
    (hs : P s) : (effectiveAddress size base offset s).All P :=
  (hP.resolveInt_all size base hs).bind fun _ _ h1 =>
    match offset with
    | none => h1
    | some o => (hP.resolveInt_all size o h1).bind fun _ _ h2 => h2

theorem memWrite_all (addr : Word) (n : Nat) (v : Word) (hs : P s) :
    (memWrite addr n v s).All P := by
  rcases memWrite_cases addr n v s with ⟨hb, e⟩ | ⟨-, e⟩ <;> rw [e]
  · exact hP.store s addr n v hb hs
  · exact hs

theorem stackPush_all (v : Word) (hs : P s) : (stackPush v s).All P :=
  hP.memWrite_all _ _ _ (hP.setSp s _ hs)

theorem stackPop_all (hs : P s) : (stackPop s).All P :=
  (memRead_all s.sp 8 hs).bind fun _ s1 h1 => hP.setSp s1 _ h1

/-! ### The shapes of the meanings -/

theorem wrongCount_next (hs : P s) : NextAll P (wrongCount s) := nextAll_next (hP.raised _ s hs)

theorem inertOp_next (ops : List Operand) (hs : P s) : NextAll P (inertOp ops s) := by
  unfold inertOp
  split
  · exact nextAll_next hs
  · exact hP.wrongCount_next hs

theorem binaryOp_next (size : OperandSize) (ops : List Operand) (f : Word → Word → Word)
    (hs : P s) : NextAll P (binaryOp size ops f s) := by
  unfold binaryOp
  split
  case h_1 t a b =>
    refine Res.All.finish ?_ hP.raised
    exact (hP.resolveInt_all size a hs).bind fun _ _ h1 =>
      (hP.resolveInt_all size b h1).bind fun _ _ h2 => hP.assign_all size t _ h2
  case h_2 => exact hP.wrongCount_next hs

theorem unaryOp_next (size : OperandSize) (ops : List Operand) (f : Word → Word) (hs : P s) :
    NextAll P (unaryOp size ops f s) := by
  unfold unaryOp
  split
  case h_1 t a =>
    refine Res.All.finish ?_ hP.raised
    exact (hP.resolveInt_all size a hs).bind fun _ _ h1 => hP.assign_all size t _ h1
  case h_2 => exact hP.wrongCount_next hs

theorem flagsOp_next (size : OperandSize) (ops : List Operand) (f : Word → Word → Word → Word)
    (hs : P s) : NextAll P (flagsOp size ops f s) := by
  unfold flagsOp
  split
  case h_1 a b =>
    refine Res.All.finish ?_ hP.raised
    exact (hP.resolveInt_all size a hs).bind fun _ _ h1 =>
      (hP.resolveInt_all size b h1).bind fun _ s2 h2 => hP.setFr s2 _ h2
  case h_2 => exact hP.wrongCount_next hs

/-- A jump that is taken or not. -/
theorem jump_keeps (taken : Prop) [Decidable taken] (x : Word) (hs : P s) :
    P (if taken then s.setPc x else s) := by
  split
  · exact hP.setPc s x hs
  · exact hs

theorem branchOp_next (size : OperandSize) (ops : List Operand) (cond : Word → Bool) (hs : P s) :
    NextAll P (branchOp size ops cond s) := by
  unfold branchOp
  split
  case h_1 t =>
    refine Res.All.finish ?_ hP.raised
    exact (hP.resolveInt_all size t hs).bind fun x _ h1 => hP.jump_keeps _ x h1
  case h_2 => exact hP.wrongCount_next hs

theorem bitBranchOp_next (size : OperandSize) (ops : List Operand) (wanted : Bool) (hs : P s) :
    NextAll P (bitBranchOp size ops wanted s) := by
  unfold bitBranchOp
  split
  case h_1 t b =>
    refine Res.All.finish ?_ hP.raised
    exact (hP.resolveInt_all size t hs).bind fun x _ h1 =>
      (hP.resolveInt_all size b h1).bind fun _ _ h2 => hP.jump_keeps _ x h2
  case h_2 => exact hP.wrongCount_next hs

/-! ### The meanings that have a shape of their own -/

theorem loadFrom_all (size : OperandSize) (t base : Operand) (offset : Option Operand) (hs : P s) :
    (loadFrom size t base offset s).All P :=
  (hP.effectiveAddress_all size base offset hs).bind fun _ _ h1 =>
    (memRead_all _ _ h1).bind fun _ _ h2 => hP.assign_all size t _ h2

theorem storeTo_all (size : OperandSize) (v0 base : Operand) (offset : Option Operand) (hs : P s) :
    (storeTo size v0 base offset s).All P :=
  (hP.resolveInt_all size v0 hs).bind fun _ _ h1 =>
    (hP.effectiveAddress_all size base offset h1).bind fun _ _ h2 => hP.memWrite_all _ _ _ h2

theorem execLoad_next (size : OperandSize) (ops : List Operand) (hs : P s) :
    NextAll P (execLoad size ops s) := by
  unfold execLoad
  split
  case h_1 t base => exact (hP.loadFrom_all size t base none hs).finish hP.raised
  case h_2 t base offset => exact (hP.loadFrom_all size t base (some offset) hs).finish hP.raised
  case h_3 => exact hP.wrongCount_next hs

theorem execStore_next (size : OperandSize) (ops : List Operand) (hs : P s) :
    NextAll P (execStore size ops s) := by
  unfold execStore
  split
  case h_1 v0 base => exact (hP.storeTo_all size v0 base none hs).finish hP.raised
  case h_2 v0 base offset => exact (hP.storeTo_all size v0 base (some offset) hs).finish hP.raised
  case h_3 => exact hP.wrongCount_next hs

theorem execMove_next (size : OperandSize) (ops : List Operand) (hs : P s) :
    NextAll P (execMove size ops s) := by
  unfold execMove
  split
  case h_1 a t =>
    refine Res.All.finish ?_ hP.raised
    exact (hP.resolveMove_all size a hs).bind fun v _ h1 => hP.assign_all size t v h1
  case h_2 => exact hP.wrongCount_next hs

theorem execPush_next (size : OperandSize) (ops : List Operand) (hs : P s) :
    NextAll P (execPush size ops s) := by
  unfold execPush
  split
  case h_1 a =>
    refine Res.All.finish ?_ hP.raised
    exact (hP.resolveInt_all size a hs).bind fun v _ h1 => hP.stackPush_all v h1
  case h_2 => exact hP.wrongCount_next hs

theorem execPop_next (size : OperandSize) (ops : List Operand) (hs : P s) :
    NextAll P (execPop size ops s) := by
  unfold execPop
  split
  case h_1 t =>
    refine Res.All.finish ?_ hP.raised
    exact (hP.stackPop_all hs).bind fun _ _ h1 => hP.assign_all size t _ h1
  case h_2 => exact hP.wrongCount_next hs

theorem execMod_next (size : OperandSize) (ops : List Operand) (hs : P s) :
    NextAll P (execMod size ops s) := by
  unfold execMod
  split
  case h_1 t a b =>
    refine Res.All.finish ?_ hP.raised
    refine (hP.resolveInt_all size a hs).bind fun _ _ h1 =>
      (hP.resolveInt_all size b h1).bind fun _ _ h2 => ?_
    split
    · exact h2
    · exact hP.assign_all size t _ h2
  case h_2 => exact hP.wrongCount_next hs

theorem execJsr_next (size : OperandSize) (ops : List Operand) (hs : P s) :
    NextAll P (execJsr size ops s) := by
  unfold execJsr
  split
  case h_1 t =>
    refine Res.All.finish ?_ hP.raised
    exact (hP.stackPush_all s.pc hs).bind fun _ _ h1 =>
      (hP.resolveInt_all size t h1).bind fun x s2 h2 => hP.setPc s2 x h2
  case h_2 => exact hP.wrongCount_next hs

theorem execRts_next (size : OperandSize) (ops : List Operand) (hs : P s) :
    NextAll P (execRts size ops s) := by
  unfold execRts
  split
  case h_1 =>
    refine Res.All.finish ?_ hP.raised
    exact (hP.stackPop_all hs).bind fun v s1 h1 => hP.setPc s1 v h1
  case h_2 => exact hP.wrongCount_next hs

theorem execJmp_next (size : OperandSize) (ops : List Operand) (hs : P s) :
    NextAll P (execJmp size ops s) := by
  unfold execJmp
  split
  case h_1 t =>
    refine Res.All.finish ?_ hP.raised
    exact (hP.resolveInt_all size t hs).bind fun x s1 h1 => hP.setPc s1 x h1
  case h_2 => exact hP.wrongCount_next hs

theorem execExit_next (size : OperandSize) (ops : List Operand) (hs : P s) :
    NextAll P (execExit size ops s) := by
  unfold execExit
  split
  case h_1 => exact nextAll_next (hP.halt s hs)
  case h_2 => exact hP.wrongCount_next hs

/-! ### Every instruction and every step -/

/-- A property that the primitive writes keep is kept by every instruction. -/
theorem exec_keeps (i : Instr) (hs : P s) : NextAll P (exec i s) :=
  match i with
  | .nop _ ops => hP.inertOp_next ops hs
  | .load size ops => hP.execLoad_next size ops hs
  | .store size ops => hP.execStore_next size ops hs
  | .move size ops => hP.execMove_next size ops hs
  | .push size ops => hP.execPush_next size ops hs
  | .pop size ops => hP.execPop_next size ops hs
  | .add size ops => hP.binaryOp_next size ops _ hs
  | .sub size ops => hP.binaryOp_next size ops _ hs
  | .mul size ops => hP.binaryOp_next size ops _ hs
  | .div size ops => hP.binaryOp_next size ops _ hs
  | .mod size ops => hP.execMod_next size ops hs
  | .neg size ops => reservedOp_next hs (hP.unaryOp_next size ops _ hs)
  | .shr size ops => reservedOp_next hs (hP.binaryOp_next size ops _ hs)
  | .shl size ops => reservedOp_next hs (hP.binaryOp_next size ops _ hs)
  | .ror size ops => reservedOp_next hs (hP.binaryOp_next size ops _ hs)
  | .rol size ops => reservedOp_next hs (hP.binaryOp_next size ops _ hs)
  | .and size ops => reservedOp_next hs (hP.binaryOp_next size ops _ hs)
  | .or size ops => reservedOp_next hs (hP.binaryOp_next size ops _ hs)
  | .xor size ops => reservedOp_next hs (hP.binaryOp_next size ops _ hs)
  | .not size ops => reservedOp_next hs (hP.unaryOp_next size ops _ hs)
  | .bis size ops => reservedOp_next hs (hP.binaryOp_next size ops _ hs)
  | .bic size ops => reservedOp_next hs (hP.binaryOp_next size ops _ hs)
  | .test size ops => reservedOp_next hs (hP.flagsOp_next size ops _ hs)
  | .cmp size ops => reservedOp_next hs (hP.flagsOp_next size ops _ hs)
  | .bz size ops => reservedOp_next hs (hP.branchOp_next size ops _ hs)
  | .bnz size ops => reservedOp_next hs (hP.branchOp_next size ops _ hs)
  | .tbz size ops => reservedOp_next hs (hP.bitBranchOp_next size ops _ hs)
  | .tbnz size ops => reservedOp_next hs (hP.bitBranchOp_next size ops _ hs)
  | .bne size ops => reservedOp_next hs (hP.branchOp_next size ops _ hs)
  | .beq size ops => reservedOp_next hs (hP.branchOp_next size ops _ hs)
  | .bae size ops => reservedOp_next hs (hP.branchOp_next size ops _ hs)
  | .ba size ops => reservedOp_next hs (hP.branchOp_next size ops _ hs)
  | .ble size ops => reservedOp_next hs (hP.branchOp_next size ops _ hs)
  | .bl size ops => reservedOp_next hs (hP.branchOp_next size ops _ hs)
  | .bo size ops => reservedOp_next hs (hP.branchOp_next size ops _ hs)
  | .bcc size ops => reservedOp_next hs (hP.branchOp_next size ops _ hs)
  | .bcs size ops => reservedOp_next hs (hP.branchOp_next size ops _ hs)
  | .jsr size ops => hP.execJsr_next size ops hs
  | .rts size ops => hP.execRts_next size ops hs
  | .jmp size ops => hP.execJmp_next size ops hs
  | .metaData _ ops => reservedOp_next hs (hP.inertOp_next ops hs)
  | .debug _ ops => reservedOp_next hs (hP.inertOp_next ops hs)
  | .exit size ops => hP.execExit_next size ops hs

/-- A property that the primitive writes keep is kept by every step, decode faults included. -/
theorem step_keeps (hs : P s) : NextAll P (step s) := by
  unfold step
  split
  case h_1 => rintro _ ⟨⟩
  case h_2 => rintro _ ⟨⟩
  case h_3 => rintro _ ⟨⟩
  case h_4 =>
    split
    case h_1 c _ => exact nextAll_next (hP.raised c s hs)
    case h_2 i size _ => exact hP.exec_keeps i (hP.setPc s _ hs)

end ClosedUnderWrites

end Closure

/-! ### The invariant -/

/-- A fault with a diagnostic code appends exactly one record: fatal and with that code
(60_exceptions.md R302, R303). -/
theorem FaultCause.diagnostics_of_code (c : FaultCause) (text : String)
    (h : c.code.diagnosticCode = some text) : ∃ message, c.diagnostics = [fatal text message] := by
  cases c <;> cases h <;> exact ⟨_, rfl⟩

/-- A raised fault is the last record of the sink, whatever stood there before (60_exceptions.md
R301). -/
theorem raise_faultRecorded (c : FaultCause) (s : State) : (raise c s).FaultRecorded := by
  simp only [State.FaultRecorded, raise_status]
  cases hcode : c.code.diagnosticCode with
  | none => trivial
  | some text =>
    obtain ⟨message, hd⟩ := c.diagnostics_of_code text hcode
    simp [hd, fatal]

/-- The invariant, with the launch parameters at given values. -/
def InvWith (cfg : Config) (s : State) : Prop := s.Inv ∧ s.cfg = cfg

/-- The invariant speaks of no register. -/
theorem InvWith.congr {cfg : Config} {s t : State} (h : InvWith cfg s) (hcfg : t.cfg = s.cfg)
    (hmem : t.mem = s.mem) (hstatus : t.status = s.status) (hsink : t.sink = s.sink) :
    InvWith cfg t := by
  simpa only [InvWith, State.Inv, State.MemoryOk, State.FaultRecorded, hcfg, hmem, hstatus, hsink]
    using h

theorem invWith_store {cfg : Config} {s : State} (addr : Word) (n : Nat) (v : Word)
    (hb : s.inBounds addr n = true) (h : InvWith cfg s) :
    InvWith cfg (s.setMem (Memory.writeBytes s.mem addr.toNat (leBytes n v.toNat))) := by
  obtain ⟨⟨hvalid, ⟨hwf, hbelow⟩, hrecorded⟩, hcfg⟩ := h
  exact ⟨⟨hvalid, writeBytes_memoryOk s addr n v hb hwf hbelow, hrecorded⟩, hcfg⟩

theorem invWith_halt {cfg : Config} {s : State} (h : InvWith cfg s) :
    InvWith cfg (s.setStatus .halted) := by
  obtain ⟨⟨hvalid, hmem, -⟩, hcfg⟩ := h
  exact ⟨⟨hvalid, hmem, trivial⟩, hcfg⟩

theorem invWith_raise {cfg : Config} {s : State} (c : FaultCause) (h : InvWith cfg s) :
    InvWith cfg (raise c s) := by
  obtain ⟨⟨hvalid, hmem, -⟩, hcfg⟩ := h
  exact ⟨⟨hvalid, hmem, raise_faultRecorded c s⟩, hcfg⟩

theorem invWith_closedUnderWrites (cfg : Config) : ClosedUnderWrites (InvWith cfg) where
  setI _ _ _ h := h.congr rfl rfl rfl rfl
  setF _ _ _ h := h.congr rfl rfl rfl rfl
  setPc _ _ h := h.congr rfl rfl rfl rfl
  setSp _ _ h := h.congr rfl rfl rfl rfl
  setFr _ _ h := h.congr rfl rfl rfl rfl
  setSr _ _ h := h.congr rfl rfl rfl rfl
  store _ addr n v hb h := invWith_store addr n v hb h
  halt _ h := invWith_halt h
  raised c _ h := invWith_raise c h

/-- Settles O57: the invariant is closed under the primitive writes, so every step keeps it. -/
theorem stepKeepsTheInvariant : Obligations.StepKeepsTheInvariant := by
  unfold Obligations.StepKeepsTheInvariant
  intro s t hs hstep
  exact (invWith_closedUnderWrites s.cfg).step_keeps ⟨hs, rfl⟩ t hstep

theorem launchConfig_valid : launchConfig.Valid := ⟨by decide, by decide, defaultTables_valid⟩

/-- Settles O56: the default parameters are valid, the memory is empty and the status is running. -/
theorem resetStateHasTheInvariant : Obligations.ResetStateHasTheInvariant := by
  unfold Obligations.ResetStateHasTheInvariant
  exact ⟨launchConfig_valid, reset_memory_wf, trivial⟩

end Sys2Proof.Machine

/-! PROOF. What a strict decode answers (O10): each stage of decode that succeeds leaves something well
formed, and the last stage bounds the size by the bytes that are there. -/

namespace Sys2Proof

theorem decodeOperand_wellFormed {t : NumberTables} {bytes rest : List Byte} {op : Operand}
    (h : decodeOperand t bytes = .ok (op, rest)) : op.wellFormed = true := by
  unfold decodeOperand at h
  split at h
  case h_1 tag index tail =>
    split at h
    case h_1 => cases h
    case h_2 m _ =>
      split at h
      · cases h
      · cases h
        simp only [Operand.wellFormed, decide_eq_true_eq]
        omega
    case h_3 m _ => cases h; rfl
    case h_4 m _ =>
      split at h
      · cases h
      · cases h; rfl
  case h_2 => cases h

theorem decodeOperands_wellFormed {t : NumberTables} {n : Nat} {bytes : List Byte}
    {ops : List Operand} (h : decodeOperands t n bytes = .ok ops) :
    ops.length = n ∧ ops.all Operand.wellFormed = true := by
  induction n generalizing bytes ops with
  | zero => cases h; exact ⟨rfl, rfl⟩
  | succ n ih =>
    unfold decodeOperands at h
    split at h
    case h_1 => cases h
    case h_2 op rest hop =>
      split at h
      case h_1 => cases h
      case h_2 tail htail =>
        cases h
        obtain ⟨hlen, hall⟩ := ih htail
        exact ⟨congrArg (· + 1) hlen, by simpa [decodeOperand_wellFormed hop] using hall⟩

/-- Under the strict policy the size is the computed one, and all of it is there (30_encoding.md
R111). -/
theorem finishDecode_strict_ok {available n : Nat} {sizeByte : Byte} {op : Op} {size : OperandSize}
    {ops : List Operand} {i : Instr}
    (h : finishDecode .strict available sizeByte op size ops = .ok (i, n)) :
    i = op.instr size ops ∧ n = encodedSize ops ∧ n ≤ available := by
  unfold finishDecode at h
  split at h
  case isTrue => cases h
  case isFalse hlen =>
    split at h
    · cases h
      exact ⟨rfl, rfl, Nat.not_lt.1 hlen⟩
    · cases h

@[simp] theorem Op.instr_operands (o : Op) (z : OperandSize) (l : List Operand) :
    (o.instr z l).operands = l := by
  cases o <;> rfl

/-- What strict decode answers is well formed, has its computed size and lies in the bytes given. -/
theorem decode_strict_ok {t : NumberTables} {bytes : List Byte} {i : Instr} {n : Nat}
    (h : decode t .strict bytes = .ok (i, n)) :
    i.wellFormed = true ∧ n = encodedSize i.operands ∧ n ≤ bytes.length := by
  unfold decode at h
  split at h
  case h_2 => cases h
  case h_1 sizeByte opLow opHigh rest =>
    split at h
    case h_1 => cases h
    case h_2 op _ =>
      split at h
      case h_1 => cases h
      case h_2 code rest =>
        split at h
        case h_1 => cases h
        case h_2 size _ =>
          split at h
          case h_1 => cases h
          case h_2 count rest =>
            split at h
            case isTrue => cases h
            case isFalse hcount =>
              split at h
              case h_1 => cases h
              case h_2 ops hops =>
                obtain ⟨hlen, hall⟩ := decodeOperands_wellFormed hops
                obtain ⟨rfl, rfl, hn⟩ := finishDecode_strict_ok h
                refine ⟨?_, by rw [Op.instr_operands], hn⟩
                simp only [Instr.wellFormed, Op.instr_operands, Bool.and_eq_true, decide_eq_true_eq]
                exact ⟨by omega, hall⟩

namespace Machine

/-- A fetch that finds an instruction decoded the window at an aligned pc. -/
theorem decode_of_fetch {s : State} {i : Instr} {n : Nat} (h : fetch s = .instr i n) :
    decode s.cfg.tables s.cfg.sizeBytePolicy (fetchWindow s) = .ok (i, n) := by
  unfold fetch at h
  split at h
  case isTrue => cases h
  case isFalse =>
    split at h
    case h_1 => cases h
    case h_2 hd => cases h; exact hd

/-- The window ends at the longest instruction and at the end of memory (30_encoding.md R95). -/
theorem fetchWindow_length (s : State) :
    (fetchWindow s).length = min 48 (s.cfg.heapSize - s.pc.toNat) := Memory.bytes_length ..

/-- Settles O10: the size is an encoded size, and the fetch window bounds it. -/
theorem strictDecodeStaysInMemory : Obligations.StrictDecodeStaysInMemory := by
  unfold Obligations.StrictDecodeStaysInMemory
  rintro s i n ⟨-, hheap, -⟩ hstrict hfetch
  have hdecode := decode_of_fetch hfetch
  rw [hstrict] at hdecode
  obtain ⟨hwf, rfl, hwindow⟩ := decode_strict_ok hdecode
  obtain ⟨-, hmod, hge⟩ := Laws.EncodedLength.all i
  rw [fetchWindow_length] at hwindow
  have hend : s.pc.toNat + encodedSize i.operands ≤ s.cfg.heapSize := by omega
  refine ⟨hwf, hmod, hge, by omega, hend, ?_⟩
  rw [advance_pc, BitVec.toNat_add, BitVec.toNat_ofNat, Nat.add_mod_mod]
  exact Nat.mod_eq_of_lt (by omega)

end Machine

end Sys2Proof

/-! PROOF. The flags of `test` and `cmp` (O40, O41). `withFlags` is described bit by bit, and `trunc` as
the low w bits, so that the arithmetic of `cmp` is the library's arithmetic on `BitVec w`. -/

namespace Sys2Proof.Machine

/-! ### The low w bits of a word -/

theorem width_le (z : OperandSize) : width z ≤ 64 := by cases z <;> decide

theorem width_pos {z : OperandSize} (h : z ≠ .none) : 0 < width z := by
  cases z
  case none => exact absurd rfl h
  all_goals decide

@[simp] theorem trunc_getLsbD (w : Nat) (v : Word) (k : Nat) :
    (trunc w v).getLsbD k = (decide (k < w) && v.getLsbD k) := by
  rw [trunc, BitVec.getLsbD_ofNat, Nat.testBit_mod_two_pow, BitVec.testBit_toNat]
  rcases Nat.lt_or_ge k 64 with h | h
  · simp [h]
  · simp [v.getLsbD_of_ge k h]

theorem trunc_toNat {w : Nat} (v : Word) (hw : w ≤ 64) : (trunc w v).toNat = v.toNat % 2 ^ w := by
  have hle : 2 ^ w ≤ 2 ^ 64 := Nat.pow_le_pow_right (by decide) hw
  have hlt : v.toNat % 2 ^ w < 2 ^ w := Nat.mod_lt _ (Nat.two_pow_pos w)
  rw [trunc, BitVec.toNat_ofNat, Nat.mod_eq_of_lt (by omega)]

/-- The sign bit of the low w bits, read in the 64-bit word. -/
theorem trunc_getLsbD_eq_msb {w : Nat} (v : Word) :
    (trunc w v).getLsbD (w - 1) = (v.setWidth w).msb := by
  rw [BitVec.msb_eq_getLsbD_last, trunc_getLsbD, BitVec.getLsbD_setWidth]

/-- `signedW` is the library's signed reading of the low w bits. -/
theorem signedW_eq_toInt {w : Nat} (v : Word) (hw : 0 < w) : signedW w v = (v.setWidth w).toInt := by
  obtain ⟨n, rfl⟩ : ∃ n, w = n + 1 := ⟨w - 1, by omega⟩
  rw [signedW, BitVec.toInt_eq_toNat_cond, BitVec.toNat_setWidth, Nat.add_sub_cancel]
  have hpow : 2 ^ (n + 1) = 2 * 2 ^ n := Nat.pow_succ'
  rcases Nat.lt_or_ge (v.toNat % 2 ^ (n + 1)) (2 ^ n) with h | h
  · rw [if_neg (by omega), if_pos (by omega)]
    push_cast
    rfl
  · rw [if_pos h, if_neg (by omega)]
    push_cast
    rfl

/-- Subtraction modulo 2^64 is subtraction modulo 2^w on the low w bits. -/
theorem setWidth_sub_of_le {w : Nat} (a b : Word) (hw : w ≤ 64) :
    (a - b).setWidth w = a.setWidth w - b.setWidth w := by
  rw [BitVec.sub_eq_add_neg, BitVec.sub_eq_add_neg, BitVec.setWidth_add _ _ hw,
    BitVec.setWidth_neg_of_le hw]

theorem trunc_eq_iff {w : Nat} (u v : Word) (hw : w ≤ 64) :
    trunc w u = trunc w v ↔ u.setWidth w = v.setWidth w := by
  rw [← BitVec.toNat_inj, ← BitVec.toNat_inj, trunc_toNat u hw, trunc_toNat v hw,
    BitVec.toNat_setWidth, BitVec.toNat_setWidth]

theorem setWidth_trunc (w : Nat) (v : Word) : (trunc w v).setWidth w = v.setWidth w := by
  apply BitVec.eq_of_getLsbD_eq
  intro k hk
  simp [hk]

/-- Truncating the operands of a difference first changes nothing in w bits. -/
theorem trunc_sub_trunc {w : Nat} (x y : Word) (hw : w ≤ 64) :
    trunc w (trunc w x - trunc w y) = trunc w (x - y) := by
  rw [trunc_eq_iff _ _ hw, setWidth_sub_of_le _ _ hw, setWidth_sub_of_le _ _ hw, setWidth_trunc,
    setWidth_trunc]

/-! ### The bits of `fr` -/

theorem flagBit_getLsbD (b : Bool) {j : Nat} (hj : j < 64) (k : Nat) :
    (flagBit b j).getLsbD k = (b && decide (k = j)) := by
  cases b
  · simp [flagBit]
  · have h : flagBit true j = BitVec.twoPow 64 j := rfl
    simp [h, BitVec.getLsbD_twoPow, hj, eq_comm]

/-- The mask that keeps the rest of `fr` has the bits from 4 on. -/
theorem keptMask_getLsbD (k : Nat) : (~~~0xF : Word).getLsbD k = decide (4 ≤ k ∧ k < 64) := by
  rcases Nat.lt_or_ge k 64 with hk | hk
  · decide +revert
  · rw [BitVec.getLsbD_of_ge _ _ hk]
    simp [Nat.not_lt.2 hk]

/-- Bits 0 to 3 are the flags and every other bit is kept (10_state.md R37). -/
theorem withFlags_getLsbD (fr : Word) (z c v n : Bool) (k : Nat) :
    (withFlags fr z c v n).getLsbD k =
      (fr.getLsbD k && decide (4 ≤ k) || n && decide (k = 3) || v && decide (k = 2) ||
        c && decide (k = 1) || z && decide (k = 0)) := by
  simp only [withFlags, BitVec.getLsbD_or, BitVec.getLsbD_and, keptMask_getLsbD, flagBit_getLsbD,
    Nat.reduceLT]
  rcases Nat.lt_or_ge k 64 with hk | hk
  · simp [hk]
  · simp [fr.getLsbD_of_ge k hk]

theorem withFlags_z (fr : Word) (z c v n : Bool) : (withFlags fr z c v n).getLsbD 0 = z := by
  rw [withFlags_getLsbD]
  simp

theorem withFlags_c (fr : Word) (z c v n : Bool) : (withFlags fr z c v n).getLsbD 1 = c := by
  rw [withFlags_getLsbD]
  simp

theorem withFlags_v (fr : Word) (z c v n : Bool) : (withFlags fr z c v n).getLsbD 2 = v := by
  rw [withFlags_getLsbD]
  simp

theorem withFlags_n (fr : Word) (z c v n : Bool) : (withFlags fr z c v n).getLsbD 3 = n := by
  rw [withFlags_getLsbD]
  simp

theorem withFlags_kept (fr : Word) (z c v n : Bool) (k : Nat) (hk : 4 ≤ k) :
    (withFlags fr z c v n).getLsbD k = fr.getLsbD k := by
  obtain ⟨j, rfl⟩ := Nat.exists_eq_add_of_le' hk
  rw [withFlags_getLsbD]
  simp

/-! ### What the instructions do -/

/-- With usable operands, a flags instruction reads both and writes nothing but `fr`. -/
theorem flagsOp_ok {z : OperandSize} {a b : Operand} (f : Word → Word → Word → Word) (s : State)
    (ha : Usable z a) (hb : Usable z b) :
    flagsOp z [a, b] f s =
      .next ((afterTwoReads a b s).setFr (f s.fr (intValue a s) (secondValue a b s))) := by
  obtain ⟨hsize, hwa⟩ := ha
  obtain ⟨-, hwb⟩ := hb
  simp [flagsOp, resolveInt_ok z a s hsize hwa, resolveInt_ok z b (afterRead a s) hsize hwb]

/-- Z of `test`: no bit below w is set in both (44_logic_shift_compare.md R230). -/
theorem trunc_and_eq_zero_iff (w : Nat) (x y : Word) :
    trunc w x &&& trunc w y = 0 ↔ ∀ k, k < w → (x.getLsbD k && y.getLsbD k) = false := by
  constructor
  · intro h k hk
    have hbit := congrArg (fun u : Word => u.getLsbD k) h
    simpa [hk] using hbit
  · intro h
    apply BitVec.eq_of_getLsbD_eq
    intro k _
    rcases Nat.lt_or_ge k w with hk | hk
    · simpa [hk] using h k hk
    · simp [Nat.not_lt.2 hk]

/-- Settles O40: the bits of `testFlags` are the bits that R230 names. -/
theorem testSetsTheFlagsOfTheAnd : Obligations.TestSetsTheFlagsOfTheAnd := by
  unfold Obligations.TestSetsTheFlagsOfTheAnd
  rintro z a b s x y ha hb hmode rfl rfl
  have hw := width_pos ha.1
  refine ⟨testFlags (width z) s.fr (intValue a s) (secondValue a b s), ?_, ?_, withFlags_c ..,
    withFlags_v .., ?_, withFlags_kept _ _ _ _ _⟩
  · exact (reservedOp_architected s _ hmode).trans (flagsOp_ok _ s ha hb)
  · rw [testFlags, withFlags_z, decide_eq_true_eq, trunc_and_eq_zero_iff]
  · rw [testFlags, withFlags_n]
    simp [hw]

/-- Z of `cmp` (44_logic_shift_compare.md R231). -/
theorem trunc_sub_eq_zero_iff {w : Nat} (x y : Word) (hw : w ≤ 64) :
    trunc w (x - y) = 0 ↔ x.toNat % 2 ^ w = y.toNat % 2 ^ w := by
  have htrunc : (0 : Word) = trunc w 0 := by simp [trunc]
  have hwidth : (0 : Word).setWidth w = 0 := BitVec.setWidth_zero w 64
  rw [htrunc, trunc_eq_iff _ _ hw, setWidth_sub_of_le _ _ hw, hwidth, sub_eq_zero,
    ← BitVec.toNat_inj, BitVec.toNat_setWidth, BitVec.toNat_setWidth]

/-- V of `cmp`: the formula over the sign bits is signed overflow (44_logic_shift_compare.md R231). -/
theorem subSignBits_iff_overflow {w : Nat} (x y : Word) (hw : 0 < w) (hle : w ≤ 64) :
    ((trunc w x ^^^ trunc w y) &&& (trunc w x ^^^ trunc w (x - y))).getLsbD (w - 1) = true ↔
      signedW w x - signedW w y < -2 ^ (w - 1) ∨ 2 ^ (w - 1) ≤ signedW w x - signedW w y := by
  have hbits : ((trunc w x ^^^ trunc w y) &&& (trunc w x ^^^ trunc w (x - y))).getLsbD (w - 1) =
      (x.setWidth w).ssubOverflow (y.setWidth w) := by
    rw [BitVec.ssubOverflow_eq, ← setWidth_sub_of_le x y hle, BitVec.getLsbD_and, BitVec.getLsbD_xor,
      BitVec.getLsbD_xor, trunc_getLsbD_eq_msb, trunc_getLsbD_eq_msb, trunc_getLsbD_eq_msb]
    cases (x.setWidth w).msb <;> cases (y.setWidth w).msb <;> simp
  rw [hbits, BitVec.ssubOverflow, signedW_eq_toInt x hw, signedW_eq_toInt y hw]
  simp [or_comm]

/-- Settles O41: each flag of `cmpFlags` is read as arithmetic on `BitVec w`. -/
theorem cmpSetsTheFlagsOfTheDifference : Obligations.CmpSetsTheFlagsOfTheDifference := by
  unfold Obligations.CmpSetsTheFlagsOfTheDifference
  rintro z a b s x y ha hb hmode rfl rfl
  have hw := width_pos ha.1
  have hle := width_le z
  refine ⟨cmpFlags (width z) s.fr (intValue a s) (secondValue a b s), ?_, ?_, ?_, ?_, ?_,
    withFlags_kept _ _ _ _ _⟩
  · exact (reservedOp_architected s _ hmode).trans (flagsOp_ok _ s ha hb)
  · rw [cmpFlags, withFlags_z, decide_eq_true_eq, trunc_sub_trunc _ _ hle,
      trunc_sub_eq_zero_iff _ _ hle]
  · rw [cmpFlags, withFlags_c, decide_eq_true_eq, trunc_toNat _ hle, trunc_toNat _ hle]
  · rw [cmpFlags, withFlags_v, trunc_sub_trunc _ _ hle, subSignBits_iff_overflow _ _ hw hle]
  · rw [cmpFlags, withFlags_n, trunc_sub_trunc _ _ hle, trunc_getLsbD]
    simp [hw]

end Sys2Proof.Machine

/-! PROOF. The two ends of a run: `exit` halts the machine (O47) and the reset port starts it again
(O58). -/

namespace Sys2Proof.Machine

theorem exec_exit (z : OperandSize) (s : State) :
    exec (.exit z []) s = .next (s.setStatus .halted) := rfl

/-- A halted machine has no step (40_sequencer.md R130). -/
theorem step_of_halted {s : State} (h : s.status = .halted) : step s = .refused .halted := by
  simp [step, h]

/-- Settles O47: `exit` writes the status `halted`, and a halted machine has no step. -/
theorem exitHalts : Obligations.ExitHalts := by
  unfold Obligations.ExitHalts
  intro z s
  refine ⟨s.setStatus .halted, exec_exit z s, rfl, rfl, rfl, ?_⟩
  intro u
  rw [step_of_halted (s.setStatus_status .halted)]
  exact nofun

/-- The reset port is refused before initialisation only (70_reset_and_hazards.md R332, R334). -/
theorem hostReset_cases (s : State) :
    (s.status = .uninitialised ∧ hostReset s = .refused .uninitialised) ∨
    (s.status ≠ .uninitialised ∧ hostReset s = .next (resetRegisters s)) := by
  unfold hostReset
  cases s.status with
  | uninitialised => exact .inl ⟨rfl, rfl⟩
  | running => exact .inr ⟨nofun, rfl⟩
  | halted => exact .inr ⟨nofun, rfl⟩
  | faulted code => exact .inr ⟨nofun, rfl⟩

@[simp] theorem resetRegisters_getI (s : State) (j : Fin 64) : (resetRegisters s).getI j = 0 := by
  simp [State.getI]

@[simp] theorem resetRegisters_getF (s : State) (j : Fin 64) : (resetRegisters s).getF j = 0 := by
  simp [State.getF]

/-- Settles O58: the port answers `resetRegisters`, whose fields are the values of R45. -/
theorem resetSetsTheSpecsValues : Obligations.ResetSetsTheSpecsValues := by
  unfold Obligations.ResetSetsTheSpecsValues
  intro s
  rcases hostReset_cases s with ⟨hstatus, hreset⟩ | ⟨hstatus, hreset⟩
  · exact ⟨fun _ => hreset, fun h => absurd hstatus h⟩
  · refine ⟨fun h => absurd h hstatus, fun _ => ⟨resetRegisters s, hreset, ?_⟩⟩
    simp [State.halted]

end Sys2Proof.Machine

/-! PROOF. One walk through `exec` that keeps track of who may write what. `RunsAlike i R` says that the
relation `R` between two states is kept by the writes that instruction `i` is made of, and by no
others: only a target is written, only an operand is read, only a control transfer jumps. Then `i` takes
related states to related outcomes (`exec_alike`). Where `ClosedUnderWrites` lets every instruction make
every write, this walk says which instruction makes which. The frames (O48, O49, O51, O52) and the sink
(O54) are two uses of it. -/

namespace Sys2Proof.Machine

/-! ### Who may write what -/

/-- The instructions that jump (45_control_transfer.md). -/
def controlTransfer (o : Op) : Bool :=
  decide (o ∈ [Op.jsr, .rts, .jmp, .bz, .bnz, .tbz, .tbnz, .bne, .beq, .bae, .ba, .ble, .bl, .bo, .bcc,
    .bcs])

/-- The instructions that move `sp` by themselves (42_data_movement.md R184). -/
def movesSp (o : Op) : Bool := decide (o ∈ [Op.push, .pop, .jsr, .rts])

/-- The instructions that compute flags (44_logic_shift_compare.md R230, R231). -/
def setsFlags (o : Op) : Bool := decide (o ∈ [Op.test, .cmp])

/-- The instructions that store to memory (20_memory.md R61). -/
def storesToMemory (o : Op) : Bool := decide (o ∈ [Op.store, .push, .jsr])

/-- A relation between states that differ in the sink at most, kept by every write that instruction `i`
may make. -/
structure RunsAlike (i : Instr) (R : State → State → Prop) : Prop where
  agree  : ∀ {s s'}, R s s' → ∃ l, s' = { s with sink := l }
  read   : ∀ op ∈ i.operands, op.wellFormed = true →
    ∀ {s s'}, R s s' → R (afterRead op s) (afterRead op s')
  write  : ∀ op, targetOf i = some op → op.wellFormed = true →
    ∀ v {s s'}, R s s' → R (afterWrite op v s) (afterWrite op v s')
  jump   : controlTransfer i.op = true → ∀ x {s s'}, R s s' → R (s.setPc x) (s'.setPc x)
  stack  : movesSp i.op = true → ∀ x {s s'}, R s s' → R (s.setSp x) (s'.setSp x)
  flags  : setsFlags i.op = true → ∀ x {s s'}, R s s' → R (s.setFr x) (s'.setFr x)
  store  : storesToMemory i.op = true → ∀ m {s s'}, R s s' → R (s.setMem m) (s'.setMem m)
  halt   : ∀ {s s'}, R s s' → R (s.setStatus .halted) (s'.setStatus .halted)
  raised : ∀ c {s s'}, R s s' → R (raise c s) (raise c s')

/-! ### Related results -/

/-- The same value or the same fault, in related states. -/
inductive Res.Alike {α : Type} (R : State → State → Prop) : Res α → Res α → Prop where
  | ok (v : α) {s s' : State} (h : R s s') : Res.Alike R (.ok v s) (.ok v s')
  | fault (c : FaultCause) {s s' : State} (h : R s s') : Res.Alike R (.fault c s) (.fault c s')

/-- The same outcome, in related next states. -/
inductive OutcomeAlike (R : State → State → Prop) :
    Host.Outcome State Fault Refusal → Host.Outcome State Fault Refusal → Prop where
  | next {s s' : State} (h : R s s') : OutcomeAlike R (.next s) (.next s')
  | fault (f : Fault) : OutcomeAlike R (.fault f) (.fault f)
  | refused (r : Refusal) : OutcomeAlike R (.refused r) (.refused r)

/-- A target that can be written names a register if its mode does. -/
theorem wellFormed_of_targetFault {size : OperandSize} {op : Operand} {v : Value}
    (h : targetFault size op v = none) : op.wellFormed = true := by
  unfold targetFault at h
  split at h
  case h_1 => cases h
  case h_2 hok => exact ((accessFault_eq_none size op).1 hok).2

section

variable {R : State → State → Prop} {s s' : State}

theorem Res.Alike.bind {α β : Type} {r r' : Res α} {f : α → State → Res β} (hr : r.Alike R r')
    (hf : ∀ v {s s'}, R s s' → (f v s).Alike R (f v s')) : (r.bind f).Alike R (r'.bind f) := by
  cases hr with
  | ok v h => exact hf v h
  | fault c h => exact .fault c h

namespace RunsAlike

variable {i : Instr} (hR : RunsAlike i R)

include hR

theorem finish {r r' : Res Unit} (hr : r.Alike R r') : OutcomeAlike R r.finish r'.finish := by
  cases hr with
  | ok _ h => exact .next h
  | fault c h => exact .next (hR.raised c h)

/-! ### What related states agree on -/

theorem intValue_eq (op : Operand) (h : R s s') : intValue op s' = intValue op s := by
  obtain ⟨l, rfl⟩ := hR.agree h
  rcases op with ⟨m, _⟩ | ⟨m, _⟩ | ⟨m, _, _⟩ <;> cases m <;> rfl

theorem floatValue_eq (op : Operand) (h : R s s') : floatValue op s' = floatValue op s := by
  obtain ⟨l, rfl⟩ := hR.agree h
  rcases op with ⟨m, _⟩ | ⟨m, _⟩ | ⟨m, _, _⟩ <;> cases m <;> rfl

theorem mem_eq (h : R s s') : s'.mem = s.mem := by
  obtain ⟨l, rfl⟩ := hR.agree h; rfl

theorem cfg_eq (h : R s s') : s'.cfg = s.cfg := by
  obtain ⟨l, rfl⟩ := hR.agree h; rfl

theorem pc_eq (h : R s s') : s'.pc = s.pc := by
  obtain ⟨l, rfl⟩ := hR.agree h; rfl

theorem sp_eq (h : R s s') : s'.sp = s.sp := by
  obtain ⟨l, rfl⟩ := hR.agree h; rfl

theorem fr_eq (h : R s s') : s'.fr = s.fr := by
  obtain ⟨l, rfl⟩ := hR.agree h; rfl

theorem accessBytes_eq (size : OperandSize) (h : R s s') : accessBytes size s' = accessBytes size s := by
  rw [accessBytes, accessBytes, hR.cfg_eq h]

theorem inBounds_eq (addr : Word) (n : Nat) (h : R s s') : s'.inBounds addr n = s.inBounds addr n := by
  rw [State.inBounds, State.inBounds, hR.cfg_eq h]

/-! ### Operands, memory and stack -/

theorem resolveInt_alike (size : OperandSize) {op : Operand} (hop : op ∈ i.operands) (h : R s s') :
    (resolveInt size op s).Alike R (resolveInt size op s') := by
  unfold resolveInt
  split
  case h_1 c _ => exact .fault c h
  case h_2 hok =>
    rw [hR.intValue_eq op h]
    exact .ok _ (hR.read op hop ((accessFault_eq_none size op).1 hok).2 h)

theorem resolveFloat_alike (size : OperandSize) {op : Operand} (hop : op ∈ i.operands) (h : R s s') :
    (resolveFloat size op s).Alike R (resolveFloat size op s') := by
  unfold resolveFloat
  rw [hR.floatValue_eq op h]
  split
  case h_1 c _ => exact .fault c h
  case h_2 hok =>
    split
    · exact .ok _ (hR.read op hop ((accessFault_eq_none size op).1 hok).2 h)
    · exact .fault _ h

theorem resolveMove_alike (size : OperandSize) {op : Operand} (hop : op ∈ i.operands) (h : R s s') :
    (resolveMove size op s).Alike R (resolveMove size op s') := by
  unfold resolveMove
  split
  · exact (hR.resolveFloat_alike size hop h).bind fun _ _ _ h1 => .ok _ h1
  · exact (hR.resolveInt_alike size hop h).bind fun _ _ _ h1 => .ok _ h1

theorem assign_alike (size : OperandSize) {op : Operand} (hop : targetOf i = some op) (v : Value)
    (h : R s s') : (assign size op v s).Alike R (assign size op v s') := by
  unfold assign
  split
  case h_1 c _ => exact .fault c h
  case h_2 hok => exact .ok _ (hR.write op hop (wellFormed_of_targetFault hok) v h)

theorem effectiveAddress_alike (size : OperandSize) {base : Operand} {offset : Option Operand}
    (hbase : base ∈ i.operands) (hoffset : ∀ o, offset = some o → o ∈ i.operands) (h : R s s') :
    (effectiveAddress size base offset s).Alike R (effectiveAddress size base offset s') :=
  (hR.resolveInt_alike size hbase h).bind fun _ _ _ h1 =>
    match offset, hoffset with
    | none, _ => .ok _ h1
    | some o, ho => (hR.resolveInt_alike size (ho o rfl) h1).bind fun _ _ _ h2 => .ok _ h2

theorem memRead_alike (addr : Word) (n : Nat) (h : R s s') :
    (memRead addr n s).Alike R (memRead addr n s') := by
  unfold memRead
  rw [hR.inBounds_eq addr n h, hR.mem_eq h]
  split
  · exact .ok _ h
  · exact .fault _ h

theorem memWrite_alike (hi : storesToMemory i.op = true) (addr : Word) (n : Nat) (v : Word)
    (h : R s s') : (memWrite addr n v s).Alike R (memWrite addr n v s') := by
  unfold memWrite
  rw [hR.inBounds_eq addr n h, hR.mem_eq h]
  split
  · exact .ok _ (hR.store hi _ h)
  · exact .fault _ h

theorem stackPush_alike (hi : storesToMemory i.op = true) (hsp : movesSp i.op = true) (v : Word)
    (h : R s s') : (stackPush v s).Alike R (stackPush v s') := by
  unfold stackPush
  rw [hR.sp_eq h]
  exact hR.memWrite_alike hi _ _ _ (hR.stack hsp _ h)

theorem stackPop_alike (hsp : movesSp i.op = true) (h : R s s') :
    (stackPop s).Alike R (stackPop s') := by
  unfold stackPop
  rw [hR.sp_eq h]
  refine (hR.memRead_alike _ _ h).bind fun v _ _ h1 => ?_
  rw [hR.sp_eq h1]
  exact .ok v (hR.stack hsp _ h1)

/-! ### The shapes of the meanings -/

theorem wrongCount_alike (h : R s s') : OutcomeAlike R (wrongCount s) (wrongCount s') :=
  .next (hR.raised _ h)

theorem reservedOp_alike {o o' : Host.Outcome State Fault Refusal} (h : R s s')
    (ho : OutcomeAlike R o o') : OutcomeAlike R (reservedOp s o) (reservedOp s' o') := by
  unfold reservedOp
  rw [hR.cfg_eq h]
  split
  · exact ho
  · exact .next h

theorem inertOp_alike (ops : List Operand) (h : R s s') :
    OutcomeAlike R (inertOp ops s) (inertOp ops s') := by
  unfold inertOp
  split
  · exact .next h
  · exact hR.wrongCount_alike h

theorem binaryOp_alike (size : OperandSize) {ops : List Operand} (f : Word → Word → Word)
    (hops : i.operands = ops) (ht : targetOf i = ops[0]?) (h : R s s') :
    OutcomeAlike R (binaryOp size ops f s) (binaryOp size ops f s') := by
  unfold binaryOp
  split
  case h_1 t a b =>
    refine hR.finish ?_
    exact (hR.resolveInt_alike size (by simp [hops]) h).bind fun _ _ _ h1 =>
      (hR.resolveInt_alike size (by simp [hops]) h1).bind fun _ _ _ h2 => hR.assign_alike size ht _ h2
  case h_2 => exact hR.wrongCount_alike h

theorem unaryOp_alike (size : OperandSize) {ops : List Operand} (f : Word → Word)
    (hops : i.operands = ops) (ht : targetOf i = ops[0]?) (h : R s s') :
    OutcomeAlike R (unaryOp size ops f s) (unaryOp size ops f s') := by
  unfold unaryOp
  split
  case h_1 t a =>
    refine hR.finish ?_
    exact (hR.resolveInt_alike size (by simp [hops]) h).bind fun _ _ _ h1 =>
      hR.assign_alike size ht _ h1
  case h_2 => exact hR.wrongCount_alike h

theorem flagsOp_alike (hi : setsFlags i.op = true) (size : OperandSize) {ops : List Operand}
    (f : Word → Word → Word → Word) (hops : i.operands = ops) (h : R s s') :
    OutcomeAlike R (flagsOp size ops f s) (flagsOp size ops f s') := by
  unfold flagsOp
  split
  case h_1 a b =>
    refine hR.finish ?_
    refine (hR.resolveInt_alike size (by simp [hops]) h).bind fun _ _ _ h1 =>
      (hR.resolveInt_alike size (by simp [hops]) h1).bind fun _ _ _ h2 => ?_
    rw [hR.fr_eq h2]
    exact .ok _ (hR.flags hi _ h2)
  case h_2 => exact hR.wrongCount_alike h

/-- A jump that is taken or not. -/
theorem jump_alike (hi : controlTransfer i.op = true) (taken : Prop) [Decidable taken] (x : Word)
    (h : R s s') : R (if taken then s.setPc x else s) (if taken then s'.setPc x else s') := by
  split
  · exact hR.jump hi x h
  · exact h

theorem branchOp_alike (hi : controlTransfer i.op = true) (size : OperandSize) {ops : List Operand}
    (cond : Word → Bool) (hops : i.operands = ops) (h : R s s') :
    OutcomeAlike R (branchOp size ops cond s) (branchOp size ops cond s') := by
  unfold branchOp
  split
  case h_1 t =>
    refine hR.finish ?_
    refine (hR.resolveInt_alike size (by simp [hops]) h).bind fun x _ _ h1 => ?_
    rw [hR.fr_eq h1]
    exact .ok _ (hR.jump_alike hi _ x h1)
  case h_2 => exact hR.wrongCount_alike h

theorem bitBranchOp_alike (hi : controlTransfer i.op = true) (size : OperandSize)
    {ops : List Operand} (wanted : Bool) (hops : i.operands = ops) (h : R s s') :
    OutcomeAlike R (bitBranchOp size ops wanted s) (bitBranchOp size ops wanted s') := by
  unfold bitBranchOp
  split
  case h_1 t b =>
    refine hR.finish ?_
    refine (hR.resolveInt_alike size (by simp [hops]) h).bind fun x _ _ h1 =>
      (hR.resolveInt_alike size (by simp [hops]) h1).bind fun _ _ _ h2 => ?_
    rw [hR.fr_eq h2]
    exact .ok _ (hR.jump_alike hi _ x h2)
  case h_2 => exact hR.wrongCount_alike h

/-! ### The meanings that have a shape of their own -/

theorem loadFrom_alike (size : OperandSize) {t base : Operand} {offset : Option Operand}
    (hbase : base ∈ i.operands) (hoffset : ∀ o, offset = some o → o ∈ i.operands)
    (ht : targetOf i = some t) (h : R s s') :
    (loadFrom size t base offset s).Alike R (loadFrom size t base offset s') := by
  refine (hR.effectiveAddress_alike size hbase hoffset h).bind fun _ _ _ h1 => ?_
  rw [hR.accessBytes_eq size h1]
  exact (hR.memRead_alike _ _ h1).bind fun _ _ _ h2 => hR.assign_alike size ht _ h2

theorem storeTo_alike (hi : storesToMemory i.op = true) (size : OperandSize) {v0 base : Operand}
    {offset : Option Operand} (hv : v0 ∈ i.operands) (hbase : base ∈ i.operands)
    (hoffset : ∀ o, offset = some o → o ∈ i.operands) (h : R s s') :
    (storeTo size v0 base offset s).Alike R (storeTo size v0 base offset s') := by
  refine (hR.resolveInt_alike size hv h).bind fun _ _ _ h1 =>
    (hR.effectiveAddress_alike size hbase hoffset h1).bind fun _ _ _ h2 => ?_
  rw [hR.accessBytes_eq size h2]
  exact hR.memWrite_alike hi _ _ _ h2

theorem execLoad_alike (size : OperandSize) {ops : List Operand} (hops : i.operands = ops)
    (ht : targetOf i = ops[0]?) (h : R s s') :
    OutcomeAlike R (execLoad size ops s) (execLoad size ops s') := by
  unfold execLoad
  split
  case h_1 t base =>
    exact hR.finish (hR.loadFrom_alike size (by simp [hops]) nofun ht h)
  case h_2 t base offset =>
    exact hR.finish (hR.loadFrom_alike size (by simp [hops]) (by simp [hops]) ht h)
  case h_3 => exact hR.wrongCount_alike h

theorem execStore_alike (hi : storesToMemory i.op = true) (size : OperandSize) {ops : List Operand}
    (hops : i.operands = ops) (h : R s s') :
    OutcomeAlike R (execStore size ops s) (execStore size ops s') := by
  unfold execStore
  split
  case h_1 v0 base =>
    exact hR.finish (hR.storeTo_alike hi size (by simp [hops]) (by simp [hops]) nofun h)
  case h_2 v0 base offset =>
    exact hR.finish (hR.storeTo_alike hi size (by simp [hops]) (by simp [hops]) (by simp [hops]) h)
  case h_3 => exact hR.wrongCount_alike h

theorem execMove_alike (size : OperandSize) {ops : List Operand} (hops : i.operands = ops)
    (ht : targetOf i = ops[1]?) (h : R s s') :
    OutcomeAlike R (execMove size ops s) (execMove size ops s') := by
  unfold execMove
  split
  case h_1 a t =>
    refine hR.finish ?_
    exact (hR.resolveMove_alike size (by simp [hops]) h).bind fun v _ _ h1 =>
      hR.assign_alike size ht v h1
  case h_2 => exact hR.wrongCount_alike h

theorem execPush_alike (hi : storesToMemory i.op = true) (hsp : movesSp i.op = true)
    (size : OperandSize) {ops : List Operand} (hops : i.operands = ops) (h : R s s') :
    OutcomeAlike R (execPush size ops s) (execPush size ops s') := by
  unfold execPush
  split
  case h_1 a =>
    refine hR.finish ?_
    exact (hR.resolveInt_alike size (by simp [hops]) h).bind fun v _ _ h1 =>
      hR.stackPush_alike hi hsp v h1
  case h_2 => exact hR.wrongCount_alike h

theorem execPop_alike (hsp : movesSp i.op = true) (size : OperandSize) {ops : List Operand}
    (ht : targetOf i = ops[0]?) (h : R s s') :
    OutcomeAlike R (execPop size ops s) (execPop size ops s') := by
  unfold execPop
  split
  case h_1 t =>
    refine hR.finish ?_
    exact (hR.stackPop_alike hsp h).bind fun _ _ _ h1 => hR.assign_alike size ht _ h1
  case h_2 => exact hR.wrongCount_alike h

theorem execMod_alike (size : OperandSize) {ops : List Operand} (hops : i.operands = ops)
    (ht : targetOf i = ops[0]?) (h : R s s') :
    OutcomeAlike R (execMod size ops s) (execMod size ops s') := by
  unfold execMod
  split
  case h_1 t a b =>
    refine hR.finish ?_
    refine (hR.resolveInt_alike size (by simp [hops]) h).bind fun _ _ _ h1 =>
      (hR.resolveInt_alike size (by simp [hops]) h1).bind fun _ _ _ h2 => ?_
    rw [hR.cfg_eq h2]
    split
    · exact .fault _ h2
    · exact hR.assign_alike size ht _ h2
  case h_2 => exact hR.wrongCount_alike h

theorem execJsr_alike (hi : controlTransfer i.op = true) (hm : storesToMemory i.op = true)
    (hsp : movesSp i.op = true) (size : OperandSize) {ops : List Operand} (hops : i.operands = ops)
    (h : R s s') : OutcomeAlike R (execJsr size ops s) (execJsr size ops s') := by
  unfold execJsr
  rw [hR.pc_eq h]
  split
  case h_1 t =>
    refine hR.finish ?_
    exact (hR.stackPush_alike hm hsp _ h).bind fun _ _ _ h1 =>
      (hR.resolveInt_alike size (by simp [hops]) h1).bind fun x _ _ h2 => .ok _ (hR.jump hi x h2)
  case h_2 => exact hR.wrongCount_alike h

theorem execRts_alike (hi : controlTransfer i.op = true) (hsp : movesSp i.op = true)
    (size : OperandSize) (ops : List Operand) (h : R s s') :
    OutcomeAlike R (execRts size ops s) (execRts size ops s') := by
  unfold execRts
  split
  case h_1 =>
    refine hR.finish ?_
    exact (hR.stackPop_alike hsp h).bind fun v _ _ h1 => .ok _ (hR.jump hi v h1)
  case h_2 => exact hR.wrongCount_alike h

theorem execJmp_alike (hi : controlTransfer i.op = true) (size : OperandSize) {ops : List Operand}
    (hops : i.operands = ops) (h : R s s') :
    OutcomeAlike R (execJmp size ops s) (execJmp size ops s') := by
  unfold execJmp
  split
  case h_1 t =>
    refine hR.finish ?_
    exact (hR.resolveInt_alike size (by simp [hops]) h).bind fun x _ _ h1 => .ok _ (hR.jump hi x h1)
  case h_2 => exact hR.wrongCount_alike h

theorem execExit_alike (size : OperandSize) (ops : List Operand) (h : R s s') :
    OutcomeAlike R (execExit size ops s) (execExit size ops s') := by
  unfold execExit
  split
  case h_1 => exact .next (hR.halt h)
  case h_2 => exact hR.wrongCount_alike h

end RunsAlike

/-- An instruction whose writes keep a relation takes related states to related outcomes. -/
theorem exec_alike (h : R s s') : (i : Instr) → RunsAlike i R → OutcomeAlike R (exec i s) (exec i s')
  | .nop _ ops, hR => hR.inertOp_alike ops h
  | .load size _, hR => hR.execLoad_alike size rfl rfl h
  | .store size _, hR => hR.execStore_alike rfl size rfl h
  | .move size _, hR => hR.execMove_alike size rfl rfl h
  | .push size _, hR => hR.execPush_alike rfl rfl size rfl h
  | .pop size _, hR => hR.execPop_alike rfl size rfl h
  | .add size _, hR => hR.binaryOp_alike size _ rfl rfl h
  | .sub size _, hR => hR.binaryOp_alike size _ rfl rfl h
  | .mul size _, hR => hR.binaryOp_alike size _ rfl rfl h
  | .div size _, hR => hR.binaryOp_alike size _ rfl rfl h
  | .mod size _, hR => hR.execMod_alike size rfl rfl h
  | .neg size _, hR => hR.reservedOp_alike h (hR.unaryOp_alike size _ rfl rfl h)
  | .shr size _, hR => hR.reservedOp_alike h (hR.binaryOp_alike size _ rfl rfl h)
  | .shl size _, hR => hR.reservedOp_alike h (hR.binaryOp_alike size _ rfl rfl h)
  | .ror size _, hR => hR.reservedOp_alike h (hR.binaryOp_alike size _ rfl rfl h)
  | .rol size _, hR => hR.reservedOp_alike h (hR.binaryOp_alike size _ rfl rfl h)
  | .and size _, hR => hR.reservedOp_alike h (hR.binaryOp_alike size _ rfl rfl h)
  | .or size _, hR => hR.reservedOp_alike h (hR.binaryOp_alike size _ rfl rfl h)
  | .xor size _, hR => hR.reservedOp_alike h (hR.binaryOp_alike size _ rfl rfl h)
  | .not size _, hR => hR.reservedOp_alike h (hR.unaryOp_alike size _ rfl rfl h)
  | .bis size _, hR => hR.reservedOp_alike h (hR.binaryOp_alike size _ rfl rfl h)
  | .bic size _, hR => hR.reservedOp_alike h (hR.binaryOp_alike size _ rfl rfl h)
  | .test size _, hR => hR.reservedOp_alike h (hR.flagsOp_alike rfl size _ rfl h)
  | .cmp size _, hR => hR.reservedOp_alike h (hR.flagsOp_alike rfl size _ rfl h)
  | .bz size _, hR => hR.reservedOp_alike h (hR.branchOp_alike rfl size _ rfl h)
  | .bnz size _, hR => hR.reservedOp_alike h (hR.branchOp_alike rfl size _ rfl h)
  | .tbz size _, hR => hR.reservedOp_alike h (hR.bitBranchOp_alike rfl size _ rfl h)
  | .tbnz size _, hR => hR.reservedOp_alike h (hR.bitBranchOp_alike rfl size _ rfl h)
  | .bne size _, hR => hR.reservedOp_alike h (hR.branchOp_alike rfl size _ rfl h)
  | .beq size _, hR => hR.reservedOp_alike h (hR.branchOp_alike rfl size _ rfl h)
  | .bae size _, hR => hR.reservedOp_alike h (hR.branchOp_alike rfl size _ rfl h)
  | .ba size _, hR => hR.reservedOp_alike h (hR.branchOp_alike rfl size _ rfl h)
  | .ble size _, hR => hR.reservedOp_alike h (hR.branchOp_alike rfl size _ rfl h)
  | .bl size _, hR => hR.reservedOp_alike h (hR.branchOp_alike rfl size _ rfl h)
  | .bo size _, hR => hR.reservedOp_alike h (hR.branchOp_alike rfl size _ rfl h)
  | .bcc size _, hR => hR.reservedOp_alike h (hR.branchOp_alike rfl size _ rfl h)
  | .bcs size _, hR => hR.reservedOp_alike h (hR.branchOp_alike rfl size _ rfl h)
  | .jsr size _, hR => hR.execJsr_alike rfl rfl rfl size rfl h
  | .rts size ops, hR => hR.execRts_alike rfl rfl size ops h
  | .jmp size _, hR => hR.execJmp_alike rfl size rfl h
  | .metaData _ ops, hR => hR.reservedOp_alike h (hR.inertOp_alike ops h)
  | .debug _ ops, hR => hR.reservedOp_alike h (hR.inertOp_alike ops h)
  | .exit size ops, hR => hR.execExit_alike size ops h

end

end Sys2Proof.Machine

/-! PROOF. The frames of the registers (O48, O49, O51, O52): a part of the state that the writes of an
instruction leave alone is what it was. -/

namespace Sys2Proof.Machine

/-! ### A part of the state that an instruction leaves alone -/

/-- What an instruction writes leaves the part `f` of the state alone. -/
structure Untouched {α : Type} (f : State → α) (i : Instr) : Prop where
  read   : ∀ op ∈ i.operands, op.wellFormed = true → ∀ s, f (afterRead op s) = f s
  write  : ∀ op, targetOf i = some op → op.wellFormed = true → ∀ v s, f (afterWrite op v s) = f s
  jump   : controlTransfer i.op = true → ∀ x s, f (s.setPc x) = f s
  stack  : movesSp i.op = true → ∀ x s, f (s.setSp x) = f s
  flags  : setsFlags i.op = true → ∀ x s, f (s.setFr x) = f s
  store  : storesToMemory i.op = true → ∀ m s, f (s.setMem m) = f s
  halt   : ∀ s, f (s.setStatus .halted) = f s
  raised : ∀ c s, f (raise c s) = f s

/-- One state, in which the part `f` has the value `x`. -/
def SameWith {α : Type} (f : State → α) (x : α) (s s' : State) : Prop := s' = s ∧ f s = x

/-- A write that leaves `f` alone leaves its value alone. -/
theorem SameWith.map {α : Type} {f : State → α} {x : α} {w : State → State} (hw : ∀ s, f (w s) = f s)
    {s s' : State} (h : SameWith f x s s') : SameWith f x (w s) (w s') :=
  ⟨congrArg w h.1, (hw s).trans h.2⟩

theorem Untouched.runsAlike {α : Type} {f : State → α} {i : Instr} (h : Untouched f i) (x : α) :
    RunsAlike i (SameWith f x) where
  agree hs := ⟨_, hs.1⟩
  read op hop hw := SameWith.map (h.read op hop hw)
  write op hop hw v := SameWith.map (h.write op hop hw v)
  jump hi x := SameWith.map (h.jump hi x)
  stack hi x := SameWith.map (h.stack hi x)
  flags hi x := SameWith.map (h.flags hi x)
  store hi m := SameWith.map (h.store hi m)
  halt := SameWith.map h.halt
  raised c := SameWith.map (h.raised c)

/-- The frame rule: what the writes of an instruction leave alone is unchanged in its next state. -/
theorem Untouched.exec_eq {α : Type} {f : State → α} {i : Instr} (hf : Untouched f i) {s t : State}
    (hexec : exec i s = .next t) : f t = f s := by
  have h := exec_alike ⟨rfl, rfl⟩ i (hf.runsAlike (f s))
  rw [hexec] at h
  cases h with
  | next h => exact h.2

/-! ### What reading and writing an operand leave alone -/

/-- A well-formed index byte names the register of its number (10_state.md R33). -/
theorem bankIndex_ne {i : Byte} {j : Fin 64} (hi : i.toNat ≤ 63) (hj : i.toNat ≠ j.val) :
    bankIndex i ≠ j := by
  rintro rfl
  exact hj (Nat.mod_eq_of_lt (by omega)).symm

theorem getI_setI_of_ne {s : State} {i : Byte} {j : Fin 64} (v : Word) (hi : i.toNat ≤ 63)
    (hj : i.toNat ≠ j.val) : (s.setI (bankIndex i) v).getI j = s.getI j := by
  rw [State.getI_setI, if_neg (bankIndex_ne hi hj)]

theorem afterRead_getI {op : Operand} {j : Fin 64} (hw : op.wellFormed = true)
    (h : adjustsI op j = false) (s : State) : (afterRead op s).getI j = s.getI j := by
  match op with
  | .special _ _ => rfl
  | .const _ _ _ => rfl
  | .reg m i =>
    simp only [Operand.wellFormed, decide_eq_true_eq] at hw
    cases m
    case registerInteger => rfl
    case registerFloat => rfl
    all_goals exact getI_setI_of_ne _ hw (of_decide_eq_false h)

theorem afterWrite_getI {op : Operand} {j : Fin 64} (hw : op.wellFormed = true)
    (h : namesI op j = false) (v : Value) (s : State) : (afterWrite op v s).getI j = s.getI j := by
  match op with
  | .special m _ => cases m <;> rfl
  | .const _ _ _ => rfl
  | .reg m i =>
    simp only [Operand.wellFormed, decide_eq_true_eq] at hw
    cases m
    case registerFloat => rfl
    all_goals exact getI_setI_of_ne _ hw (of_decide_eq_false h)

theorem afterWrite_getF {op : Operand} {j : Fin 64} (hw : op.wellFormed = true)
    (h : namesF op j = false) (v : Value) (s : State) : (afterWrite op v s).getF j = s.getF j := by
  match op with
  | .special m _ => cases m <;> rfl
  | .const _ _ _ => rfl
  | .reg m i =>
    simp only [Operand.wellFormed, decide_eq_true_eq] at hw
    cases m
    case registerFloat =>
      exact (State.getF_setF ..).trans (if_neg (bankIndex_ne hw (of_decide_eq_false h)))
    all_goals rfl

theorem afterWrite_sr {op : Operand} (h : ∀ index, op ≠ .special .registerStatus index) (v : Value)
    (s : State) : (afterWrite op v s).sr = s.sr := by
  match op with
  | .special .registerStatus index => exact absurd rfl (h index)
  | .special .registerSp _ => rfl
  | .special .registerPc _ => rfl
  | .special .registerFlags _ => rfl
  | .const _ _ _ => rfl
  | .reg m _ => cases m <;> rfl

theorem afterWrite_sp {op : Operand} (h : ∀ index, op ≠ .special .registerSp index) (v : Value)
    (s : State) : (afterWrite op v s).sp = s.sp := by
  match op with
  | .special .registerSp index => exact absurd rfl (h index)
  | .special .registerPc _ => rfl
  | .special .registerFlags _ => rfl
  | .special .registerStatus _ => rfl
  | .const _ _ _ => rfl
  | .reg m _ => cases m <;> rfl

theorem afterWrite_pc {op : Operand} (h : ∀ index, op ≠ .special .registerPc index) (v : Value)
    (s : State) : (afterWrite op v s).pc = s.pc := by
  match op with
  | .special .registerPc index => exact absurd rfl (h index)
  | .special .registerSp _ => rfl
  | .special .registerFlags _ => rfl
  | .special .registerStatus _ => rfl
  | .const _ _ _ => rfl
  | .reg m _ => cases m <;> rfl

/-- No target of this kind means that the target slot's operand is not of it. -/
theorem ne_of_targetOf {i : Instr} {op : Operand} {special : Byte → Operand}
    (h : ∀ index, targetOf i ≠ some (special index)) (hop : targetOf i = some op) (index : Byte) :
    op ≠ special index := by
  rintro rfl
  exact h index hop

/-! ### The frames -/

theorem integerRegister_untouched {i : Instr} {j : Fin 64}
    (htarget : ∀ op, targetOf i = some op → namesI op j = false)
    (hread : ∀ op ∈ i.operands, adjustsI op j = false) : Untouched (·.getI j) i where
  read op hop hw := afterRead_getI hw (hread op hop)
  write op hop hw := afterWrite_getI hw (htarget op hop)
  jump _ _ _ := rfl
  stack _ _ _ := rfl
  flags _ _ _ := rfl
  store _ _ _ := rfl
  halt _ := rfl
  raised _ _ := rfl

/-- Settles O48: only a named target and an adjusted operand reach an integer register. -/
theorem integerRegisterFrame : Obligations.IntegerRegisterFrame := by
  unfold Obligations.IntegerRegisterFrame
  intro i s t j hexec htarget hread
  exact (integerRegister_untouched htarget hread).exec_eq hexec

theorem floatRegister_untouched {i : Instr} {j : Fin 64}
    (htarget : ∀ op, targetOf i = some op → namesF op j = false) : Untouched (·.getF j) i where
  read op _ _ s := afterRead_getF op s j
  write op hop hw := afterWrite_getF hw (htarget op hop)
  jump _ _ _ := rfl
  stack _ _ _ := rfl
  flags _ _ _ := rfl
  store _ _ _ := rfl
  halt _ := rfl
  raised _ _ := rfl

/-- Settles O49: only a named target reaches a float register. -/
theorem floatRegisterFrame : Obligations.FloatRegisterFrame := by
  unfold Obligations.FloatRegisterFrame
  intro i s t j hexec htarget
  exact (floatRegister_untouched htarget).exec_eq hexec

theorem statusRegister_untouched {i : Instr}
    (htarget : ∀ index, targetOf i ≠ some (.special .registerStatus index)) :
    Untouched State.sr i where
  read op _ _ s := afterRead_sr op s
  write _ hop _ := afterWrite_sr (ne_of_targetOf htarget hop)
  jump _ _ _ := rfl
  stack _ _ _ := rfl
  flags _ _ _ := rfl
  store _ _ _ := rfl
  halt _ := rfl
  raised _ _ := rfl

theorem stackPointer_untouched {i : Instr}
    (htarget : ∀ index, targetOf i ≠ some (.special .registerSp index))
    (hop : movesSp i.op = false) : Untouched State.sp i where
  read op _ _ s := afterRead_sp op s
  write _ hop _ := afterWrite_sp (ne_of_targetOf htarget hop)
  jump _ _ _ := rfl
  stack hi := absurd hi (by simp [hop])
  flags _ _ _ := rfl
  store _ _ _ := rfl
  halt _ := rfl
  raised _ _ := rfl

/-- Settles O51: `sr` has no writer but a target, `sp` none but a target and the stack. -/
theorem statusRegisterAndStackPointerFrame : Obligations.StatusRegisterAndStackPointerFrame := by
  unfold Obligations.StatusRegisterAndStackPointerFrame
  intro i s t hexec
  exact ⟨fun htarget => (statusRegister_untouched htarget).exec_eq hexec,
    fun htarget hop => (stackPointer_untouched htarget (decide_eq_false hop)).exec_eq hexec⟩

theorem programCounter_untouched {i : Instr}
    (htarget : ∀ index, targetOf i ≠ some (.special .registerPc index))
    (hop : controlTransfer i.op = false) : Untouched State.pc i where
  read op _ _ s := afterRead_pc op s
  write _ hop _ := afterWrite_pc (ne_of_targetOf htarget hop)
  jump hi := absurd hi (by simp [hop])
  stack _ _ _ := rfl
  flags _ _ _ := rfl
  store _ _ _ := rfl
  halt _ := rfl
  raised _ _ := rfl

/-- Settles O52: `pc` has no writer in `exec` but a target and a jump. -/
theorem programCounterFrame : Obligations.ProgramCounterFrame := by
  unfold Obligations.ProgramCounterFrame
  intro i s t hexec htarget hop
  exact (programCounter_untouched htarget (decide_eq_false hop)).exec_eq hexec

end Sys2Proof.Machine

/-! PROOF. The sink (O54): two states that differ in it alone run alike, and what is appended to one is
appended to the other. -/

namespace Sys2Proof.Machine

/-- The same state but for the sink: both have the same records after what they began with. -/
def SinkReplaced (base l : List Diagnostic) (s s' : State) : Prop :=
  ∃ added, s.sink = base ++ added ∧ s' = { s with sink := l ++ added }

theorem sinkReplaced_initial (s : State) (l : List Diagnostic) :
    SinkReplaced s.sink l s { s with sink := l } := ⟨[], by simp, by simp⟩

/-- A write that neither reads nor writes the sink. -/
theorem SinkReplaced.map {base l : List Diagnostic} (w : State → State)
    (hsink : ∀ s, (w s).sink = s.sink)
    (hw : ∀ s l', w { s with sink := l' } = { w s with sink := l' }) {s s' : State}
    (h : SinkReplaced base l s s') : SinkReplaced base l (w s) (w s') := by
  obtain ⟨added, hs, rfl⟩ := h
  exact ⟨added, (hsink s).trans hs, hw s _⟩

theorem SinkReplaced.raised {base l : List Diagnostic} (c : FaultCause) {s s' : State}
    (h : SinkReplaced base l s s') : SinkReplaced base l (raise c s) (raise c s') := by
  obtain ⟨added, hs, rfl⟩ := h
  exact ⟨added ++ c.diagnostics, by simp [hs], by simp [raise]⟩

theorem afterRead_withSink (op : Operand) (s : State) (l : List Diagnostic) :
    afterRead op { s with sink := l } = { afterRead op s with sink := l } := by
  rcases op with ⟨m, _⟩ | ⟨m, _⟩ | ⟨m, _, _⟩ <;> cases m <;> rfl

theorem afterWrite_withSink (op : Operand) (v : Value) (s : State) (l : List Diagnostic) :
    afterWrite op v { s with sink := l } = { afterWrite op v s with sink := l } := by
  rcases op with ⟨m, _⟩ | ⟨m, _⟩ | ⟨m, _, _⟩ <;> cases m <;> rfl

theorem sinkReplaced_runsAlike (i : Instr) (base l : List Diagnostic) :
    RunsAlike i (SinkReplaced base l) where
  agree := fun ⟨_, _, hs⟩ => ⟨_, hs⟩
  read op _ _ := SinkReplaced.map (afterRead op) (afterRead_sink op) (afterRead_withSink op)
  write op _ _ v := SinkReplaced.map (afterWrite op v) (afterWrite_sink op v) (afterWrite_withSink op v)
  jump _ x := SinkReplaced.map (·.setPc x) (fun _ => rfl) fun _ _ => rfl
  stack _ x := SinkReplaced.map (·.setSp x) (fun _ => rfl) fun _ _ => rfl
  flags _ x := SinkReplaced.map (·.setFr x) (fun _ => rfl) fun _ _ => rfl
  store _ m := SinkReplaced.map (·.setMem m) (fun _ => rfl) fun _ _ => rfl
  halt := SinkReplaced.map (·.setStatus .halted) (fun _ => rfl) fun _ _ => rfl
  raised := SinkReplaced.raised

/-- Decode does not see the sink. -/
theorem fetch_withSink (s : State) (l : List Diagnostic) : fetch { s with sink := l } = fetch s := rfl

/-- A step from a state with its sink replaced has the same outcome, but for the sink. -/
theorem step_withSink (s : State) (l : List Diagnostic) :
    OutcomeAlike (SinkReplaced s.sink l) (step s) (step { s with sink := l }) := by
  have hs := sinkReplaced_initial s l
  unfold step
  dsimp only
  split
  case h_1 => exact .refused _
  case h_2 => exact .refused _
  case h_3 code _ => exact .fault _
  case h_4 =>
    rw [fetch_withSink s l]
    split
    case h_1 c _ => exact .next (hs.raised c)
    case h_2 i size _ =>
      exact exec_alike (hs.map (advance · size) (fun _ => rfl) fun _ _ => rfl) i
        (sinkReplaced_runsAlike i s.sink l)

/-- Settles O54: the two steps have the same outcome, in next states related by `SinkReplaced`. -/
theorem sinkIsNeverRead : Obligations.SinkIsNeverRead := by
  unfold Obligations.SinkIsNeverRead
  intro s l
  have h := step_withSink s l
  generalize step s = o, step { s with sink := l } = o' at h ⊢
  cases h with
  | next h =>
    obtain ⟨added, hs, ht⟩ := h
    exact ⟨added, hs, congrArg _ ht⟩
  | fault f => rfl
  | refused r => rfl

end Sys2Proof.Machine

/-! PROOF. Memory access (O18, O19, O20, O21, O26, O27): the bytes of a number, what a read and a
write see, and then `load`, `store` and the stack instructions, in bounds and out of bounds. -/

namespace Sys2Proof.Machine

/-! ### The bytes of a number -/

theorem leBytes_getElem {n v k : Nat} (hk : k < (leBytes n v).length) :
    (leBytes n v)[k] = BitVec.ofNat 8 (v / 256 ^ k) := by
  induction n generalizing v k with
  | zero => simp [leBytes] at hk
  | succ n ih =>
    cases k with
    | zero => simp [leBytes]
    | succ k => simp [leBytes, ih, Nat.div_div_eq_div_mul, Nat.pow_succ']

/-- Byte `k` of a word, as 20_memory.md R64 writes it. -/
theorem leBytes_getElem_word {n k : Nat} (v : Word) (hk : k < (leBytes n v.toNat).length) :
    (leBytes n v.toNat)[k] = (v >>> (8 * k)).setWidth 8 := by
  rw [leBytes_getElem]
  apply BitVec.eq_of_toNat_eq
  simp [Nat.shiftRight_eq_div_pow, Nat.pow_mul]

theorem leBytes_take {n k : Nat} (v : Nat) (h : k ≤ n) : (leBytes n v).take k = leBytes k v := by
  apply List.ext_getElem (by simp [h])
  intro i _ _
  simp [leBytes_getElem]

theorem Memory.bytes_take (m : Memory) (a : Nat) {n k : Nat} (h : k ≤ n) :
    (Memory.bytes m a n).take k = Memory.bytes m a k := by
  apply List.ext_getElem (by simp [h])
  intro i _ _
  simp [Memory.bytes_getElem]

/-- The model's fold over the bytes is the sum of R63. -/
theorem leNat_bytes (m : Memory) (a n : Nat) : leNat (Memory.bytes m a n) = littleEndian m a n := by
  induction n generalizing a with
  | zero => rfl
  | succ n ih =>
    rw [Memory.bytes, leNat, ih, littleEndian, littleEndian, Finset.sum_range_succ', Finset.mul_sum,
      Nat.add_comm]
    simp [Nat.pow_succ', Nat.mul_left_comm, Nat.add_assoc, Nat.add_comm 1]

theorem littleEndian_lt (m : Memory) (a n : Nat) : littleEndian m a n < 256 ^ n := by
  simpa [leNat_bytes] using leNat_lt (Memory.bytes m a n)

/-- An access is at most 8 bytes wide, so its number fits a register. -/
theorem pow_accessWidth_le {n : Nat} (hn : n ∈ [1, 2, 4, 8]) : 256 ^ n ≤ 2 ^ 64 := by
  have hle : n ≤ 8 := by
    simp only [List.mem_cons, List.not_mem_nil, or_false] at hn
    omega
  calc 256 ^ n ≤ 256 ^ 8 := Nat.pow_le_pow_right (by decide) hle
    _ = 2 ^ 64 := by decide

/-! ### A value stored in memory -/

/-- A stored value lies there byte by byte, and every other address is as it was (20_memory.md
R64). -/
theorem Memory.writeBytes_leBytes {m : Memory} (hm : Memory.wf m = true) (a n : Nat) (v : Word) :
    (∀ k, k < n → Memory.read (Memory.writeBytes m a (leBytes n v.toNat)) (a + k) =
      (v >>> (8 * k)).setWidth 8) ∧
    (∀ x, x < a ∨ a + n ≤ x →
      Memory.read (Memory.writeBytes m a (leBytes n v.toNat)) x = Memory.read m x) := by
  refine ⟨fun k hk => ?_, fun x hx => ?_⟩
  · rw [Memory.read_writeBytes_same m a _ k (by simpa using hk) hm, leBytes_getElem_word]
  · exact Memory.read_writeBytes_other m a x _ (by simpa using hx)

/-- The first bytes of a run read back. -/
theorem Memory.bytes_writeBytes_take {m : Memory} (hm : Memory.wf m = true) (a : Nat)
    {l : List Byte} {k : Nat} (hk : k ≤ l.length) :
    Memory.bytes (Memory.writeBytes m a l) a k = l.take k := by
  rw [← Memory.bytes_take _ _ hk, Memory.bytes_writeBytes_same m a l hm]

/-! ### Bounds -/

theorem State.inBounds_iff {s : State} {addr : Word} {n : Nat} :
    s.inBounds addr n = true ↔ addr.toNat + n ≤ s.cfg.heapSize := decide_eq_true_iff

theorem State.not_inBounds_iff {s : State} {addr : Word} {n : Nat} :
    s.inBounds addr n = false ↔ s.cfg.heapSize < addr.toNat + n :=
  decide_eq_false_iff_not.trans Nat.not_le

@[simp] theorem accessBytes_afterRead (size : OperandSize) (op : Operand) (s : State) :
    accessBytes size (afterRead op s) = accessBytes size s := by
  simp [accessBytes]

/-- The model fault appends no diagnostic (60_exceptions.md R303). -/
theorem raise_memUndefined (s : State) :
    raise .memUndefined s = s.setStatus (.faulted .memUndefined) := by
  simp [raise, State.setStatus, FaultCause.diagnostics, FaultCause.code]

/-! ### Reads and writes -/

theorem memRead_littleEndian {s : State} {addr : Word} {n : Nat}
    (h : addr.toNat + n ≤ s.cfg.heapSize) :
    memRead addr n s = .ok (BitVec.ofNat 64 (littleEndian s.mem addr.toNat n)) s := by
  rw [memRead_ok addr n s (State.inBounds_iff.2 h), leNat_bytes]

/-- Settles O20: the sum is below 2^64, so the register holds it exactly. -/
theorem memReadCombinesLittleEndian : Obligations.MemReadCombinesLittleEndian := by
  unfold Obligations.MemReadCombinesLittleEndian
  intro n addr s hn
  refine ⟨fun h => ⟨_, memRead_littleEndian h, ?_⟩,
    fun h => memRead_fault addr n s (State.not_inBounds_iff.2 h)⟩
  rw [BitVec.toNat_ofNat]
  exact Nat.mod_eq_of_lt ((littleEndian_lt s.mem addr.toNat n).trans_le (pow_accessWidth_le hn))

/-- Settles O19: the bytes are those of `Memory.writeBytes_leBytes`. -/
theorem memWriteStoresExactlyItsBytes : Obligations.MemWriteStoresExactlyItsBytes := by
  unfold Obligations.MemWriteStoresExactlyItsBytes
  rintro n addr v s - ⟨hwf, -⟩
  exact ⟨fun h => ⟨_, memWrite_ok addr n v s (State.inBounds_iff.2 h),
      Memory.writeBytes_leBytes hwf addr.toNat n v⟩,
    fun h => memWrite_fault addr n v s (State.not_inBounds_iff.2 h)⟩

/-- A read of the first `k` of `n` stored bytes gives the low bytes of the value (20_memory.md
R66). -/
theorem memRead_after_store {s : State} (hwf : Memory.wf s.mem = true) {addr : Word} {n k : Nat}
    (v : Nat) (hk : k ≤ n) (h : addr.toNat + n ≤ s.cfg.heapSize) :
    memRead addr k (s.setMem (Memory.writeBytes s.mem addr.toNat (leBytes n v))) =
      .ok (BitVec.ofNat 64 (v % 256 ^ k))
        (s.setMem (Memory.writeBytes s.mem addr.toNat (leBytes n v))) := by
  have hbound : addr.toNat + k ≤ s.cfg.heapSize := by omega
  rw [memRead_ok addr k _ (State.inBounds_iff.2 (by simpa using hbound)), State.setMem_mem,
    Memory.bytes_writeBytes_take hwf _ (by simpa using hk), leBytes_take v hk, leNat_leBytes]

/-- Two one-byte stores side by side are one store of both bytes. -/
theorem writeBytes_adjacent (m : Memory) (a x y : Nat) :
    Memory.writeBytes (Memory.writeBytes m a (leBytes 1 x)) (a + 1) (leBytes 1 y) =
      Memory.writeBytes m a (leBytes 2 (x % 256 + 256 * (y % 256))) := by
  have hlow : BitVec.ofNat 8 (x % 256 + 256 * (y % 256)) = BitVec.ofNat 8 x :=
    BitVec.eq_of_toNat_eq (by simp only [BitVec.toNat_ofNat]; omega)
  have hhigh : BitVec.ofNat 8 ((x % 256 + 256 * (y % 256)) / 256) = BitVec.ofNat 8 y :=
    BitVec.eq_of_toNat_eq (by simp only [BitVec.toNat_ofNat]; omega)
  simp [leBytes, Memory.writeBytes, hlow, hhigh]

/-- Settles O21: two narrow writes are one wide write, and a read sees the low bytes of a write. -/
theorem writeThenReadAtMixedWidths : Obligations.WriteThenReadAtMixedWidths := by
  unfold Obligations.WriteThenReadAtMixedWidths
  rintro n k addr v x y s - - hk ⟨-, hheap, -⟩ ⟨hwf, -⟩ hbound hbound2
  have hnext : (addr + 1).toNat = addr.toNat + 1 := by
    rw [BitVec.toNat_add]
    exact Nat.mod_eq_of_lt (by simp; omega)
  constructor
  · refine ⟨_, memWrite_ok addr n v s (State.inBounds_iff.2 hbound), ?_⟩
    rw [memRead_after_store hwf v.toNat hk hbound, Nat.pow_mul]
  · have hbound' : (addr + 1).toNat + 1 ≤ s.cfg.heapSize := by rw [hnext]; exact hbound2
    refine ⟨_, _, memWrite_ok addr 1 x s (State.inBounds_iff.2 (by omega)),
      memWrite_ok (addr + 1) 1 y (s.setMem _) (State.inBounds_iff.2 hbound'), ?_⟩
    have hread :=
      memRead_after_store hwf (x.toNat % 256 + 256 * (y.toNat % 256)) (le_refl 2) hbound2
    have hpair : (x.toNat % 256 + 256 * (y.toNat % 256)) % 256 ^ 2 =
        x.toNat % 256 + 256 * (y.toNat % 256) := Nat.mod_eq_of_lt (by omega)
    rw [hpair, ← writeBytes_adjacent, ← hnext] at hread
    exact hread

/-! ### Effective addresses -/

theorem effectiveAddress_base {z : OperandSize} {a : Operand} (ha : Usable z a) (s : State) :
    effectiveAddress z a none s = .ok (intValue a s) (afterRead a s) := by
  obtain ⟨hsize, hwa⟩ := ha
  simp [effectiveAddress, resolveInt_ok z a s hsize hwa]

theorem effectiveAddress_offset {z : OperandSize} {a b : Operand} (ha : Usable z a)
    (hb : Usable z b) (s : State) :
    effectiveAddress z a (some b) s =
      .ok (intValue a s + secondValue a b s) (afterTwoReads a b s) := by
  obtain ⟨hsize, hwa⟩ := ha
  obtain ⟨-, hwb⟩ := hb
  simp [effectiveAddress, resolveInt_ok z a s hsize hwa,
    resolveInt_ok z b (afterRead a s) hsize hwb]

/-! ### `load` and `store` at an effective address -/

section

variable {z : OperandSize} {t v base : Operand} {offset : Option Operand} {s s' : State} {ea : Word}

theorem loadFrom_ok (hea : effectiveAddress z base offset s = .ok ea s') (ht : Writable z t)
    (h : ea.toNat + accessBytes z s' ≤ s'.cfg.heapSize) :
    loadFrom z t base offset s = .ok () (afterWrite t (.int (BitVec.ofNat 64
      (littleEndian s'.mem ea.toNat (accessBytes z s')))) s') := by
  obtain ⟨hsize, hwt, hconst⟩ := ht
  simp [loadFrom, hea, memRead_littleEndian h, assign_int_ok z t _ s' hsize hwt hconst]

theorem loadFrom_outOfBounds (hea : effectiveAddress z base offset s = .ok ea s')
    (h : s'.cfg.heapSize < ea.toNat + accessBytes z s') :
    loadFrom z t base offset s = .fault .memUndefined s' := by
  simp [loadFrom, hea, memRead_fault ea _ s' (State.not_inBounds_iff.2 h)]

/-- Once value and address are read, a `store` is one memory write. -/
theorem storeTo_eq_memWrite (hv : Usable z v)
    (hea : effectiveAddress z base offset (afterRead v s) = .ok ea s') :
    storeTo z v base offset s = memWrite ea (accessBytes z s') (intValue v s) s' := by
  obtain ⟨hsize, hwv⟩ := hv
  simp [storeTo, resolveInt_ok z v s hsize hwv, hea]

theorem storeTo_ok (hv : Usable z v)
    (hea : effectiveAddress z base offset (afterRead v s) = .ok ea s')
    (h : ea.toNat + accessBytes z s' ≤ s'.cfg.heapSize) :
    storeTo z v base offset s = .ok () (s'.setMem (Memory.writeBytes s'.mem ea.toNat
      (leBytes (accessBytes z s') (intValue v s).toNat))) := by
  rw [storeTo_eq_memWrite hv hea, memWrite_ok _ _ _ _ (State.inBounds_iff.2 h)]

theorem storeTo_outOfBounds (hv : Usable z v)
    (hea : effectiveAddress z base offset (afterRead v s) = .ok ea s')
    (h : s'.cfg.heapSize < ea.toNat + accessBytes z s') :
    storeTo z v base offset s = .fault .memUndefined s' := by
  rw [storeTo_eq_memWrite hv hea, memWrite_fault _ _ _ _ (State.not_inBounds_iff.2 h)]

end

/-! ### The instructions by their forms -/

theorem exec_load (z : OperandSize) (t base : Operand) (s : State) :
    exec (.load z [t, base]) s = (loadFrom z t base none s).finish := rfl

theorem exec_load_offset (z : OperandSize) (t base offset : Operand) (s : State) :
    exec (.load z [t, base, offset]) s = (loadFrom z t base (some offset) s).finish := rfl

theorem exec_store (z : OperandSize) (v base : Operand) (s : State) :
    exec (.store z [v, base]) s = (storeTo z v base none s).finish := rfl

theorem exec_store_offset (z : OperandSize) (v base offset : Operand) (s : State) :
    exec (.store z [v, base, offset]) s = (storeTo z v base (some offset) s).finish := rfl

/-- `push` reads its source before `sp` moves (42_data_movement.md R185). -/
theorem exec_push {z : OperandSize} {v : Operand} (hv : Usable z v) (s : State) :
    exec (.push z [v]) s = (stackPush (intValue v s) (afterRead v s)).finish := by
  obtain ⟨hsize, hwv⟩ := hv
  simp [exec, execPush, resolveInt_ok z v s hsize hwv]

/-- Settles O26: both forms are `loadFrom` at their effective address. -/
theorem loadReadsMemory : Obligations.LoadReadsMemory := by
  unfold Obligations.LoadReadsMemory
  intro z t a b s ht ha hb
  refine ⟨fun h => ?_, fun h => ?_, rfl⟩
  · rw [exec_load, loadFrom_ok (effectiveAddress_base ha s) ht (by simpa using h)]
    simp
  · rw [exec_load_offset, loadFrom_ok (effectiveAddress_offset ha hb s) ht (by simpa using h)]
    simp

/-- Settles O27: both forms are `storeTo` at their effective address. -/
theorem storeWritesMemory : Obligations.StoreWritesMemory := by
  unfold Obligations.StoreWritesMemory
  rintro z v a b s hv ha hb ⟨hwf, -⟩
  constructor
  · rintro ea rfl h
    refine ⟨_, ?_, Memory.writeBytes_leBytes hwf _ (accessBytes z s) (intValue v s)⟩
    rw [exec_store, storeTo_ok hv (effectiveAddress_base ha _) (by simpa using h)]
    simp
  · rintro ea rfl h
    refine ⟨_, ?_, Memory.writeBytes_leBytes hwf _ (accessBytes z s) (intValue v s)⟩
    rw [exec_store_offset, storeTo_ok hv (effectiveAddress_offset ha hb _) (by simpa using h)]
    simp

/-! ### The stack out of bounds -/

theorem stackPush_outOfBounds {s : State} (v : Word) (h : s.cfg.heapSize < (s.sp - 8).toNat + 8) :
    stackPush v s = .fault .memUndefined (s.setSp (s.sp - 8)) :=
  memWrite_fault _ _ _ _ (State.not_inBounds_iff.2 h)

theorem stackPop_outOfBounds {s : State} (h : s.cfg.heapSize < s.sp.toNat + 8) :
    stackPop s = .fault .memUndefined s := by
  simp [stackPop, memRead_fault s.sp 8 s (State.not_inBounds_iff.2 h)]

/-- Settles O18: every form reaches one access, which faults in the state it is made in. -/
theorem outOfBoundsAccessIsMemUndefined : Obligations.OutOfBoundsAccessIsMemUndefined := by
  unfold Obligations.OutOfBoundsAccessIsMemUndefined
  intro z y t v a b s hz hwv hwa hwb
  have hv : Usable z v := ⟨hz, hwv⟩
  have ha : Usable z a := ⟨hz, hwa⟩
  have hb : Usable z b := ⟨hz, hwb⟩
  simp only [← raise_memUndefined]
  refine ⟨fun h => ?load, fun h => ?loadOffset, fun h => ?store, fun h => ?storeOffset,
    fun h => ?push, fun h => ⟨?pop, ?rts⟩, fun h => ?jsr⟩
  case load =>
    rw [exec_load, loadFrom_outOfBounds (effectiveAddress_base ha s) (by simpa using h)]
    rfl
  case loadOffset =>
    rw [exec_load_offset, loadFrom_outOfBounds (effectiveAddress_offset ha hb s) (by simpa using h)]
    rfl
  case store =>
    rw [exec_store, storeTo_outOfBounds hv (effectiveAddress_base ha _) (by simpa using h)]
    rfl
  case storeOffset =>
    rw [exec_store_offset,
      storeTo_outOfBounds hv (effectiveAddress_offset ha hb _) (by simpa using h)]
    rfl
  case push =>
    rw [exec_push hv, stackPush_outOfBounds _ (by simpa using h)]
    simp
  case pop => simp [exec, execPop, stackPop_outOfBounds h]
  case rts => simp [exec, execRts, stackPop_outOfBounds h]
  case jsr => simp [exec, execJsr, stackPush_outOfBounds _ h]

end Sys2Proof.Machine

/-! PROOF. Where instructions store (O53, O55): an instruction that is no `store`, `push` or `jsr`
leaves memory alone, these three write the run that `storedBytes` computes, and what stands in that
run is what the next fetch reads. -/

namespace Sys2Proof.Machine

/-! ### What leaves memory alone -/

theorem memory_untouched {i : Instr} (hi : storesToMemory i.op = false) :
    Untouched State.mem i where
  read op _ _ s := afterRead_mem op s
  write op _ _ v s := afterWrite_mem op v s
  jump _ _ _ := rfl
  stack _ _ _ := rfl
  flags _ _ _ := rfl
  store h := absurd h (by simp [hi])
  halt _ := rfl
  raised _ _ := rfl

/-- The memory and the launch parameters are as given. -/
def MemoryIs (m : Memory) (cfg : Config) (s : State) : Prop := s.mem = m ∧ s.cfg = cfg

theorem resolveInt_memoryIs {m : Memory} {cfg : Config} {s : State} (size : OperandSize)
    (op : Operand) (hs : MemoryIs m cfg s) : (resolveInt size op s).All (MemoryIs m cfg) := by
  rcases resolveInt_cases size op s with ⟨c, -, e⟩ | ⟨-, e⟩ <;> rw [e]
  · exact hs
  · exact ⟨(afterRead_mem op s).trans hs.1, (afterRead_cfg op s).trans hs.2⟩

theorem effectiveAddress_memoryIs {m : Memory} {cfg : Config} {s : State} (size : OperandSize)
    (base : Operand) (offset : Option Operand) (hs : MemoryIs m cfg s) :
    (effectiveAddress size base offset s).All (MemoryIs m cfg) :=
  (resolveInt_memoryIs size base hs).bind fun _ _ h1 =>
    match offset with
    | none => h1
    | some o => (resolveInt_memoryIs size o h1).bind fun _ _ h2 => h2

/-! ### One byte outside a store -/

/-- The byte at `x` is `b`. -/
def ByteIs (x : Nat) (b : Byte) (s : State) : Prop := Memory.read s.mem x = b

section

variable {x : Nat} {b : Byte} {s : State}

theorem byteIs_raise (c : FaultCause) (s : State) (hs : ByteIs x b s) : ByteIs x b (raise c s) := hs

theorem byteIs_wrongCount (hs : ByteIs x b s) : NextAll (ByteIs x b) (wrongCount s) :=
  nextAll_next (byteIs_raise _ s hs)

theorem resolveInt_byteIs (size : OperandSize) (op : Operand) (hs : ByteIs x b s) :
    (resolveInt size op s).All (ByteIs x b) := by
  rcases resolveInt_cases size op s with ⟨c, -, e⟩ | ⟨-, e⟩ <;> rw [e]
  · exact hs
  · exact (congrArg (Memory.read · x) (afterRead_mem op s)).trans hs

theorem memWrite_byteIs {addr : Word} {n : Nat} (v : Word)
    (hx : x < addr.toNat ∨ addr.toNat + n ≤ x) (hs : ByteIs x b s) : (memWrite addr n v s).All (ByteIs x b) := by
  rcases memWrite_cases addr n v s with ⟨-, e⟩ | ⟨-, e⟩ <;> rw [e]
  · exact (Memory.read_writeBytes_other _ _ _ _ (by simpa using hx)).trans hs
  · exact hs

theorem stackPush_byteIs (v : Word) (hx : x < (s.sp - 8).toNat ∨ (s.sp - 8).toNat + 8 ≤ x)
    (hs : ByteIs x b s) : (stackPush v s).All (ByteIs x b) :=
  memWrite_byteIs (s := s.setSp (s.sp - 8)) v hx hs

end

/-! ### The instructions that store -/

section

variable {x : Nat} {s : State}

theorem storeTo_byteIs (size : OperandSize) (v base : Operand) (offset : Option Operand)
    (hx : ∀ ea s', effectiveAddress size base offset (afterRead v s) = .ok ea s' →
      x < ea.toNat ∨ ea.toNat + accessBytes size s ≤ x) :
    (storeTo size v base offset s).All (ByteIs x (Memory.read s.mem x)) := by
  unfold storeTo
  rcases resolveInt_cases size v s with ⟨c, -, hv⟩ | ⟨-, hv⟩ <;> rw [hv]
  · rfl
  · have hmem := effectiveAddress_memoryIs (s := afterRead v s) size base offset
      ⟨afterRead_mem v s, afterRead_cfg v s⟩
    rw [Res.bind_ok]
    cases hea : effectiveAddress size base offset (afterRead v s) with
    | fault c s' =>
      rw [hea] at hmem
      exact congrArg (Memory.read · x) hmem.1
    | ok ea s' =>
      rw [hea] at hmem
      have hn : accessBytes size s' = accessBytes size s := by rw [accessBytes, accessBytes, hmem.2]
      exact memWrite_byteIs _ (hn ▸ hx ea s' hea) (congrArg (Memory.read · x) hmem.1)

theorem execStore_frame (size : OperandSize) (ops : List Operand)
    (hx : ∀ a n, storedBytes (.store size ops) s = some (a, n) → x < a ∨ a + n ≤ x) :
    NextAll (ByteIs x (Memory.read s.mem x)) (execStore size ops s) := by
  unfold execStore
  split
  case h_1 v base =>
    refine (storeTo_byteIs size v base none fun ea s' hea => ?_).finish byteIs_raise
    exact hx _ _ (by simp [storedBytes, hea])
  case h_2 v base offset =>
    refine (storeTo_byteIs size v base (some offset) fun ea s' hea => ?_).finish byteIs_raise
    exact hx _ _ (by simp [storedBytes, hea])
  case h_3 => exact byteIs_wrongCount rfl

theorem execPush_frame (size : OperandSize) (ops : List Operand)
    (hx : ∀ a n, storedBytes (.push size ops) s = some (a, n) → x < a ∨ a + n ≤ x) :
    NextAll (ByteIs x (Memory.read s.mem x)) (execPush size ops s) := by
  unfold execPush
  split
  case h_1 v =>
    refine Res.All.finish ?_ byteIs_raise
    rcases resolveInt_cases size v s with ⟨c, -, e⟩ | ⟨-, e⟩ <;> rw [e]
    · rfl
    · refine stackPush_byteIs _ ?_ (congrArg (Memory.read · x) (afterRead_mem v s))
      rw [afterRead_sp]
      exact hx _ _ rfl
  case h_2 => exact byteIs_wrongCount rfl

theorem execJsr_frame (size : OperandSize) (ops : List Operand)
    (hx : ∀ a n, storedBytes (.jsr size ops) s = some (a, n) → x < a ∨ a + n ≤ x) :
    NextAll (ByteIs x (Memory.read s.mem x)) (execJsr size ops s) := by
  unfold execJsr
  split
  case h_1 t =>
    refine Res.All.finish ?_ byteIs_raise
    exact (stackPush_byteIs s.pc (hx _ _ rfl) rfl).bind fun _ _ h1 =>
      (resolveInt_byteIs size t h1).bind fun _ _ h2 => h2
  case h_2 => exact byteIs_wrongCount rfl

end

/-- Settles O53: three instructions store, each to the run that `storedBytes` computes. -/
theorem memoryFrame : Obligations.MemoryFrame := by
  unfold Obligations.MemoryFrame
  intro i s t x hexec hx
  cases hi : storesToMemory i.op with
  | false => rw [(memory_untouched hi).exec_eq hexec]
  | true =>
    cases i
    case store size ops => exact execStore_frame size ops hx t hexec
    case push size ops => exact execPush_frame size ops hx t hexec
    case jsr size ops => exact execJsr_frame size ops hx t hexec
    all_goals cases hi

/-! ### What the next fetch reads -/

/-- Eight bytes stored at the pc come first in the fetch window (70_reset_and_hazards.md R337). -/
theorem fetchWindow_after_store {s : State} (hwf : Memory.wf s.mem = true)
    (h : s.pc.toNat + 8 ≤ s.cfg.heapSize) (v : Nat) :
    (fetchWindow (s.setMem (Memory.writeBytes s.mem s.pc.toNat (leBytes 8 v)))).take 8 =
      leBytes 8 v := by
  have hwindow : 8 ≤ min maxInstrBytes (s.cfg.heapSize - s.pc.toNat) := by
    rw [maxInstrBytes]
    omega
  have hread := Memory.bytes_writeBytes_same s.mem s.pc.toNat (leBytes 8 v) hwf
  rw [leBytes_length] at hread
  exact (Memory.bytes_take _ _ hwindow).trans hread

/-- A `store` of 8 bytes whose effective address is the pc. -/
theorem storeTo_at_pc {z : OperandSize} {v base : Operand} {offset : Option Operand} {s s' : State}
    {ea : Word} (hv : Usable z v)
    (hea : effectiveAddress z base offset (afterRead v s) = .ok ea s') (hpc : ea = s'.pc)
    (hwf : Memory.wf s'.mem = true) (hbytes : accessBytes z s' = 8)
    (h : s'.pc.toNat + 8 ≤ s'.cfg.heapSize) :
    ∃ t, (storeTo z v base offset s).finish = .next t ∧ t.pc = s'.pc ∧
      (fetchWindow t).take 8 = leBytes 8 (intValue v s).toNat := by
  subst hpc
  have hstore := storeTo_ok hv hea (by rw [hbytes]; exact h)
  rw [hbytes] at hstore
  exact ⟨_, congrArg Res.finish hstore, rfl, fetchWindow_after_store hwf h _⟩

/-- A push whose slot is at the pc. -/
theorem stackPush_at_pc {s : State} (v : Word) (hsp : s.sp - 8 = s.pc)
    (hwf : Memory.wf s.mem = true) (h : s.pc.toNat + 8 ≤ s.cfg.heapSize) :
    ∃ t, (stackPush v s).finish = .next t ∧ t.pc = s.pc ∧
      (fetchWindow t).take 8 = leBytes 8 v.toNat := by
  have hpush : stackPush v s = memWrite s.pc 8 v (s.setSp s.pc) := by rw [stackPush, hsp]
  rw [hpush, memWrite_ok _ _ _ (s.setSp s.pc) (State.inBounds_iff.2 h)]
  exact ⟨_, rfl, rfl, fetchWindow_after_store (s := s.setSp s.pc) hwf h _⟩

/-- Settles O55: the store or push writes the run at the pc, where the fetch window begins. -/
theorem storedBytesAreFetched : Obligations.StoredBytesAreFetched := by
  unfold Obligations.StoredBytesAreFetched
  rintro z v a b s hv ha hb ⟨hwf, -⟩ hbound
  refine ⟨fun hbytes hea => ?store, fun hbytes hea => ?storeOffset, fun hsp => ?push⟩
  case store =>
    have h := storeTo_at_pc (s := s) hv (effectiveAddress_base ha _) (by simpa using hea)
      (by simpa using hwf) (by simpa using hbytes) (by simpa using hbound)
    simpa [exec_store] using h
  case storeOffset =>
    have h := storeTo_at_pc (s := s) hv (effectiveAddress_offset ha hb _) (by simpa using hea)
      (by simpa using hwf) (by simpa using hbytes) (by simpa using hbound)
    simpa [exec_store_offset] using h
  case push =>
    have h := stackPush_at_pc (s := afterRead v s) (intValue v s) (by simpa using hsp)
      (by simpa using hwf) (by simpa using hbound)
    simpa [exec_push hv] using h

end Sys2Proof.Machine

/-! PROOF. The host's ports (O60): each answers the state it was given, a state with the registers of
reset, one with `sp` moved, or one with a run of bytes or a diagnostic added. -/

namespace Sys2Proof.Machine

/-- A run of bytes inside the heap keeps the memory's form. -/
theorem memoryOk_writeBytes {s : State} {a : Nat} {l : List Byte} (hs : s.MemoryOk)
    (h : a + l.length ≤ s.cfg.heapSize) : (s.setMem (Memory.writeBytes s.mem a l)).MemoryOk :=
  ⟨Memory.writeBytes_wf _ _ _ hs.1, Memory.writeBytes_below _ _ _ _ hs.2 h⟩

/-- What the encode port answers (30_encoding.md R101 to R103): the state with the bytes of the
instruction written inside the heap, or with a diagnostic appended. -/
theorem hostEncode_next {addr : Word} {i : Instr} {s t : State} {n : Nat}
    (h : hostEncode addr i s = .next (t, n)) :
    (∃ c, t = report c s) ∨
      (addr.toNat + (encode s.cfg.tables i).length ≤ s.cfg.heapSize ∧
        t = s.setMem (Memory.writeBytes s.mem addr.toNat (encode s.cfg.tables i))) := by
  unfold hostEncode at h
  split at h
  · cases h
  · split at h
    · cases h; exact .inl ⟨_, rfl⟩
    · split at h
      · cases h; exact .inl ⟨_, rfl⟩
      · split at h
        case isTrue hb =>
          cases h
          exact .inr ⟨by rw [encode_length]; exact State.inBounds_iff.1 hb, rfl⟩
        case isFalse => cases h

/-- What the push port answers (70_reset_and_hazards.md R334). -/
theorem hostPush_next {v : Word} {s t : State} (h : hostPush v s = .next t) :
    (s.sp - 8).toNat + 8 ≤ s.cfg.heapSize ∧ t = (s.setSp (s.sp - 8)).setMem
      (Memory.writeBytes s.mem (s.sp - 8).toNat (leBytes 8 v.toNat)) := by
  unfold hostPush at h
  split at h
  · cases h
  · split at h
    · rcases stackPush_cases v s with ⟨hb, e⟩ | ⟨-, e⟩ <;> rw [e] at h <;> cases h
      exact ⟨State.inBounds_iff.1 hb, rfl⟩
    · cases h

/-- What the pop port answers (70_reset_and_hazards.md R334). -/
theorem hostPop_next {v : Word} {s t : State} (h : hostPop s = .next (t, v)) :
    t = s.setSp (s.sp + 8) := by
  unfold hostPop at h
  split at h
  · cases h
  · rcases stackPop_cases s with ⟨-, e⟩ | ⟨-, e⟩ <;> rw [e] at h <;> cases h
    rfl

theorem hostReset_next {s t : State} (h : hostReset s = .next t) : t = resetRegisters s := by
  rcases hostReset_cases s with ⟨-, e⟩ | ⟨-, e⟩ <;> rw [e] at h <;> cases h
  rfl

/-- What the initialising port answers (70_reset_and_hazards.md R331). -/
theorem hostInitialise_next {m : Memory} {s t : State} (h : hostInitialise m s = .next t) :
    t = resetRegisters (s.setMem m) := by
  unfold hostInitialise at h
  split at h
  case h_1 => cases h; rfl
  case h_2 => cases h; rfl
  case h_3 => cases h
  case h_4 => cases h

/-- Settles O60: the answers of the five ports, one by one. -/
theorem hostPortsKeepTheMemoryForm : Obligations.HostPortsKeepTheMemoryForm := by
  unfold Obligations.HostPortsKeepTheMemoryForm
  intro s t addr v i n m hs hwf hbelow
  refine ⟨fun h => ?encode, fun h => ?push, fun h => ?pop, fun h => ?reset, fun h => ?initialise⟩
  case encode =>
    rcases hostEncode_next h with ⟨c, rfl⟩ | ⟨hb, rfl⟩
    · exact ⟨hs, rfl⟩
    · exact ⟨memoryOk_writeBytes hs hb, rfl⟩
  case push =>
    obtain ⟨hb, rfl⟩ := hostPush_next h
    exact ⟨memoryOk_writeBytes (s := s.setSp (s.sp - 8)) hs (by simpa using hb), rfl⟩
  case pop => rw [hostPop_next h]; exact ⟨hs, rfl⟩
  case reset => rw [hostReset_next h]; exact ⟨hs, rfl⟩
  case initialise => rw [hostInitialise_next h]; exact ⟨⟨hwf, hbelow⟩, rfl⟩

end Sys2Proof.Machine

/-! PROOF. The codec (O1, O3, O4, O5). Decoding has two parts. Reading the bytes after byte 0 does not
depend on the policy, inverts `contentBytes` in both directions (`decode_contentBytes`,
`decode_cases`) and never answers S005; `finishDecode` alone compares byte 0 with the computed size
(`finishDecode_cases`). -/

namespace Sys2Proof

/-! ### An instruction and its record -/

@[simp] theorem Op.instr_op (o : Op) (z : OperandSize) (l : List Operand) : (o.instr z l).op = o := by
  cases o <;> rfl

@[simp] theorem Op.instr_size (o : Op) (z : OperandSize) (l : List Operand) :
    (o.instr z l).size = z := by
  cases o <;> rfl

@[simp] theorem Instr.op_instr (i : Instr) : i.op.instr i.size i.operands = i := by
  cases i <;> rfl

/-! ### Words as bytes -/

/-- A word is read back from its little-endian bytes. -/
theorem ofNat_leNat_leBytes {w n : Nat} (hw : w = 8 * n) (v : BitVec w) :
    BitVec.ofNat w (leNat (leBytes n v.toNat)) = v := by
  have hpow : 256 ^ n = 2 ^ w := by rw [hw, Nat.pow_mul]
  apply BitVec.eq_of_toNat_eq
  rw [Machine.leNat_leBytes, hpow, BitVec.toNat_ofNat, Nat.mod_mod, Nat.mod_eq_of_lt v.isLt]

theorem leBytes_leNat (l : List Byte) : leBytes l.length (leNat l) = l := by
  induction l with
  | nil => rfl
  | cons b rest ih =>
    have hb := b.isLt
    have hdiv : (b.toNat + 256 * leNat rest) / 256 = leNat rest := by omega
    have hmod : BitVec.ofNat 8 (b.toNat + 256 * leNat rest) = b := by
      apply BitVec.eq_of_toNat_eq
      rw [BitVec.toNat_ofNat]
      omega
    rw [List.length_cons, leNat, leBytes, hdiv, hmod, ih]

/-- Bytes are the little-endian bytes of the word they stand for. -/
theorem leBytes_ofNat_leNat {w : Nat} (l : List Byte) (hw : w = 8 * l.length) :
    leBytes l.length (BitVec.ofNat w (leNat l)).toNat = l := by
  have hlt : leNat l < 2 ^ w := by
    rw [hw, Nat.pow_mul]
    exact Machine.leNat_lt l
  rw [BitVec.toNat_ofNat, Nat.mod_eq_of_lt hlt, leBytes_leNat]

/-! ### Operands -/

/-- In an injective table a well-formed operand is read back, whatever follows it (30_encoding.md
R93, R97). -/
theorem decodeOperand_encodeOperand {t : NumberTables} (ht : t.Valid) {op : Operand}
    (hop : op.wellFormed = true) (rest : List Byte) :
    decodeOperand t (encodeOperand t op ++ rest) = .ok (op, rest) := by
  cases op with
  | reg m index =>
    have hindex : index.toNat ≤ 63 := by simpa [Operand.wellFormed] using hop
    simp [encodeOperand, decodeOperand, Mode.ofTag_tag t ht, Nat.not_lt.2 hindex]
  | special m index => simp [encodeOperand, decodeOperand, Mode.ofTag_tag t ht]
  | const m index payload =>
    have hlen : (leBytes 8 payload.toNat).length = 8 := Machine.leBytes_length ..
    simp [encodeOperand, decodeOperand, Mode.ofTag_tag t ht, List.take_left' hlen,
      List.drop_left' hlen, ofNat_leNat_leBytes]

theorem decodeOperands_encodeOperand {t : NumberTables} (ht : t.Valid) {ops : List Operand}
    (hops : ∀ op ∈ ops, op.wellFormed = true) (rest : List Byte) :
    decodeOperands t ops.length (ops.flatMap (encodeOperand t) ++ rest) = .ok ops := by
  induction ops with
  | nil => rfl
  | cons op ops ih =>
    obtain ⟨hop, htail⟩ := List.forall_mem_cons.1 hops
    rw [List.length_cons, List.flatMap_cons, List.append_assoc, decodeOperands,
      decodeOperand_encodeOperand ht hop]
    simp only [ih htail]

/-- An operand is read from nothing but its encoding (30_encoding.md R104). -/
theorem decodeOperand_bytes {t : NumberTables} {bytes rest : List Byte} {op : Operand}
    (h : decodeOperand t bytes = .ok (op, rest)) : bytes = encodeOperand t op ++ rest := by
  unfold decodeOperand at h
  split at h
  case h_2 => cases h
  case h_1 tag index tail =>
    split at h
    case h_1 => cases h
    case h_2 m hm =>
      split at h
      · cases h
      · cases h
        simp [encodeOperand, Mode.tag_of_ofTag t tag _ hm]
    case h_3 m hm =>
      cases h
      simp [encodeOperand, Mode.tag_of_ofTag t tag _ hm]
    case h_4 m hm =>
      split at h
      · cases h
      case isFalse hlen =>
        cases h
        have htake : (tail.take 8).length = 8 := List.length_take_of_le (Nat.not_lt.1 hlen)
        have hpayload := leBytes_ofNat_leNat (w := 64) (tail.take 8) (by rw [htake])
        rw [htake] at hpayload
        simp only [encodeOperand, Mode.tag_of_ofTag t tag _ hm, hpayload, List.cons_append,
          List.take_append_drop]

/-- S005 is no error of an operand (30_encoding.md R104). -/
theorem decodeOperand_ne_s005 {t : NumberTables} {bytes : List Byte} :
    decodeOperand t bytes ≠ .error .s005 := by
  unfold decodeOperand
  split
  case h_2 => exact nofun
  case h_1 =>
    split
    case h_1 => exact nofun
    case h_2 => split <;> exact nofun
    case h_3 => exact nofun
    case h_4 => split <;> exact nofun

/-- Operands are read from nothing but their encodings, or an error other than S005 stops decode. -/
theorem decodeOperands_cases (t : NumberTables) (n : Nat) (bytes : List Byte) :
    (∃ e, e ≠ .s005 ∧ decodeOperands t n bytes = .error e) ∨
    (∃ ops rest, ops.length = n ∧ bytes = ops.flatMap (encodeOperand t) ++ rest ∧
      decodeOperands t n bytes = .ok ops) := by
  induction n generalizing bytes with
  | zero => exact .inr ⟨[], bytes, rfl, rfl, rfl⟩
  | succ n ih =>
    rw [decodeOperands]
    cases hop : decodeOperand t bytes with
    | error e => exact .inl ⟨e, fun he => decodeOperand_ne_s005 (he ▸ hop), rfl⟩
    | ok value =>
      obtain ⟨op, tail⟩ := value
      rcases ih tail with ⟨e, he, htail⟩ | ⟨ops, rest, hlen, hbytes, htail⟩
      · exact .inl ⟨e, he, by simp only [htail]⟩
      · refine .inr ⟨op :: ops, rest, congrArg (· + 1) hlen, ?_, by simp only [htail]⟩
        rw [decodeOperand_bytes hop, hbytes, List.flatMap_cons, List.append_assoc]

/-! ### The bytes between byte 0 and the padding -/

/-- Opcode, size code, operand count and operands, as they stand after byte 0 (30_encoding.md R92). -/
def contentBytes (t : NumberTables) (op : Op) (size : OperandSize) (ops : List Operand) : List Byte :=
  leBytes 2 (op.number t).toNat ++ [size.code t, BitVec.ofNat 8 ops.length] ++
    ops.flatMap (encodeOperand t)

theorem encode_eq_contentBytes (t : NumberTables) (i : Instr) :
    encode t i = BitVec.ofNat 8 (encodedSize i.operands) ::
      (contentBytes t i.op i.size i.operands ++
        List.replicate (encodedSize i.operands - contentLength i.operands) 0) := rfl

theorem contentBytes_length (t : NumberTables) (op : Op) (size : OperandSize) (ops : List Operand) :
    (contentBytes t op size ops).length + 1 = contentLength ops := by
  have h := flatMap_encodeOperand_length t ops
  simp only [contentBytes, List.length_append, Machine.leBytes_length, List.length_cons,
    List.length_nil]
  omega

/-- Without what follows, byte 0 and the content are left. -/
theorem take_contentLength (t : NumberTables) (b : Byte) (op : Op) (size : OperandSize)
    (ops : List Operand) (rest : List Byte) :
    (b :: (contentBytes t op size ops ++ rest)).take (contentLength ops) =
      b :: contentBytes t op size ops := by
  rw [← contentBytes_length t op size ops, List.take_succ_cons, List.take_left]

/-- In injective tables decode reads content back, and byte 0 is left to the last checks
(30_encoding.md R104). -/
theorem decode_contentBytes {t : NumberTables} (ht : t.Valid) (policy : SizeBytePolicy) (b : Byte)
    (op : Op) (size : OperandSize) {ops : List Operand} (hcount : ops.length ≤ 4)
    (hops : ∀ op ∈ ops, op.wellFormed = true) (rest : List Byte) :
    decode t policy (b :: (contentBytes t op size ops ++ rest)) =
      finishDecode policy (b :: (contentBytes t op size ops ++ rest)).length b op size ops := by
  have hopcode : Op.ofNumber t (BitVec.ofNat 16 (leNat (leBytes 2 (op.number t).toNat))) = some op := by
    rw [ofNat_leNat_leBytes (w := 16) (n := 2) rfl, Op.ofNumber_number t ht]
  have hbyte : (BitVec.ofNat 8 ops.length).toNat = ops.length := by
    rw [BitVec.toNat_ofNat]
    omega
  simp only [leBytes] at hopcode
  simp only [contentBytes, leBytes, List.cons_append, List.nil_append, decode, hopcode,
    OperandSize.ofCode_code t ht, hbyte, if_neg (Nat.not_lt.2 hcount),
    decodeOperands_encodeOperand ht hops]

/-- What decode can do, under any tables: stop with an error other than S005 that no policy changes, or
read some content and leave byte 0 to the last checks (30_encoding.md R104). -/
theorem decode_cases (t : NumberTables) (bytes : List Byte) :
    (∃ e, e ≠ .s005 ∧ ∀ policy, decode t policy bytes = .error e) ∨
    (∃ b op size ops rest, bytes = b :: (contentBytes t op size ops ++ rest) ∧
      ∀ policy, decode t policy bytes = finishDecode policy bytes.length b op size ops) := by
  match bytes with
  | [] => exact .inl ⟨.memUndefined, nofun, fun _ => rfl⟩
  | [_] => exact .inl ⟨.memUndefined, nofun, fun _ => rfl⟩
  | [_, _] => exact .inl ⟨.memUndefined, nofun, fun _ => rfl⟩
  | b :: opLow :: opHigh :: rest =>
    simp only [decode]
    cases hop : Op.ofNumber t (BitVec.ofNat 16 (leNat [opLow, opHigh])) with
    | none => exact .inl ⟨.s001, nofun, fun _ => rfl⟩
    | some op =>
      match rest with
      | [] => exact .inl ⟨.memUndefined, nofun, fun _ => rfl⟩
      | code :: rest =>
        cases hsize : OperandSize.ofCode t code with
        | none => exact .inl ⟨.s004, nofun, fun _ => by simp only [hsize]⟩
        | some size =>
          match rest with
          | [] => exact .inl ⟨.memUndefined, nofun, fun _ => by simp only [hsize]⟩
          | count :: rest =>
            simp only [hsize]
            by_cases hcount : count.toNat > 4
            · exact .inl ⟨.s002, nofun, fun _ => if_pos hcount⟩
            · rcases decodeOperands_cases t count.toNat rest with
                ⟨e, he, hops⟩ | ⟨ops, tail, hlen, hrest, hops⟩
              · exact .inl ⟨e, he, fun _ => by simp only [hops, if_neg hcount]⟩
              · refine .inr ⟨b, op, size, ops, tail, ?_, fun _ => by simp only [hops, if_neg hcount]⟩
                have hnumber : leBytes 2 (op.number t).toNat = [opLow, opHigh] := by
                  rw [Op.number_of_ofNumber t _ op hop]
                  exact leBytes_ofNat_leNat [opLow, opHigh] rfl
                rw [contentBytes, hnumber, OperandSize.code_of_ofCode t code size hsize, hlen,
                  BitVec.ofNat_toNat, BitVec.setWidth_eq, hrest]
                simp

/-! ### Byte 0 -/

theorem encodedLength_le (op : Operand) : op.encodedLength ≤ 10 := by
  cases op <;> simp [Operand.encodedLength]

theorem roundUp8_le {x k : Nat} (h : x ≤ 8 * k) : roundUp8 x ≤ 8 * k := by
  unfold roundUp8
  split <;> omega

/-- Four constants make the longest instruction (30_encoding.md R95). -/
theorem encodedSize_le {ops : List Operand} (hcount : ops.length ≤ 4) : encodedSize ops ≤ 48 := by
  have hsum : (ops.map Operand.encodedLength).sum ≤ ops.length * 10 := by
    simpa using List.sum_le_card_nsmul (ops.map Operand.encodedLength) 10
      (by simpa using fun op _ => encodedLength_le op)
  have hcontent : contentLength ops + (if ops.length > 0 then 1 else 0) ≤ 8 * 6 := by
    unfold contentLength
    split <;> omega
  exact max_le (by decide) (roundUp8_le hcontent)

/-- What the last checks can do: the extent leaves memory, byte 0 is the computed size, or it is not and
the policy decides (30_encoding.md R104, R111). -/
theorem finishDecode_cases (available : Nat) (b : Byte) (op : Op) (size : OperandSize)
    (ops : List Operand) :
    (∀ policy, finishDecode policy available b op size ops = .error .memUndefined) ∨
    (b.toNat = encodedSize ops ∧ ∀ policy,
      finishDecode policy available b op size ops = .ok (op.instr size ops, b.toNat)) ∨
    (b.toNat ≠ encodedSize ops ∧ finishDecode .strict available b op size ops = .error .s005 ∧
      finishDecode .trustByte0 available b op size ops = .ok (op.instr size ops, b.toNat)) := by
  unfold finishDecode
  by_cases hlen : available < encodedSize ops
  · exact .inl fun _ => if_pos hlen
  · by_cases hb : b.toNat = encodedSize ops
    · exact .inr (.inl ⟨hb, fun _ => by simp [hlen, hb]⟩)
    · exact .inr (.inr ⟨hb, by simp [hlen, hb], by simp [hlen, hb]⟩)

/-- A byte 0 that is the computed size passes the last checks under either policy. -/
theorem finishDecode_ok (policy : SizeBytePolicy) {available : Nat} {b : Byte} (op : Op)
    (size : OperandSize) {ops : List Operand} (hlen : encodedSize ops ≤ available)
    (hb : b.toNat = encodedSize ops) :
    finishDecode policy available b op size ops = .ok (op.instr size ops, encodedSize ops) := by
  simp [finishDecode, Nat.not_lt.2 hlen, hb]

/-! ### The statements -/

/-- Settles O1: the content is read back and byte 0, at most 48, is the computed size. -/
theorem encodeThenDecodeGivesInstruction : Obligations.EncodeThenDecodeGivesInstruction := by
  unfold Obligations.EncodeThenDecodeGivesInstruction
  intro t policy i rest ht hwf
  simp only [Instr.wellFormed, Bool.and_eq_true, decide_eq_true_eq, List.all_eq_true] at hwf
  obtain ⟨hcount, hops⟩ := hwf
  have hsize := encodedSize_le hcount
  have hbyte : (BitVec.ofNat 8 (encodedSize i.operands)).toNat = encodedSize i.operands := by
    rw [BitVec.toNat_ofNat]
    omega
  have hlen : encodedSize i.operands ≤ (encode t i ++ rest).length := by
    rw [List.length_append, encode_length]
    exact Nat.le_add_right ..
  rw [encode_eq_contentBytes, List.cons_append, List.append_assoc] at hlen ⊢
  rw [decode_contentBytes ht policy _ _ _ hcount hops, finishDecode_ok policy _ _ hlen hbyte,
    Instr.op_instr]

/-- Settles O3: decode read some content, and strict decode accepts only its computed size as byte
0. -/
theorem strictDecodeAcceptsOnlyEncodings : Obligations.StrictDecodeAcceptsOnlyEncodings := by
  unfold Obligations.StrictDecodeAcceptsOnlyEncodings
  intro t bytes i n h
  obtain ⟨hwf, hn, hlen⟩ := decode_strict_ok h
  refine ⟨hwf, hn, hlen, ?_⟩
  rcases decode_cases t bytes with ⟨e, -, he⟩ | ⟨b, op, size, ops, rest, hbytes, hdecode⟩
  · cases (he .strict).symm.trans h
  · rw [hdecode] at h
    rcases finishDecode_cases bytes.length b op size ops with hf | ⟨hb, hf⟩ | ⟨-, hf, -⟩
    · cases (hf .strict).symm.trans h
    · cases (hf .strict).symm.trans h
      have hbyte : b = BitVec.ofNat 8 (encodedSize ops) := by
        rw [← hb, BitVec.ofNat_toNat, BitVec.setWidth_eq]
      rw [encode_eq_contentBytes, Op.instr_op, Op.instr_size, Op.instr_operands, hbytes,
        take_contentLength, take_contentLength, hbyte]
    · cases hf.symm.trans h

/-- Settles O4: the policy is asked for nothing but a byte 0 that is not the computed size. -/
theorem sizeBytePoliciesDifferOnlyOnMismatch : Obligations.SizeBytePoliciesDifferOnlyOnMismatch := by
  unfold Obligations.SizeBytePoliciesDifferOnlyOnMismatch
  intro t bytes
  rcases decode_cases t bytes with ⟨e, hne, he⟩ | ⟨b, op, size, ops, rest, hbytes, hdecode⟩
  · rw [he, he]
    exact ⟨by simp [hne], fun _ => rfl, nofun⟩
  · have hhead : bytes.head? = some b := by rw [hbytes, List.head?_cons]
    rw [hdecode, hdecode, hhead]
    rcases finishDecode_cases bytes.length b op size ops with hf | ⟨hb, hf⟩ | ⟨hb, hs, ht⟩
    · rw [hf, hf]
      exact ⟨by simp, fun _ => rfl, nofun⟩
    · rw [hf, hf]
      exact ⟨by simp [hb], fun _ => rfl, by simp⟩
    · rw [hs, ht]
      exact ⟨by simp [hb], fun h => absurd rfl h, by simp⟩

/-- Settles O5: the five words are closed terms, and decode runs on them. -/
theorem sampleWordsDecode : Obligations.SampleWordsDecode := by
  unfold Obligations.SampleWordsDecode
  decide

end Sys2Proof

/-! PROOF. The encode port and the fetch that follows it (O2, O6, O7, O8, O59). -/

namespace Sys2Proof.Machine

/-! ### What a running machine does -/

/-- The alignment check comes before any byte is read (30_encoding.md R105). -/
theorem fetch_misaligned {s : State} (h : s.pc.toNat % 8 ≠ 0) : fetch s = .fault .b003 := if_pos h

theorem fetch_of_decode_ok {s : State} {i : Instr} {n : Nat} (hpc : s.pc.toNat % 8 = 0)
    (h : decode s.cfg.tables s.cfg.sizeBytePolicy (fetchWindow s) = .ok (i, n)) :
    fetch s = .instr i n := by
  simp [fetch, hpc, h]

theorem fetch_of_decode_error {s : State} {e : DecodeError} (hpc : s.pc.toNat % 8 = 0)
    (h : decode s.cfg.tables s.cfg.sizeBytePolicy (fetchWindow s) = .error e) :
    fetch s = .fault (FaultCause.ofDecode e) := by
  simp [fetch, hpc, h]

/-- A fault of the fetch is raised in the unchanged state (40_sequencer.md R131). -/
theorem step_of_fetch_fault {s : State} {c : FaultCause} (hrun : s.status = .running)
    (h : fetch s = .fault c) : step s = .next (raise c s) := by
  simp [step, hrun, h]

/-- The pc moves before the instruction runs (40_sequencer.md R131). -/
theorem step_of_fetch_instr {s : State} {i : Instr} {n : Nat} (hrun : s.status = .running)
    (h : fetch s = .instr i n) : step s = exec i (advance s n) := by
  simp [step, hrun, h]

/-- Settles O6: the fetch gives the decoded instruction. -/
theorem stepRunsTheDecodedInstruction : Obligations.StepRunsTheDecodedInstruction := by
  unfold Obligations.StepRunsTheDecodedInstruction
  intro s i n hrun hpc hdecode
  exact step_of_fetch_instr hrun (fetch_of_decode_ok hpc hdecode)

/-- Settles O7: the step raises B003 in the unchanged state. -/
theorem misalignedPcRaisesB003 : Obligations.MisalignedPcRaisesB003 := by
  unfold Obligations.MisalignedPcRaisesB003
  intro s hrun hpc
  exact ⟨raise .b003 s, step_of_fetch_fault hrun (fetch_misaligned hpc), rfl, rfl, rfl⟩

/-- Settles O8: the step raises the decode error in the unchanged state. -/
theorem decodeErrorsChangeNoRegister : Obligations.DecodeErrorsChangeNoRegister := by
  unfold Obligations.DecodeErrorsChangeNoRegister
  intro s e hrun hpc hdecode
  refine ⟨raise (FaultCause.ofDecode e) s,
    step_of_fetch_fault hrun (fetch_of_decode_error hpc hdecode), ?_⟩
  simp

/-! ### The encode port -/

/-- The alignment is the first check (30_encoding.md R102). -/
theorem hostEncode_misaligned {s : State} {addr : Word} (i : Instr) (hinit : s.status ≠ .uninitialised)
    (haddr : addr.toNat % 8 ≠ 0) : hostEncode addr i s = .next (report .b003 s, 0) := by
  rw [hostEncode, if_neg hinit, if_pos haddr]

/-- The operand count is the second (30_encoding.md R103). -/
theorem hostEncode_tooManyOperands {s : State} {addr : Word} {i : Instr}
    (hinit : s.status ≠ .uninitialised) (haddr : addr.toNat % 8 = 0) (hcount : i.operands.length > 4) :
    hostEncode addr i s = .next (report .s002 s, 0) := by
  rw [hostEncode, if_neg hinit, if_neg (not_not.2 haddr), if_pos hcount]

/-- Past both checks the port writes the encoding (30_encoding.md R101). -/
theorem hostEncode_ok {s : State} {addr : Word} {i : Instr} (hinit : s.status ≠ .uninitialised)
    (haddr : addr.toNat % 8 = 0) (hcount : i.operands.length ≤ 4)
    (hend : addr.toNat + encodedSize i.operands ≤ s.cfg.heapSize) :
    hostEncode addr i s = .next (s.setMem (Memory.writeBytes s.mem addr.toNat (encode s.cfg.tables i)),
      encodedSize i.operands) := by
  rw [hostEncode, if_neg hinit, if_neg (not_not.2 haddr), if_neg (Nat.not_lt.2 hcount),
    if_pos (State.inBounds_iff.2 hend)]

/-- Settles O59: the two checks of the port, in their order. -/
theorem encodePortGuards : Obligations.EncodePortGuards := by
  unfold Obligations.EncodePortGuards
  intro s addr i hinit
  exact ⟨hostEncode_misaligned i hinit, hostEncode_tooManyOperands hinit⟩

/-- Bytes written at the pc come first in the window, if the window holds them all. -/
theorem fetchWindow_of_writeBytes {s : State} {m : Memory} {l : List Byte} (hm : Memory.wf m = true)
    (hmem : s.mem = Memory.writeBytes m s.pc.toNat l) (hlong : l.length ≤ 48)
    (hend : s.pc.toNat + l.length ≤ s.cfg.heapSize) : l <+: fetchWindow s := by
  have hwindow : l.length ≤ min maxInstrBytes (s.cfg.heapSize - s.pc.toNat) :=
    Nat.le_min.2 ⟨hlong, by omega⟩
  rw [List.prefix_iff_eq_take, fetchWindow, Memory.bytes_take _ _ hwindow, hmem,
    Memory.bytes_writeBytes_same _ _ _ hm]

/-- Settles O2: the fetch window begins with the encoding, which decode reads back. -/
theorem loadedInstructionIsFetched : Obligations.LoadedInstructionIsFetched := by
  unfold Obligations.LoadedInstructionIsFetched
  rintro s addr i ⟨-, hheap, htables⟩ ⟨hmem, -⟩ hinit hwf haddr hend
  have hcount : i.operands.length ≤ 4 := by
    simp only [Instr.wellFormed, Bool.and_eq_true, decide_eq_true_eq] at hwf
    exact hwf.1
  refine ⟨_, hostEncode_ok hinit haddr hcount hend, fetch_of_decode_ok haddr ?_, ?_⟩
  · obtain ⟨rest, hwindow⟩ := fetchWindow_of_writeBytes (l := encode s.cfg.tables i)
      (s := (s.setMem (Memory.writeBytes s.mem addr.toNat (encode s.cfg.tables i))).setPc addr) hmem rfl
      (by rw [encode_length]; exact encodedSize_le hcount) (by rw [encode_length]; exact hend)
    rw [← hwindow]
    exact encodeThenDecodeGivesInstruction _ _ i rest htables hwf
  · rw [advance_pc, State.setPc_pc, BitVec.toNat_add, BitVec.toNat_ofNat, Nat.add_mod_mod]
    exact Nat.mod_eq_of_lt (by omega)

end Sys2Proof.Machine

/-! PROOF. The dispatch (O9, O11, O12). Every meaning checks its operand count first, and a
meaning that passes the check ends in a next state (`CountChecked`); a reserved opcode under
`reference_nop` does not reach its meaning (`exec_reserved`). -/

namespace Sys2Proof.Machine

/-! ### The operand count -/

theorem length_ne_one {ops : List Operand} (h : ∀ a, ops = [a] → False) : ops.length ≠ 1 := by
  intro hlen
  obtain ⟨a, hops⟩ := List.length_eq_one_iff.1 hlen
  exact h a hops

theorem length_ne_two {ops : List Operand} (h : ∀ a b, ops = [a, b] → False) : ops.length ≠ 2 := by
  intro hlen
  obtain ⟨a, b, hops⟩ := List.length_eq_two.1 hlen
  exact h a b hops

theorem length_ne_three {ops : List Operand} (h : ∀ a b c, ops = [a, b, c] → False) :
    ops.length ≠ 3 := by
  intro hlen
  obtain ⟨a, b, c, hops⟩ := List.length_eq_three.1 hlen
  exact h a b c hops

/-- What a meaning answers with an accepted operand count, and with another one (40_sequencer.md
R134). -/
def CountChecked (accepted : Bool) (s : State) (o : Host.Outcome State Fault Refusal) : Prop :=
  (accepted = true ∧ ∃ r : Res Unit, o = r.finish) ∨ (accepted = false ∧ o = wrongCount s)

theorem countChecked_finish {p : Prop} [Decidable p] (hp : p) (s : State) (r : Res Unit) :
    CountChecked (decide p) s r.finish := .inl ⟨decide_eq_true hp, r, rfl⟩

theorem countChecked_wrongCount {p : Prop} [Decidable p] (hp : ¬ p) (s : State) :
    CountChecked (decide p) s (wrongCount s) := .inr ⟨decide_eq_false hp, rfl⟩

/-- A fault is a next state too (60_exceptions.md R301). -/
theorem CountChecked.exists_next {accepted : Bool} {s : State}
    {o : Host.Outcome State Fault Refusal} (h : CountChecked accepted s o) : ∃ t, o = .next t := by
  rcases h with ⟨-, r, rfl⟩ | ⟨-, rfl⟩
  · exact r.finish_next
  · exact ⟨_, rfl⟩

theorem CountChecked.eq_wrongCount {s : State} {o : Host.Outcome State Fault Refusal}
    (h : CountChecked false s o) : o = wrongCount s := by
  rcases h with ⟨h, -⟩ | ⟨-, h⟩
  · cases h
  · exact h

theorem CountChecked.reserved {accepted : Bool} {s : State} {o : Host.Outcome State Fault Refusal}
    (hmode : s.cfg.reservedOpMode = .architected) (h : CountChecked accepted s o) :
    CountChecked accepted s (reservedOp s o) := by
  rwa [reservedOp_architected s o hmode]

/-! ### The count check of each shape -/

section

variable (size : OperandSize) (ops : List Operand) (s : State)

theorem inertOp_countChecked : CountChecked (decide (ops.length ≤ 4)) s (inertOp ops s) := by
  unfold inertOp
  split
  case isTrue h => exact countChecked_finish h s (.ok () s)
  case isFalse h => exact countChecked_wrongCount h s

theorem binaryOp_countChecked (f : Word → Word → Word) :
    CountChecked (decide (ops.length = 3)) s (binaryOp size ops f s) := by
  unfold binaryOp
  split
  case h_1 => exact countChecked_finish rfl s _
  case h_2 h => exact countChecked_wrongCount (length_ne_three h) s

theorem unaryOp_countChecked (f : Word → Word) :
    CountChecked (decide (ops.length = 2)) s (unaryOp size ops f s) := by
  unfold unaryOp
  split
  case h_1 => exact countChecked_finish rfl s _
  case h_2 h => exact countChecked_wrongCount (length_ne_two h) s

theorem flagsOp_countChecked (f : Word → Word → Word → Word) :
    CountChecked (decide (ops.length = 2)) s (flagsOp size ops f s) := by
  unfold flagsOp
  split
  case h_1 => exact countChecked_finish rfl s _
  case h_2 h => exact countChecked_wrongCount (length_ne_two h) s

theorem branchOp_countChecked (cond : Word → Bool) :
    CountChecked (decide (ops.length = 1)) s (branchOp size ops cond s) := by
  unfold branchOp
  split
  case h_1 => exact countChecked_finish rfl s _
  case h_2 h => exact countChecked_wrongCount (length_ne_one h) s

theorem bitBranchOp_countChecked (wanted : Bool) :
    CountChecked (decide (ops.length = 2)) s (bitBranchOp size ops wanted s) := by
  unfold bitBranchOp
  split
  case h_1 => exact countChecked_finish rfl s _
  case h_2 h => exact countChecked_wrongCount (length_ne_two h) s

theorem execLoad_countChecked :
    CountChecked (decide (ops.length = 2 ∨ ops.length = 3)) s (execLoad size ops s) := by
  unfold execLoad
  split
  case h_1 => exact countChecked_finish (.inl rfl) s _
  case h_2 => exact countChecked_finish (.inr rfl) s _
  case h_3 h2 h3 =>
    exact countChecked_wrongCount (fun h => h.elim (length_ne_two h2) (length_ne_three h3)) s

theorem execStore_countChecked :
    CountChecked (decide (ops.length = 2 ∨ ops.length = 3)) s (execStore size ops s) := by
  unfold execStore
  split
  case h_1 => exact countChecked_finish (.inl rfl) s _
  case h_2 => exact countChecked_finish (.inr rfl) s _
  case h_3 h2 h3 =>
    exact countChecked_wrongCount (fun h => h.elim (length_ne_two h2) (length_ne_three h3)) s

theorem execMove_countChecked : CountChecked (decide (ops.length = 2)) s (execMove size ops s) := by
  unfold execMove
  split
  case h_1 => exact countChecked_finish rfl s _
  case h_2 h => exact countChecked_wrongCount (length_ne_two h) s

theorem execPush_countChecked : CountChecked (decide (ops.length = 1)) s (execPush size ops s) := by
  unfold execPush
  split
  case h_1 => exact countChecked_finish rfl s _
  case h_2 h => exact countChecked_wrongCount (length_ne_one h) s

theorem execPop_countChecked : CountChecked (decide (ops.length = 1)) s (execPop size ops s) := by
  unfold execPop
  split
  case h_1 => exact countChecked_finish rfl s _
  case h_2 h => exact countChecked_wrongCount (length_ne_one h) s

theorem execMod_countChecked : CountChecked (decide (ops.length = 3)) s (execMod size ops s) := by
  unfold execMod
  split
  case h_1 => exact countChecked_finish rfl s _
  case h_2 h => exact countChecked_wrongCount (length_ne_three h) s

theorem execJsr_countChecked : CountChecked (decide (ops.length = 1)) s (execJsr size ops s) := by
  unfold execJsr
  split
  case h_1 => exact countChecked_finish rfl s _
  case h_2 h => exact countChecked_wrongCount (length_ne_one h) s

theorem execRts_countChecked : CountChecked (decide (ops.length = 0)) s (execRts size ops s) := by
  unfold execRts
  split
  case h_1 => exact countChecked_finish rfl s _
  case h_2 h => exact countChecked_wrongCount (h ∘ List.length_eq_zero_iff.1) s

theorem execJmp_countChecked : CountChecked (decide (ops.length = 1)) s (execJmp size ops s) := by
  unfold execJmp
  split
  case h_1 => exact countChecked_finish rfl s _
  case h_2 h => exact countChecked_wrongCount (length_ne_one h) s

theorem execExit_countChecked : CountChecked (decide (ops.length = 0)) s (execExit size ops s) := by
  unfold execExit
  split
  case h_1 => exact countChecked_finish rfl s (.ok () (s.setStatus .halted))
  case h_2 h => exact countChecked_wrongCount (h ∘ List.length_eq_zero_iff.1) s

end

/-! ### Every instruction -/

/-- An instruction that runs its own rule accepts the operand counts of 30_encoding.md R115. -/
theorem exec_countChecked {s : State} :
    (i : Instr) → RunsItsRule i s → CountChecked (i.op.accepts i.operands.length) s (exec i s)
  | .nop _ ops, _ => inertOp_countChecked ops s
  | .load size ops, _ => execLoad_countChecked size ops s
  | .store size ops, _ => execStore_countChecked size ops s
  | .move size ops, _ => execMove_countChecked size ops s
  | .push size ops, _ => execPush_countChecked size ops s
  | .pop size ops, _ => execPop_countChecked size ops s
  | .add size ops, _ => binaryOp_countChecked size ops s _
  | .sub size ops, _ => binaryOp_countChecked size ops s _
  | .mul size ops, _ => binaryOp_countChecked size ops s _
  | .div size ops, _ => binaryOp_countChecked size ops s _
  | .mod size ops, _ => execMod_countChecked size ops s
  | .neg size ops, h => (unaryOp_countChecked size ops s _).reserved (h.resolve_left nofun)
  | .shr size ops, h => (binaryOp_countChecked size ops s _).reserved (h.resolve_left nofun)
  | .shl size ops, h => (binaryOp_countChecked size ops s _).reserved (h.resolve_left nofun)
  | .ror size ops, h => (binaryOp_countChecked size ops s _).reserved (h.resolve_left nofun)
  | .rol size ops, h => (binaryOp_countChecked size ops s _).reserved (h.resolve_left nofun)
  | .and size ops, h => (binaryOp_countChecked size ops s _).reserved (h.resolve_left nofun)
  | .or size ops, h => (binaryOp_countChecked size ops s _).reserved (h.resolve_left nofun)
  | .xor size ops, h => (binaryOp_countChecked size ops s _).reserved (h.resolve_left nofun)
  | .not size ops, h => (unaryOp_countChecked size ops s _).reserved (h.resolve_left nofun)
  | .bis size ops, h => (binaryOp_countChecked size ops s _).reserved (h.resolve_left nofun)
  | .bic size ops, h => (binaryOp_countChecked size ops s _).reserved (h.resolve_left nofun)
  | .test size ops, h => (flagsOp_countChecked size ops s _).reserved (h.resolve_left nofun)
  | .cmp size ops, h => (flagsOp_countChecked size ops s _).reserved (h.resolve_left nofun)
  | .bz size ops, h => (branchOp_countChecked size ops s _).reserved (h.resolve_left nofun)
  | .bnz size ops, h => (branchOp_countChecked size ops s _).reserved (h.resolve_left nofun)
  | .tbz size ops, h => (bitBranchOp_countChecked size ops s _).reserved (h.resolve_left nofun)
  | .tbnz size ops, h => (bitBranchOp_countChecked size ops s _).reserved (h.resolve_left nofun)
  | .bne size ops, h => (branchOp_countChecked size ops s _).reserved (h.resolve_left nofun)
  | .beq size ops, h => (branchOp_countChecked size ops s _).reserved (h.resolve_left nofun)
  | .bae size ops, h => (branchOp_countChecked size ops s _).reserved (h.resolve_left nofun)
  | .ba size ops, h => (branchOp_countChecked size ops s _).reserved (h.resolve_left nofun)
  | .ble size ops, h => (branchOp_countChecked size ops s _).reserved (h.resolve_left nofun)
  | .bl size ops, h => (branchOp_countChecked size ops s _).reserved (h.resolve_left nofun)
  | .bo size ops, h => (branchOp_countChecked size ops s _).reserved (h.resolve_left nofun)
  | .bcc size ops, h => (branchOp_countChecked size ops s _).reserved (h.resolve_left nofun)
  | .bcs size ops, h => (branchOp_countChecked size ops s _).reserved (h.resolve_left nofun)
  | .jsr size ops, _ => execJsr_countChecked size ops s
  | .rts size ops, _ => execRts_countChecked size ops s
  | .jmp size ops, _ => execJmp_countChecked size ops s
  | .metaData _ ops, h => (inertOp_countChecked ops s).reserved (h.resolve_left nofun)
  | .debug _ ops, h => (inertOp_countChecked ops s).reserved (h.resolve_left nofun)
  | .exit size ops, _ => execExit_countChecked size ops s

/-- The meaning of a reserved opcode stands behind RESERVED_OP_MODE (40_sequencer.md R135). -/
theorem exec_reserved {i : Instr} (s : State) (h : i.op.reserved = true) :
    ∃ meaning, exec i s = reservedOp s meaning := by
  cases i
  case nop | load | store | move | push | pop | add | sub | mul | div | mod | jsr | rts | jmp | exit =>
    cases h
  all_goals exact ⟨_, rfl⟩

theorem exec_referenceNop {i : Instr} {s : State} (h : i.op.reserved = true)
    (hmode : s.cfg.reservedOpMode = .referenceNop) : exec i s = .next s := by
  obtain ⟨meaning, hexec⟩ := exec_reserved s h
  rw [hexec, reservedOp_referenceNop s meaning hmode]

theorem not_runsItsRule_iff {i : Instr} {s : State} :
    ¬ RunsItsRule i s ↔ i.op.reserved = true ∧ s.cfg.reservedOpMode = .referenceNop := by
  cases hmode : s.cfg.reservedOpMode <;> simp [RunsItsRule, hmode]

/-- No instruction stops the machine without a next state. -/
theorem exec_next (i : Instr) (s : State) : ∃ t, exec i s = .next t := by
  by_cases h : RunsItsRule i s
  · exact (exec_countChecked i h).exists_next
  · obtain ⟨hreserved, hmode⟩ := not_runsItsRule_iff.1 h
    exact ⟨s, exec_referenceNop hreserved hmode⟩

theorem exec_of_not_accepts {i : Instr} {s : State} (hrule : RunsItsRule i s)
    (hcount : i.op.accepts i.operands.length = false) : exec i s = .next (raise .s006 s) := by
  have h := exec_countChecked i hrule
  rw [hcount] at h
  exact h.eq_wrongCount

/-- Settles O11: the count check fails before the meaning begins, in the state with the advanced pc. -/
theorem wrongOperandCountRaisesS006 : Obligations.WrongOperandCountRaisesS006 := by
  unfold Obligations.WrongOperandCountRaisesS006
  intro i s n hrule hcount
  refine ⟨exec_of_not_accepts hrule hcount, fun hrun hfetch => ?_⟩
  have hexec : exec i (advance s n) = .next (raise .s006 (advance s n)) :=
    exec_of_not_accepts hrule hcount
  rw [step_of_fetch_instr hrun hfetch, hexec]
  rfl

/-- Settles O12: no reserved opcode reaches its meaning. -/
theorem reservedOpcodesUnderReferenceNop : Obligations.ReservedOpcodesUnderReferenceNop := by
  unfold Obligations.ReservedOpcodesUnderReferenceNop
  refine ⟨fun i s => exec_referenceNop, fun o => ?_⟩
  cases o <;> decide

/-! ### The status of the machine -/

theorem step_of_uninitialised {s : State} (h : s.status = .uninitialised) :
    step s = .refused .uninitialised := by
  simp [step, h]

theorem step_of_faulted {s : State} {code : FaultCode} (h : s.status = .faulted code) :
    step s = .fault (.faulted code) := by
  simp [step, h]

/-- A running machine has a next state, after a decode fault too (40_sequencer.md R130, R131). -/
theorem step_next_of_running {s : State} (h : s.status = .running) : ∃ t, step s = .next t := by
  cases hfetch : fetch s with
  | fault c => exact ⟨_, step_of_fetch_fault h hfetch⟩
  | instr i n =>
    rw [step_of_fetch_instr h hfetch]
    exact exec_next i _

/-- Settles O9: one status, one answer; reset sets the status `running`. -/
theorem noStepOutsideRunning : Obligations.NoStepOutsideRunning := by
  unfold Obligations.NoStepOutsideRunning
  intro s
  refine ⟨step_of_uninitialised, step_of_halted, fun _ => step_of_faulted, step_next_of_running,
    fun hinit => ?_⟩
  have hreset : hostReset s = .next (resetRegisters s) :=
    ((hostReset_cases s).resolve_left fun h => hinit h.1).2
  obtain ⟨u, hstep⟩ := step_next_of_running (resetRegisters_status s)
  exact ⟨_, u, hreset, resetRegisters_mem s, hstep⟩

end Sys2Proof.Machine

/-! PROOF. What a meaning raises after it has read or moved something (O14, O15, O16): the size check of
the first operand after the stack has moved, and B006 on a constant-kind target once everything before
the write is done. A constant-kind target is never written, so the frame rule applies to it. -/

namespace Sys2Proof.Machine

/-! ### The stack in bounds -/

theorem stackPush_ok {s : State} (v : Word) (h : (s.sp - 8).toNat + 8 ≤ s.cfg.heapSize) :
    stackPush v s = .ok () ((s.setSp (s.sp - 8)).setMem
      (Memory.writeBytes s.mem (s.sp - 8).toNat (leBytes 8 v.toNat))) :=
  memWrite_ok _ _ _ (s.setSp (s.sp - 8)) (State.inBounds_iff.2 h)

theorem stackPop_ok {s : State} (h : s.sp.toNat + 8 ≤ s.cfg.heapSize) :
    stackPop s = .ok (BitVec.ofNat 64 (littleEndian s.mem s.sp.toNat 8)) (s.setSp (s.sp + 8)) := by
  simp [stackPop, memRead_littleEndian h]

/-- A pushed word stands in its slot. -/
theorem littleEndian_writeBytes_word {m : Memory} (hm : Memory.wf m = true) (a : Nat) (v : Word) :
    littleEndian (Memory.writeBytes m a (leBytes 8 v.toNat)) a 8 = v.toNat := by
  have hbytes := Memory.bytes_writeBytes_same m a (leBytes 8 v.toNat) hm
  rw [leBytes_length] at hbytes
  rw [← leNat_bytes, hbytes, leNat_leBytes]
  exact Nat.mod_eq_of_lt v.isLt

theorem resolveInt_sizeNone (op : Operand) (s : State) :
    resolveInt .none op s = .fault .b005Size s := rfl

theorem assign_sizeNone (op : Operand) (v : Value) (s : State) :
    assign .none op v s = .fault .b005Size s := rfl

/-- Settles O14: the first operand access of both comes after their stack access. -/
theorem popAndJsrMoveTheStackBeforeB005 : Obligations.PopAndJsrMoveTheStackBeforeB005 := by
  unfold Obligations.PopAndJsrMoveTheStackBeforeB005
  rintro t s ⟨hwf, -⟩
  constructor
  · intro h
    simp [exec, execPop, stackPop_ok h, assign_sizeNone]
  · intro h
    refine ⟨_, ?_, littleEndian_writeBytes_word hwf (s.sp - 8).toNat s.pc⟩
    simp [exec, execJsr, stackPush_ok s.pc h, resolveInt_sizeNone]

/-! ### The operations with one or two sources -/

/-- Slot 0 is the target, slots 1 and 2 are read. `mod` is not among them: it may fault between the
reads and the write. -/
def twoSourceOps : List Op :=
  [.add, .sub, .mul, .div, .shr, .shl, .ror, .rol, .and, .or, .xor, .bis, .bic]

/-- Slot 0 is the target, slot 1 is read. -/
def oneSourceOps : List Op := [.neg, .not]

theorem exec_twoSource {i : Instr} {s : State} (hrule : RunsItsRule i s) (hop : i.op ∈ twoSourceOps) :
    ∃ f, exec i s = binaryOp i.size i.operands f s := by
  cases i
  case add | sub | mul | div => exact ⟨_, rfl⟩
  case shr | shl | ror | rol | and | or | xor | bis | bic =>
    exact ⟨_, reservedOp_architected s _ (hrule.resolve_left nofun)⟩
  all_goals simp [twoSourceOps, Instr.op] at hop

theorem exec_oneSource {i : Instr} {s : State} (hrule : RunsItsRule i s) (hop : i.op ∈ oneSourceOps) :
    ∃ f, exec i s = unaryOp i.size i.operands f s := by
  cases i
  case neg | not => exact ⟨_, reservedOp_architected s _ (hrule.resolve_left nofun)⟩
  all_goals simp [oneSourceOps, Instr.op] at hop

section

variable {z : OperandSize} {t a b : Operand}

/-- With usable sources, what is left of a two-source operation is the write. -/
theorem binaryOp_eq_assign (ha : Usable z a) (hb : Usable z b) (f : Word → Word → Word) (s : State) :
    binaryOp z [t, a, b] f s =
      (assign z t (.int (f (intValue a s) (secondValue a b s))) (afterTwoReads a b s)).finish := by
  obtain ⟨hsize, hwa⟩ := ha
  obtain ⟨-, hwb⟩ := hb
  simp [binaryOp, resolveInt_ok z a s hsize hwa, resolveInt_ok z b (afterRead a s) hsize hwb]

theorem unaryOp_eq_assign (ha : Usable z a) (f : Word → Word) (s : State) :
    unaryOp z [t, a] f s = (assign z t (.int (f (intValue a s))) (afterRead a s)).finish := by
  obtain ⟨hsize, hwa⟩ := ha
  simp [unaryOp, resolveInt_ok z a s hsize hwa]

theorem execMod_eq_assign (ha : Usable z a) (hb : Usable z b) {s : State}
    (hmod : s.cfg.modZeroPolicy = .zero ∨ secondValue a b s ≠ 0) :
    execMod z [t, a, b] s = (assign z t (.int (modU (intValue a s) (secondValue a b s)))
      (afterTwoReads a b s)).finish := by
  obtain ⟨hsize, hwa⟩ := ha
  obtain ⟨-, hwb⟩ := hb
  have hno : ¬ ((secondValue a b s).toNat = 0 ∧
      (afterTwoReads a b s).cfg.modZeroPolicy = .fault) := by
    rintro ⟨hzero, hfault⟩
    rw [afterRead_cfg, afterRead_cfg] at hfault
    rcases hmod with h | h
    · rw [h] at hfault
      cases hfault
    · exact h (BitVec.eq_of_toNat_eq hzero)
  simp only [execMod, resolveInt_ok z a s hsize hwa, resolveInt_ok z b (afterRead a s) hsize hwb,
    Res.bind_ok, if_neg hno]

theorem floatValue_of_isFloatSource {op : Operand} (h : isFloatSource op = true) (s : State) :
    ∃ x, floatValue op s = some x := by
  match op with
  | .reg .registerFloat _ => exact ⟨_, rfl⟩
  | .const .constantFloat _ _ => exact ⟨_, rfl⟩

/-- `move` requests a kind that its source has (41_operand_resolver.md R164). -/
theorem resolveMove_ok (ha : Usable z a) (s : State) :
    ∃ v, resolveMove z a s = .ok v (afterRead a s) := by
  obtain ⟨hsize, hwa⟩ := ha
  unfold resolveMove
  split
  case isTrue hfloat =>
    obtain ⟨x, hx⟩ := floatValue_of_isFloatSource hfloat s
    exact ⟨.float x, by rw [resolveFloat_ok z a s x hsize hwa hx, Res.bind_ok]⟩
  case isFalse => exact ⟨.int (intValue a s), by rw [resolveInt_ok z a s hsize hwa, Res.bind_ok]⟩

/-! ### A constant-kind target -/

theorem assign_const (hz : z ≠ .none) (ht : t.isConst = true) (v : Value) (s : State) :
    assign z t v s = .fault .b006 s := by
  simp [assign, targetFault_const z t v hz ht]

/-- The memory read comes before the write (42_data_movement.md R181). -/
theorem loadFrom_const {base : Operand} {offset : Option Operand} {s s' : State} {ea : Word}
    (hz : z ≠ .none) (ht : t.isConst = true) (hea : effectiveAddress z base offset s = .ok ea s')
    (h : ea.toNat + accessBytes z s' ≤ s'.cfg.heapSize) :
    loadFrom z t base offset s = .fault .b006 s' := by
  simp [loadFrom, hea, memRead_littleEndian h, assign_const hz ht]

end

/-- Settles O16: each form comes down to its write, which raises B006 in the state it is made in. -/
theorem constantTargetRaisesB006 : Obligations.ConstantTargetRaisesB006 := by
  unfold Obligations.ConstantTargetRaisesB006
  intro z t a b s hz ht hwa hwb
  have ha : Usable z a := ⟨hz, hwa⟩
  have hb : Usable z b := ⟨hz, hwb⟩
  refine ⟨fun i hrule hsize hops hop => ?twoSource, fun i hrule hsize hops hop => ?oneSource,
    fun h => ?mod, ?move, fun h => ?load, fun h => ?loadOffset, fun h => ?pop⟩
  case twoSource =>
    obtain ⟨f, hexec⟩ := exec_twoSource hrule hop
    rw [hexec, hsize, hops, binaryOp_eq_assign ha hb, assign_const hz ht, Res.finish_fault]
  case oneSource =>
    obtain ⟨f, hexec⟩ := exec_oneSource hrule hop
    rw [hexec, hsize, hops, unaryOp_eq_assign ha, assign_const hz ht, Res.finish_fault]
  case mod =>
    refine (execMod_eq_assign ha hb h).trans ?_
    rw [assign_const hz ht, Res.finish_fault]
  case move =>
    obtain ⟨v, hv⟩ := resolveMove_ok ha s
    simp [exec, execMove, hv, assign_const hz ht]
  case load =>
    rw [exec_load, loadFrom_const hz ht (effectiveAddress_base ha s) (by simpa using h),
      Res.finish_fault]
  case loadOffset =>
    rw [exec_load_offset, loadFrom_const hz ht (effectiveAddress_offset ha hb s) (by simpa using h),
      Res.finish_fault]
  case pop => simp [exec, execPop, stackPop_ok h, assign_const hz ht]

/-! ### No instruction completes with a constant-kind target -/

/-- A part of an instruction that faults. -/
def Res.Faults {α : Type} (r : Res α) : Prop := ∃ c s, r = .fault c s

/-- An outcome that is a next state with the status faulted (60_exceptions.md R301). -/
def EndsFaulted (o : Host.Outcome State Fault Refusal) : Prop :=
  ∃ t code, o = .next t ∧ t.status = .faulted code

theorem Res.Faults.bind {α β : Type} {r : Res α} {f : α → State → Res β}
    (hf : ∀ v s, (f v s).Faults) : (r.bind f).Faults := by
  cases r with
  | ok v s => exact hf v s
  | fault c s => exact ⟨c, s, rfl⟩

theorem Res.Faults.finish {r : Res Unit} (hr : r.Faults) : EndsFaulted r.finish := by
  obtain ⟨c, s, rfl⟩ := hr
  exact ⟨raise c s, c.code, rfl, rfl⟩

theorem wrongCount_endsFaulted (s : State) : EndsFaulted (wrongCount s) := ⟨_, _, rfl, rfl⟩

theorem EndsFaulted.reserved {s : State} {o : Host.Outcome State Fault Refusal}
    (hmode : s.cfg.reservedOpMode = .architected) (h : EndsFaulted o) :
    EndsFaulted (reservedOp s o) := by
  rwa [reservedOp_architected s o hmode]

section

variable {size : OperandSize} {ops : List Operand} {op : Operand} {s : State}

theorem assign_const_faults (hconst : op.isConst = true) (v : Value) (s : State) :
    (assign size op v s).Faults := by
  by_cases hsize : size = .none
  · subst hsize
    exact ⟨_, s, assign_sizeNone op v s⟩
  · exact ⟨_, s, assign_const hsize hconst v s⟩

theorem loadFrom_const_faults (hconst : op.isConst = true) (base : Operand)
    (offset : Option Operand) : (loadFrom size op base offset s).Faults :=
  Res.Faults.bind fun _ _ => Res.Faults.bind fun _ _ => assign_const_faults hconst _ _

variable (hconst : op.isConst = true)

include hconst

theorem binaryOp_const (ht : ops[0]? = some op) (f : Word → Word → Word) :
    EndsFaulted (binaryOp size ops f s) := by
  unfold binaryOp
  split
  case h_1 =>
    cases ht
    exact (Res.Faults.bind fun _ _ => Res.Faults.bind fun _ _ => assign_const_faults hconst _ _).finish
  case h_2 => exact wrongCount_endsFaulted s

theorem unaryOp_const (ht : ops[0]? = some op) (f : Word → Word) :
    EndsFaulted (unaryOp size ops f s) := by
  unfold unaryOp
  split
  case h_1 =>
    cases ht
    exact (Res.Faults.bind fun _ _ => assign_const_faults hconst _ _).finish
  case h_2 => exact wrongCount_endsFaulted s

theorem execMod_const (ht : ops[0]? = some op) : EndsFaulted (execMod size ops s) := by
  unfold execMod
  split
  case h_1 =>
    cases ht
    refine (Res.Faults.bind fun _ _ => Res.Faults.bind fun _ s2 => ?_).finish
    split
    · exact ⟨_, s2, rfl⟩
    · exact assign_const_faults hconst _ _
  case h_2 => exact wrongCount_endsFaulted s

theorem execMove_const (ht : ops[1]? = some op) : EndsFaulted (execMove size ops s) := by
  unfold execMove
  split
  case h_1 =>
    cases ht
    exact (Res.Faults.bind fun _ _ => assign_const_faults hconst _ _).finish
  case h_2 => exact wrongCount_endsFaulted s

theorem execLoad_const (ht : ops[0]? = some op) : EndsFaulted (execLoad size ops s) := by
  unfold execLoad
  split
  case h_1 =>
    cases ht
    exact (loadFrom_const_faults hconst _ _).finish
  case h_2 =>
    cases ht
    exact (loadFrom_const_faults hconst _ _).finish
  case h_3 => exact wrongCount_endsFaulted s

theorem execPop_const (ht : ops[0]? = some op) : EndsFaulted (execPop size ops s) := by
  unfold execPop
  split
  case h_1 =>
    cases ht
    exact (Res.Faults.bind fun _ _ => assign_const_faults hconst _ _).finish
  case h_2 => exact wrongCount_endsFaulted s

theorem exec_const_endsFaulted {i : Instr} (ht : targetOf i = some op) (hrule : RunsItsRule i s) :
    EndsFaulted (exec i s) := by
  cases i
  case add | sub | mul | div => exact binaryOp_const hconst ht _
  case shr | shl | ror | rol | and | or | xor | bis | bic =>
    exact (binaryOp_const hconst ht _).reserved (hrule.resolve_left nofun)
  case neg | not => exact (unaryOp_const hconst ht _).reserved (hrule.resolve_left nofun)
  case mod => exact execMod_const hconst ht
  case move => exact execMove_const hconst ht
  case load => exact execLoad_const hconst ht
  case pop => exact execPop_const hconst ht
  all_goals cases ht

theorem afterWrite_const (v : Value) (s : State) : afterWrite op v s = s := by
  cases op with
  | reg m i => cases hconst
  | special m i => cases hconst
  | const m i p => rfl

/-! ### What is left alone -/

omit hconst in
/-- An instruction with a target slot does not jump, compute flags or store, and only `pop` among them
moves the stack (30_encoding.md R115). -/
theorem writes_of_targetOf {i : Instr} (ht : targetOf i = some op) :
    controlTransfer i.op = false ∧ setsFlags i.op = false ∧ storesToMemory i.op = false ∧
      (i.op ≠ .pop → movesSp i.op = false) := by
  cases i
  case add | sub | mul | div | mod | neg | shr | shl | ror | rol | and | or | xor | not | bis | bic |
      move | load => exact ⟨rfl, rfl, rfl, fun _ => rfl⟩
  case pop => exact ⟨rfl, rfl, rfl, fun h => absurd rfl h⟩
  all_goals cases ht

/-- The parts of the state that an operand's read does not adjust, `sp` apart. -/
def unadjustedParts (s : State) : Vector Word 64 × Word × Word × Word × Memory :=
  (s.fregs, s.fr, s.sr, s.pc, s.mem)

theorem unadjustedParts_untouched {i : Instr} (ht : targetOf i = some op) :
    Untouched unadjustedParts i := by
  obtain ⟨hjump, hflags, hstore, -⟩ := writes_of_targetOf ht
  exact {
    read := fun _ _ _ _ => by simp [unadjustedParts]
    write := fun op' hop' _ v s => by
      obtain rfl := Option.some.inj (hop'.symm.trans ht)
      rw [afterWrite_const hconst]
    jump := fun h => absurd h (by simp [hjump])
    stack := fun _ _ _ => rfl
    flags := fun h => absurd h (by simp [hflags])
    store := fun h => absurd h (by simp [hstore])
    halt := fun _ => rfl
    raised := fun _ _ => rfl }

theorem targetOf_ne_special {i : Instr} (ht : targetOf i = some op) (m : SpecialMode) (index : Byte) :
    targetOf i ≠ some (.special m index) := by
  rw [ht]
  rintro ⟨⟩
  cases hconst

theorem namesI_const (j : Fin 64) : namesI op j = false := by
  cases op with
  | reg m i => cases hconst
  | special m i => cases hconst
  | const m i p => rfl

end

/-- Settles O15: the write is refused, and the frame rule covers what comes before it. -/
theorem noInstructionCompletesWithAConstantTarget :
    Obligations.NoInstructionCompletesWithAConstantTarget := by
  unfold Obligations.NoInstructionCompletesWithAConstantTarget
  intro i s op ht hconst hrule
  obtain ⟨t, code, hexec, hstatus⟩ := exec_const_endsFaulted hconst ht hrule
  have hparts := (unadjustedParts_untouched hconst ht).exec_eq hexec
  simp only [unadjustedParts, Prod.mk.injEq] at hparts
  obtain ⟨hfregs, hfr, hsr, hpc, hmem⟩ := hparts
  obtain ⟨-, -, -, hsp⟩ := writes_of_targetOf ht
  refine ⟨t, code, hexec, hstatus, fun j => ?_, fun j hread => ?_, hfr, hsr, hpc, hmem, fun hpop => ?_⟩
  · rw [State.getF, State.getF, hfregs]
  · have htarget : ∀ op', targetOf i = some op' → namesI op' j = false := by
      intro op' hop'
      obtain rfl := Option.some.inj (hop'.symm.trans ht)
      exact namesI_const hconst j
    exact (integerRegister_untouched htarget hread).exec_eq hexec
  · exact (stackPointer_untouched (targetOf_ne_special hconst ht .registerSp) (hsp hpop)).exec_eq hexec

end Sys2Proof.Machine

/-! PROOF. The sized operations (O35, O36, O37, O38, O39): a two-source or one-source operation with
usable operands writes its function of the values read, and each function is described by the bits of
its result. -/

namespace Sys2Proof.Machine

/-! ### Completion -/

section

variable {z : OperandSize} {t a b : Operand} {s : State}

theorem binaryOp_ok (ht : Writable z t) (ha : Usable z a) (hb : Usable z b)
    (f : Word → Word → Word) (s : State) :
    binaryOp z [t, a, b] f s =
      .next (afterWrite t (.int (f (intValue a s) (secondValue a b s))) (afterTwoReads a b s)) := by
  obtain ⟨hsize, hwt, hconst⟩ := ht
  rw [binaryOp_eq_assign ha hb, assign_int_ok z t _ _ hsize hwt hconst, Res.finish_ok]

theorem unaryOp_ok (ht : Writable z t) (ha : Usable z a) (f : Word → Word) (s : State) :
    unaryOp z [t, a] f s = .next (afterWrite t (.int (f (intValue a s))) (afterRead a s)) := by
  obtain ⟨hsize, hwt, hconst⟩ := ht
  rw [unaryOp_eq_assign ha, assign_int_ok z t _ _ hsize hwt hconst, Res.finish_ok]

theorem reservedBinaryOp_ok (hmode : s.cfg.reservedOpMode = .architected) (ht : Writable z t)
    (ha : Usable z a) (hb : Usable z b) (f : Word → Word → Word) :
    reservedOp s (binaryOp z [t, a, b] f s) =
      .next (afterWrite t (.int (f (intValue a s) (secondValue a b s))) (afterTwoReads a b s)) :=
  (reservedOp_architected s _ hmode).trans (binaryOp_ok ht ha hb f s)

theorem reservedUnaryOp_ok (hmode : s.cfg.reservedOpMode = .architected) (ht : Writable z t)
    (ha : Usable z a) (f : Word → Word) :
    reservedOp s (unaryOp z [t, a] f s) =
      .next (afterWrite t (.int (f (intValue a s))) (afterRead a s)) :=
  (reservedOp_architected s _ hmode).trans (unaryOp_ok ht ha f s)

end

/-! ### Negation -/

theorem trunc_toNat_lt {w : Nat} (v : Word) (hw : w ≤ 64) : (trunc w v).toNat < 2 ^ w := by
  rw [trunc_toNat v hw]
  exact Nat.mod_lt _ (Nat.two_pow_pos w)

theorem negW_toNat {w : Nat} (v : Word) (hw : w ≤ 64) :
    (negW w v).toNat = (2 ^ w - v.toNat % 2 ^ w) % 2 ^ w := by
  have hlt : (2 ^ w - v.toNat % 2 ^ w) % 2 ^ w < 2 ^ w := Nat.mod_lt _ (Nat.two_pow_pos w)
  rw [negW, trunc_toNat v hw, BitVec.toNat_ofNat]
  exact Nat.mod_eq_of_lt (hlt.trans_le (Nat.pow_le_pow_right (by decide) hw))

/-- The complement brings the source to 0 modulo 2^w (43_arithmetic.md R205). -/
theorem negW_add {w : Nat} (v : Word) (hw : w ≤ 64) :
    ((negW w v).toNat + v.toNat) % 2 ^ w = 0 := by
  have hle : v.toNat % 2 ^ w ≤ 2 ^ w := (Nat.mod_lt _ (Nat.two_pow_pos w)).le
  calc ((negW w v).toNat + v.toNat) % 2 ^ w
      = (2 ^ w - v.toNat % 2 ^ w + v.toNat % 2 ^ w) % 2 ^ w := by
        rw [negW_toNat v hw, Nat.mod_add_mod, Nat.add_mod_mod]
    _ = 0 := by rw [Nat.sub_add_cancel hle, Nat.mod_self]

/-- Settles O35: the result is `negW` of the source. -/
theorem negIsTheComplementInWBits : Obligations.NegIsTheComplementInWBits := by
  unfold Obligations.NegIsTheComplementInWBits
  intro z t a s ht ha hmode
  refine ⟨_, reservedUnaryOp_ok hmode ht ha _, ?_, negW_add _ (width_le z)⟩
  rw [negW_toNat _ (width_le z)]
  exact Nat.mod_lt _ (Nat.two_pow_pos _)

/-! ### Shifts -/

theorem shrW_getLsbD (w : Nat) (v c : Word) (k : Nat) :
    (shrW w v c).getLsbD k = (decide (k + c.toNat < w) && v.getLsbD (k + c.toNat)) := by
  unfold shrW
  split
  case isTrue h =>
    have hout : ¬ k + c.toNat < w := by omega
    simp [hout]
  case isFalse => rw [BitVec.getLsbD_ushiftRight, trunc_getLsbD, Nat.add_comm]

theorem shlW_getLsbD {w : Nat} (hw : w ≤ 64) (v c : Word) (k : Nat) :
    (shlW w v c).getLsbD k =
      (decide (k < w ∧ c.toNat ≤ k) && v.getLsbD (k - c.toNat)) := by
  unfold shlW
  split
  case isTrue h =>
    have hout : ¬ (k < w ∧ c.toNat ≤ k) := by omega
    simp [hout]
  case isFalse =>
    rw [trunc_getLsbD, BitVec.getLsbD_shiftLeft, trunc_getLsbD]
    by_cases hk : k < w ∧ c.toNat ≤ k
    · obtain ⟨hkw, hck⟩ := hk
      have hk64 : k < 64 := by omega
      have hsource : k - c.toNat < w := by omega
      simp [hkw, hck, hk64, hsource, Nat.not_lt.2 hck]
    · rcases not_and_or.1 hk with h | h
      · simp [h]
      · simp [h, Nat.not_le.1 h]

/-- Settles O36: the bits of `shrW` and `shlW`. -/
theorem shiftsMoveBitsWithinTheWidth : Obligations.ShiftsMoveBitsWithinTheWidth := by
  unfold Obligations.ShiftsMoveBitsWithinTheWidth
  rintro z t a b s x c ht ha hb hmode rfl rfl
  exact ⟨_, _, reservedBinaryOp_ok hmode ht ha hb _, reservedBinaryOp_ok hmode ht ha hb _,
    shrW_getLsbD _ _ _, shlW_getLsbD (width_le z) _ _⟩

/-! ### Rotates -/

/-- The two parts of a rotation by `m`, 0 < m < w: turning left by `m` moves bit `k` to bit
`(k + m) mod w`. -/
theorem rotate_getLsbD {w m k : Nat} (hw : w ≤ 64) (hm : m < w) (hk : k < w) (v : Word) :
    (trunc w ((trunc w v <<< m) ||| (trunc w v >>> (w - m)))).getLsbD ((k + m) % w) =
      v.getLsbD k := by
  rw [Nat.add_mod_eq_ite, Nat.mod_eq_of_lt hk, Nat.mod_eq_of_lt hm, trunc_getLsbD, BitVec.getLsbD_or,
    BitVec.getLsbD_shiftLeft, BitVec.getLsbD_ushiftRight, trunc_getLsbD, trunc_getLsbD]
  split
  case isFalse h =>
    have hin : k + m < w := by omega
    have h64 : k + m < 64 := by omega
    have hright : ¬ w - m + (k + m) < w := by omega
    simp [hin, h64, hk, hright]
  case isTrue h =>
    have hlow : k + m - w < m := by omega
    have hbelow : k + m - w < w := by omega
    have hright : w - m + (k + m - w) = k := by omega
    simp [hlow, hbelow, hk, hright]

theorem rolW_getLsbD {w k : Nat} (hw : w ≤ 64) (hk : k < w) (v c : Word) :
    (rolW w v c).getLsbD ((k + c.toNat) % w) = v.getLsbD k := by
  have hm : c.toNat % w < w := Nat.mod_lt _ (by omega)
  rw [← Nat.add_mod_mod]
  unfold rolW
  split
  case isTrue h => simp [h, Nat.mod_eq_of_lt hk, hk]
  case isFalse => exact rotate_getLsbD hw hm hk v

/-- Turning right by `m` is turning left by `w - m`. -/
theorem rorW_getLsbD {w k : Nat} (hw : w ≤ 64) (hk : k < w) (v c : Word) :
    (rorW w v c).getLsbD k = v.getLsbD ((k + c.toNat) % w) := by
  have hm : c.toNat % w < w := Nat.mod_lt _ (by omega)
  rw [← Nat.add_mod_mod]
  unfold rorW
  split
  case isTrue h => simp [h, Nat.mod_eq_of_lt hk, hk]
  case isFalse h =>
    have hsource : (k + c.toNat % w) % w < w := Nat.mod_lt _ (by omega)
    have hback : ((k + c.toNat % w) % w + (w - c.toNat % w)) % w = k := by
      rw [Nat.mod_add_mod, Nat.add_assoc, Nat.add_sub_cancel' hm.le, Nat.add_mod_right,
        Nat.mod_eq_of_lt hk]
    have hturn := rotate_getLsbD hw (m := w - c.toNat % w) (by omega) hsource v
    rw [hback, Nat.sub_sub_self hm.le] at hturn
    rw [BitVec.or_comm, hturn]

theorem rorW_toNat_lt {w : Nat} (hw : w ≤ 64) (v c : Word) : (rorW w v c).toNat < 2 ^ w := by
  unfold rorW
  split
  · exact trunc_toNat_lt _ hw
  · exact trunc_toNat_lt _ hw

theorem rolW_toNat_lt {w : Nat} (hw : w ≤ 64) (v c : Word) : (rolW w v c).toNat < 2 ^ w := by
  unfold rolW
  split
  · exact trunc_toNat_lt _ hw
  · exact trunc_toNat_lt _ hw

/-- Settles O37: the bits of `rorW` and `rolW`. -/
theorem rotatesTurnBitsWithinTheWidth : Obligations.RotatesTurnBitsWithinTheWidth := by
  unfold Obligations.RotatesTurnBitsWithinTheWidth
  rintro z t a b s x c ht ha hb hmode rfl rfl
  have hw := width_le z
  exact ⟨_, _, reservedBinaryOp_ok hmode ht ha hb _, reservedBinaryOp_ok hmode ht ha hb _,
    rorW_toNat_lt hw _ _, rolW_toNat_lt hw _ _, fun _ hk => rorW_getLsbD hw hk _ _,
    fun _ hk => rolW_getLsbD hw hk _ _⟩

/-! ### Bitwise operations and single bits -/

/-- Settles O38: each bit of a truncated word is the bit of the word or 0. -/
theorem bitwiseResultsPerBit : Obligations.BitwiseResultsPerBit := by
  unfold Obligations.BitwiseResultsPerBit
  rintro z t a b s x y ht ha hb hmode rfl rfl
  have hw := width_le z
  refine ⟨_, _, _, _, reservedBinaryOp_ok hmode ht ha hb _, reservedBinaryOp_ok hmode ht ha hb _,
    reservedBinaryOp_ok hmode ht ha hb _, reservedUnaryOp_ok hmode ht ha _, fun k => ?_⟩
  simp only [BitVec.getLsbD_and, BitVec.getLsbD_or, BitVec.getLsbD_xor, BitVec.getLsbD_not,
    trunc_getLsbD]
  by_cases hk : k < width z
  · have hk64 : k < 64 := by omega
    simp [hk, hk64]
  · simp [hk]

theorem bitMask_getLsbD {w : Nat} (hw : w ≤ 64) (k : Word) (j : Nat) :
    (bitMask w k).getLsbD j = decide (j < w ∧ j = k.toNat) := by
  unfold bitMask
  split
  case isTrue h =>
    have hiff : (j < 64 ∧ k.toNat = j) ↔ (j < w ∧ j = k.toNat) := by omega
    rw [BitVec.natCast_eq_ofNat, BitVec.getLsbD_ofNat, Nat.one_shiftLeft, Nat.testBit_two_pow,
      ← Bool.decide_and]
    exact decide_eq_decide.2 hiff
  case isFalse h =>
    have hno : ¬ (j < w ∧ j = k.toNat) := by omega
    simp [hno]

theorem bisW_getLsbD {w : Nat} (hw : w ≤ 64) (v k : Word) (j : Nat) :
    (bisW w v k).getLsbD j = (decide (j < w) && (v.getLsbD j || decide (j = k.toNat))) := by
  rw [bisW, BitVec.getLsbD_or, trunc_getLsbD, bitMask_getLsbD hw, Bool.decide_and,
    Bool.and_or_distrib_left]

theorem bicW_getLsbD {w : Nat} (hw : w ≤ 64) (v k : Word) (j : Nat) :
    (bicW w v k).getLsbD j = (decide (j < w) && (v.getLsbD j && decide (j ≠ k.toNat))) := by
  rw [bicW, trunc_getLsbD, BitVec.getLsbD_and, trunc_getLsbD, BitVec.getLsbD_not,
    bitMask_getLsbD hw]
  by_cases hj : j < w
  · have hj64 : j < 64 := by omega
    simp [hj, hj64]
  · simp [hj]

/-- Settles O39: the bits of `bisW` and `bicW`. -/
theorem bitSetAndClearOneBit : Obligations.BitSetAndClearOneBit := by
  unfold Obligations.BitSetAndClearOneBit
  rintro z t a b s x k ht ha hb hmode rfl rfl
  exact ⟨_, _, reservedBinaryOp_ok hmode ht ha hb _, reservedBinaryOp_ok hmode ht ha hb _,
    fun j => ⟨bisW_getLsbD (width_le z) _ _ j, bicW_getLsbD (width_le z) _ _ j⟩⟩

end Sys2Proof.Machine

/-! PROOF. The conversions between u64 and f64 (O24, O25), on exact naturals: a finite pattern counts
2^-1074, so an integer n stands at `scaledNat n`. Truncation is a division in that unit; rounding is a
choice among the f64 values around the integer, which all are multiples of one spacing. -/

namespace Sys2Proof.Machine

/-! ### The fields of a pattern -/

theorem f64Fraction_lt (x : Word) : f64Fraction x < 2 ^ 52 := Nat.mod_lt _ (by decide)

theorem f64Significand_lt (x : Word) : f64Significand x < 2 ^ 53 := by
  have h := f64Fraction_lt x
  unfold f64Significand
  split <;> omega

theorem f64Significand_of_normal {x : Word} (h : f64Exponent x ≠ 0) :
    f64Significand x = 2 ^ 52 + f64Fraction x := if_neg h

theorem f64Scaled_lt (x : Word) : f64Scaled x < 2 ^ (max 1 (f64Exponent x) + 52) := by
  have hsplit : max 1 (f64Exponent x) + 52 = 53 + (max 1 (f64Exponent x) - 1) := by omega
  rw [hsplit, pow_add]
  exact Nat.mul_lt_mul_of_pos_right (f64Significand_lt x) (Nat.two_pow_pos _)

theorem f64Sign_eq (x : Word) : f64Sign x = decide (2 ^ 63 ≤ x.toNat) :=
  BitVec.msb_eq_decide x

/-- A pattern without its sign bit is its exponent and its fraction. -/
theorem toNat_eq_of_sign {x : Word} (h : f64Sign x = false) :
    x.toNat = f64Exponent x * 2 ^ 52 + f64Fraction x := by
  have hlt : ¬ 2 ^ 63 ≤ x.toNat := of_decide_eq_false ((f64Sign_eq x).symm.trans h)
  unfold f64Exponent f64Fraction
  omega

/-! ### Order of the values -/

theorem f64Scaled_lt_of_exponent_lt {x y : Word} (h : max 1 (f64Exponent x) < f64Exponent y) :
    f64Scaled x < f64Scaled y := by
  have hsig : 2 ^ 52 ≤ f64Significand y := by
    rw [f64Significand_of_normal (by omega)]
    exact Nat.le_add_right _ _
  calc f64Scaled x
      < 2 ^ (max 1 (f64Exponent x) + 52) := f64Scaled_lt x
    _ ≤ 2 ^ (52 + (max 1 (f64Exponent y) - 1)) := Nat.pow_le_pow_right (by decide) (by omega)
    _ = 2 ^ 52 * 2 ^ (max 1 (f64Exponent y) - 1) := pow_add ..
    _ ≤ f64Scaled y := Nat.mul_le_mul_right _ hsig

/-- Without the sign bit, no two patterns have the same magnitude. -/
theorem eq_of_f64Scaled_eq {x y : Word} (hx : f64Sign x = false) (hy : f64Sign y = false)
    (h : f64Scaled x = f64Scaled y) : x = y := by
  have hle : ∀ {v w : Word}, f64Scaled v = f64Scaled w →
      f64Exponent v ≤ max 1 (f64Exponent w) := fun hvw =>
    Nat.le_of_not_lt fun hlt => (f64Scaled_lt_of_exponent_lt hlt).ne hvw.symm
  have hxy := hle h
  have hyx := hle h.symm
  have hmax : max 1 (f64Exponent x) = max 1 (f64Exponent y) := by omega
  have hsig : f64Significand x = f64Significand y := by
    unfold f64Scaled at h
    rw [hmax] at h
    exact Nat.eq_of_mul_eq_mul_right (Nat.two_pow_pos _) h
  have hfx := f64Fraction_lt x
  have hfy := f64Fraction_lt y
  apply BitVec.eq_of_toNat_eq
  rw [toNat_eq_of_sign hx, toNat_eq_of_sign hy]
  unfold f64Significand at hsig
  split at hsig <;> split at hsig <;> omega

/-- From 2^(e + 52) units on, the values are multiples of 2^e units. -/
theorem pow_dvd_f64Scaled {x : Word} {e : Nat} (h : 2 ^ (e + 52) ≤ f64Scaled x) :
    2 ^ e ∣ f64Scaled x := by
  have hexp : e + 52 < max 1 (f64Exponent x) + 52 :=
    (Nat.pow_lt_pow_iff_right (by decide)).1 (h.trans_lt (f64Scaled_lt x))
  exact dvd_mul_of_dvd_right (pow_dvd_pow 2 (by omega)) _

/-! ### Building a pattern -/

/-- The pattern with biased exponent `e` and a significand between 2^52 and 2^53; the upper end carries
into the exponent. -/
def f64Pack (e significand : Nat) : Word :=
  BitVec.ofNat 64 (e * 2 ^ 52 + (significand - 2 ^ 52))

section

variable {e m : Nat}

theorem f64Pack_toNat (he : e < 2046) (hhi : m ≤ 2 ^ 53) :
    (f64Pack e m).toNat = e * 2 ^ 52 + (m - 2 ^ 52) := by
  rw [f64Pack, BitVec.toNat_ofNat]
  omega

theorem f64Pack_exponent (he : e < 2046) (hhi : m ≤ 2 ^ 53) :
    f64Exponent (f64Pack e m) = if m = 2 ^ 53 then e + 1 else e := by
  rw [f64Exponent, f64Pack_toNat he hhi]
  split <;> omega

theorem f64Pack_fraction (he : e < 2046) (hhi : m ≤ 2 ^ 53) :
    f64Fraction (f64Pack e m) = if m = 2 ^ 53 then 0 else m - 2 ^ 52 := by
  rw [f64Fraction, f64Pack_toNat he hhi]
  split <;> omega

theorem f64Pack_finite (he : e < 2046) (hhi : m ≤ 2 ^ 53) : f64Finite (f64Pack e m) = true := by
  rw [f64Finite, f64Pack_exponent he hhi, decide_eq_true_iff]
  split <;> omega

theorem f64Pack_sign (he : e < 2046) (hhi : m ≤ 2 ^ 53) : f64Sign (f64Pack e m) = false := by
  rw [f64Sign_eq, f64Pack_toNat he hhi, decide_eq_false_iff_not]
  omega

theorem f64Pack_significand (hpos : 0 < e) (he : e < 2046) (hlo : 2 ^ 52 ≤ m) (hhi : m ≤ 2 ^ 53) :
    f64Significand (f64Pack e m) = if m = 2 ^ 53 then 2 ^ 52 else m := by
  have hexp := f64Pack_exponent he hhi
  rw [f64Significand_of_normal (by rw [hexp]; split <;> omega), f64Pack_fraction he hhi]
  split <;> omega

theorem f64Pack_scaled (hpos : 0 < e) (he : e < 2046) (hlo : 2 ^ 52 ≤ m) (hhi : m ≤ 2 ^ 53) :
    f64Scaled (f64Pack e m) = m * 2 ^ (e - 1) := by
  rw [f64Scaled, f64Pack_significand hpos he hlo hhi, f64Pack_exponent he hhi]
  by_cases hcarry : m = 2 ^ 53
  · have hshift : max 1 (e + 1) - 1 = 1 + (e - 1) := by omega
    rw [if_pos hcarry, if_pos hcarry, hcarry, hshift, pow_add, ← mul_assoc]
    rfl
  · have hshift : max 1 e - 1 = e - 1 := by omega
    rw [if_neg hcarry, if_neg hcarry, hshift]

theorem f64Pack_significand_even (hpos : 0 < e) (he : e < 2046) (hlo : 2 ^ 52 ≤ m)
    (hhi : m ≤ 2 ^ 53) (heven : m % 2 = 0) : f64Significand (f64Pack e m) % 2 = 0 := by
  rw [f64Pack_significand hpos he hlo hhi]
  split
  · rfl
  · exact heven

end

/-! ### Rounding -/

theorem roundTiesEven_cases (q r d : Nat) :
    (roundTiesEven q r d = q ∧ 2 * r ≤ d ∧ (2 * r = d → q % 2 = 0)) ∨
    (roundTiesEven q r d = q + 1 ∧ d ≤ 2 * r ∧ (2 * r = d → (q + 1) % 2 = 0)) := by
  unfold roundTiesEven
  split
  · exact .inr ⟨rfl, by omega, by omega⟩
  · exact .inl ⟨rfl, by omega, by omega⟩

/-- A value that is a multiple of the spacing `d`, or lies below the multiple `q * d`, does not lie
strictly between that multiple and the next. -/
theorem le_or_succ_le {q d v : Nat} (h : v < q * d ∨ d ∣ v) : v ≤ q * d ∨ (q + 1) * d ≤ v := by
  rcases h with h | ⟨k, rfl⟩
  · exact .inl h.le
  · rw [mul_comm d k]
    rcases Nat.lt_or_ge q k with hk | hk
    · exact .inr (Nat.mul_le_mul_right d hk)
    · exact .inl (Nat.mul_le_mul_right d hk)

/-- `roundTiesEven` is nearest: no candidate is nearer to `q * d + r`, and one as near is the same
value or leaves an even quotient. -/
theorem roundTiesEven_nearest {q r d v : Nat} (hr : r < d) (h : v < q * d ∨ d ∣ v) :
    (((roundTiesEven q r d * d : Nat) : Int) - (q * d + r : Nat)).natAbs ≤
        ((v : Int) - (q * d + r : Nat)).natAbs ∧
      ((((roundTiesEven q r d * d : Nat) : Int) - (q * d + r : Nat)).natAbs =
        ((v : Int) - (q * d + r : Nat)).natAbs →
        v = roundTiesEven q r d * d ∨ roundTiesEven q r d % 2 = 0) := by
  have hv := le_or_succ_le h
  have hsucc : (q + 1) * d = q * d + d := Nat.succ_mul q d
  rcases roundTiesEven_cases q r d with ⟨hround, hle, heven⟩ | ⟨hround, hle, heven⟩
  · rw [hround]
    omega
  · rw [hround, hsucc]
    omega

/-! ### `u2f` -/

/-- The significand that `u2f` gives an integer with top bit `n`. -/
def u2fSignificand (u n : Nat) : Nat :=
  if n ≤ 52 then u * 2 ^ (52 - n)
  else roundTiesEven (u / 2 ^ (n - 52)) (u % 2 ^ (n - 52)) (2 ^ (n - 52))

theorem u2f_of_eq_zero {u : Word} (h : u.toNat = 0) : u2f u = 0 := if_pos h

theorem f64Significand_zero : f64Significand 0 = 0 := rfl

theorem u2f_eq_pack {u : Word} (h : u.toNat ≠ 0) :
    u2f u = f64Pack (Nat.log2 u.toNat + 1023) (u2fSignificand u.toNat (Nat.log2 u.toNat)) := if_neg h

/-- The f64 values around an integer with top bit `n` are `2^(n - 52)` apart; here in units of
2^-1074, where it is a whole number for every `n`. -/
def f64Spacing (n : Nat) : Nat := 2 ^ (n + 1022)

theorem f64Spacing_pos (n : Nat) : 0 < f64Spacing n := Nat.two_pow_pos _

theorem f64Spacing_succ (n : Nat) : f64Spacing (n + 1) = 2 * f64Spacing n := by
  rw [f64Spacing, f64Spacing, Nat.add_right_comm, pow_succ']

theorem scaledNat_of_le {n : Nat} (hn : n ≤ 52) (u : Nat) :
    scaledNat u = u * 2 ^ (52 - n) * f64Spacing n := by
  have hsplit : 1074 = (52 - n) + (n + 1022) := by omega
  rw [scaledNat, f64Spacing, mul_assoc, ← pow_add, ← hsplit]

theorem f64Spacing_of_ge {n : Nat} (hn : 52 ≤ n) : f64Spacing n = scaledNat (2 ^ (n - 52)) := by
  have hsplit : n + 1022 = (n - 52) + 1074 := by omega
  rw [scaledNat, f64Spacing, ← pow_add, ← hsplit]

theorem scaledNat_two_pow (n : Nat) : scaledNat (2 ^ n) = 2 ^ 52 * f64Spacing n := by
  have hsplit : n + 1074 = 52 + (n + 1022) := by omega
  rw [scaledNat, f64Spacing, ← pow_add, ← pow_add, hsplit]

theorem scaledNat_pos {n : Nat} (h : 0 < n) : 0 < scaledNat n := by
  rw [scaledNat]
  positivity

theorem scaledNat_lt_scaledNat {a b : Nat} : scaledNat a < scaledNat b ↔ a < b := by
  rw [scaledNat, scaledNat, Nat.mul_lt_mul_right (Nat.two_pow_pos _)]

theorem roundTiesEven_zero {d : Nat} (hd : 0 < d) (q : Nat) : roundTiesEven q 0 d = q :=
  if_neg (by omega)

theorem roundTiesEven_scale {k : Nat} (hk : 0 < k) (q r d : Nat) :
    roundTiesEven q (r * k) (d * k) = roundTiesEven q r d := by
  have hlt : 2 * (r * k) > d * k ↔ 2 * r > d := by
    rw [← mul_assoc]
    exact Nat.mul_lt_mul_right hk
  have heq : 2 * (r * k) = d * k ↔ 2 * r = d := by
    rw [← mul_assoc]
    exact Nat.mul_left_inj hk.ne'
  simp only [roundTiesEven, hlt, heq]

/-- On either side of 2^53, the significand is the integer over the spacing, rounded. -/
theorem u2fSignificand_eq (u n : Nat) :
    u2fSignificand u n =
      roundTiesEven (scaledNat u / f64Spacing n) (scaledNat u % f64Spacing n) (f64Spacing n) := by
  unfold u2fSignificand
  split
  case isTrue hn =>
    rw [scaledNat_of_le hn, Nat.mul_div_cancel _ (f64Spacing_pos n), Nat.mul_mod_left,
      roundTiesEven_zero (f64Spacing_pos n)]
  case isFalse hn =>
    rw [f64Spacing_of_ge (by omega), scaledNat, scaledNat,
      Nat.mul_div_mul_right _ _ (Nat.two_pow_pos _), Nat.mul_mod_mul_right,
      roundTiesEven_scale (Nat.two_pow_pos _)]

theorem scaledNat_div_spacing_bounds {u n : Nat} (hlo : 2 ^ n ≤ u) (hhi : u < 2 ^ (n + 1)) :
    2 ^ 52 ≤ scaledNat u / f64Spacing n ∧ scaledNat u / f64Spacing n < 2 ^ 53 := by
  have hpos := f64Spacing_pos n
  have hlow : 2 ^ 52 * f64Spacing n ≤ scaledNat u := by
    rw [← scaledNat_two_pow]
    exact Nat.mul_le_mul_right _ hlo
  have hhigh : scaledNat u < 2 ^ 53 * f64Spacing n :=
    calc scaledNat u
        < scaledNat (2 ^ (n + 1)) := scaledNat_lt_scaledNat.2 hhi
      _ = 2 ^ 53 * f64Spacing n := by
        rw [scaledNat_two_pow, f64Spacing_succ]
        omega
  exact ⟨(Nat.le_div_iff_mul_le hpos).2 hlow, (Nat.div_lt_iff_lt_mul hpos).2 hhigh⟩

theorem u2fSignificand_bounds {u n : Nat} (hlo : 2 ^ n ≤ u) (hhi : u < 2 ^ (n + 1)) :
    2 ^ 52 ≤ u2fSignificand u n ∧ u2fSignificand u n ≤ 2 ^ 53 := by
  obtain ⟨hqlo, hqhi⟩ := scaledNat_div_spacing_bounds hlo hhi
  rw [u2fSignificand_eq]
  rcases roundTiesEven_cases (scaledNat u / f64Spacing n) (scaledNat u % f64Spacing n)
    (f64Spacing n) with ⟨hround, -⟩ | ⟨hround, -⟩ <;> rw [hround] <;> omega

/-- What `u2f` makes of an integer that is not 0. -/
theorem u2f_spec {u : Word} (h : u.toNat ≠ 0) :
    ∃ n, 2 ^ n ≤ u.toNat ∧ u.toNat < 2 ^ (n + 1) ∧ f64Finite (u2f u) = true ∧
      f64Sign (u2f u) = false ∧ f64Scaled (u2f u) = u2fSignificand u.toNat n * f64Spacing n ∧
      (u2fSignificand u.toNat n % 2 = 0 → f64Significand (u2f u) % 2 = 0) := by
  have hlo : 2 ^ Nat.log2 u.toNat ≤ u.toNat := Nat.log2_self_le h
  have hhi : u.toNat < 2 ^ (Nat.log2 u.toNat + 1) := Nat.lt_log2_self
  have he : Nat.log2 u.toNat + 1023 < 2046 := by
    have hlog : Nat.log2 u.toNat < 64 := (Nat.log2_lt h).2 u.isLt
    omega
  obtain ⟨hmlo, hmhi⟩ := u2fSignificand_bounds hlo hhi
  rw [u2f_eq_pack h]
  exact ⟨_, hlo, hhi, f64Pack_finite he hmhi, f64Pack_sign he hmhi,
    f64Pack_scaled (Nat.succ_pos _) he hmlo hmhi,
    f64Pack_significand_even (Nat.succ_pos _) he hmlo hmhi⟩

/-- Below 2^53 the integer is a multiple of the spacing. -/
theorem u2f_exact {u : Word} (hlt : u.toNat < 2 ^ 53) : f64Scaled (u2f u) = scaledNat u.toNat := by
  by_cases hzero : u.toNat = 0
  · rw [u2f_of_eq_zero hzero, hzero, f64Scaled, f64Significand_zero, scaledNat, Nat.zero_mul,
      Nat.zero_mul]
  · obtain ⟨n, hlo, -, -, -, hscaled, -⟩ := u2f_spec hzero
    have hn : n ≤ 52 :=
      Nat.le_of_lt_succ ((Nat.pow_lt_pow_iff_right (by decide)).1 (hlo.trans_lt hlt))
    rw [hscaled, u2fSignificand, if_pos hn, ← scaledNat_of_le hn]

/-- An f64 value is a multiple of the spacing around `u`, or lies below `u` and the value under it. -/
theorem f64Scaled_lt_or_dvd {u n : Nat} (hlo : 2 ^ n ≤ u) (hhi : u < 2 ^ (n + 1)) (x : Word) :
    f64Scaled x < scaledNat u / f64Spacing n * f64Spacing n ∨ f64Spacing n ∣ f64Scaled x := by
  obtain ⟨hq, -⟩ := scaledNat_div_spacing_bounds hlo hhi
  rcases Nat.lt_or_ge (f64Scaled x) (2 ^ (n + 1022 + 52)) with hx | hx
  · refine .inl (hx.trans_le ?_)
    rw [Nat.add_comm, pow_add]
    exact Nat.mul_le_mul_right _ hq
  · exact .inr (pow_dvd_f64Scaled hx)

/-- Settles O24: below 2^53 the value is exact; from there on it is `roundTiesEven_nearest` at the
spacing around the integer. -/
theorem integerToFloatIsNearest : Obligations.IntegerToFloatIsNearest := by
  unfold Obligations.IntegerToFloatIsNearest
  intro u
  by_cases hzero : u.toNat = 0
  case pos =>
    obtain rfl : u = 0 := BitVec.eq_of_toNat_eq hzero
    refine ⟨rfl, fun h => absurd rfl h, u2f_exact, fun x _ _ => ⟨?_, fun _ _ => rfl⟩⟩
    rw [u2f_exact (by decide), sub_self]
    exact Nat.zero_le _
  case neg =>
    obtain ⟨n, hlo, hhi, hfinite, hsign, hscaled, heven⟩ := u2f_spec hzero
    refine ⟨hfinite, fun _ => hsign, u2f_exact, fun x _ hx => ?_⟩
    obtain ⟨hnear, htie⟩ := roundTiesEven_nearest (Nat.mod_lt (scaledNat u.toNat) (f64Spacing_pos n))
      (f64Scaled_lt_or_dvd hlo hhi x)
    rw [← u2fSignificand_eq, ← hscaled, Nat.div_add_mod'] at hnear htie
    exact ⟨hnear, fun hdist hne => heven ((htie hdist).resolve_left fun hsame =>
      hne (eq_of_f64Scaled_eq hx hsign hsame))⟩

/-! ### `f2u` -/

/-- Truncation divides by the number of units in 1. -/
theorem f64TruncMagnitude_eq (x : Word) : f64TruncMagnitude x = f64Scaled x / scaledNat 1 := by
  unfold f64TruncMagnitude f64Scaled scaledNat
  rw [Nat.one_mul]
  split
  case isTrue h =>
    have hsplit : max 1 (f64Exponent x) - 1 = f64Exponent x - 1075 + 1074 := by omega
    rw [hsplit, pow_add, ← mul_assoc, Nat.mul_div_cancel _ (Nat.two_pow_pos _)]
  case isFalse h =>
    have hsplit : 1074 = 1075 - max 1 (f64Exponent x) + (max 1 (f64Exponent x) - 1) := by omega
    conv_rhs => rw [hsplit, pow_add]
    rw [Nat.mul_div_mul_right _ _ (Nat.two_pow_pos _)]

theorem f64TruncMagnitude_lt_iff {x : Word} {k : Nat} :
    f64TruncMagnitude x < k ↔ f64Scaled x < scaledNat k := by
  rw [f64TruncMagnitude_eq, Nat.div_lt_iff_lt_mul (scaledNat_pos Nat.one_pos), scaledNat, scaledNat,
    Nat.one_mul]

theorem scaledNat_le_f64Scaled_iff {x : Word} {k : Nat} :
    scaledNat k ≤ f64Scaled x ↔ k ≤ f64TruncMagnitude x := by
  rw [← Nat.not_lt, ← Nat.not_lt, f64TruncMagnitude_lt_iff]

theorem f2uInRange_positive {x : Word} (hsign : f64Sign x = false) :
    f2uInRange x = true ↔ f64Finite x = true ∧ f64Scaled x < scaledNat (2 ^ 64) := by
  simp [f2uInRange, hsign, f64TruncMagnitude_lt_iff]

theorem f2uInRange_negative {x : Word} (hsign : f64Sign x = true) :
    f2uInRange x = true ↔ f64Finite x = true ∧ f64Scaled x < scaledNat 1 := by
  simp [f2uInRange, hsign, ← f64TruncMagnitude_lt_iff]

theorem f2u_of_inRange {x : Word} (h : f2uInRange x = true) :
    f2u x = BitVec.ofNat 64 (f64TruncMagnitude x) := if_pos h

theorem f2u_of_outOfRange {x : Word} (h : ¬ f2uInRange x = true) : f2u x = Config.f2uOor x := if_neg h

/-- Settles O25: truncation is a division, so its bounds are the bounds of the value. -/
theorem floatToIntegerTruncates : Obligations.FloatToIntegerTruncates := by
  unfold Obligations.FloatToIntegerTruncates
  intro x
  refine ⟨fun hfinite hsign hlt => ?positive, fun hfinite hsign hlt => ?negative, fun hout => ?outOfRange⟩
  case positive =>
    have hvalue : (f2u x).toNat = f64TruncMagnitude x := by
      rw [f2u_of_inRange ((f2uInRange_positive hsign).2 ⟨hfinite, hlt⟩), BitVec.toNat_ofNat]
      exact Nat.mod_eq_of_lt (f64TruncMagnitude_lt_iff.2 hlt)
    rw [hvalue]
    exact ⟨scaledNat_le_f64Scaled_iff.2 le_rfl, f64TruncMagnitude_lt_iff.1 (Nat.lt_succ_self _)⟩
  case negative =>
    have hzero : f64TruncMagnitude x = 0 := Nat.lt_one_iff.1 (f64TruncMagnitude_lt_iff.2 hlt)
    rw [f2u_of_inRange ((f2uInRange_negative hsign).2 ⟨hfinite, hlt⟩), hzero]
    rfl
  case outOfRange =>
    refine f2u_of_outOfRange fun hin => ?_
    rcases hout with hfinite | ⟨hsign, hle⟩ | ⟨hsign, hle⟩
    · simp [f2uInRange, hfinite] at hin
    · exact hle.not_gt ((f2uInRange_negative hsign).1 hin).2
    · exact hle.not_gt ((f2uInRange_positive hsign).1 hin).2

end Sys2Proof.Machine

/-! PROOF. The operand resolver (O13, O17, O22, O23, O28): each mode's read and write in a usable slot,
`move` as a read and a write, and the size check that comes before both. -/

namespace Sys2Proof.Machine

/-! ### The register an index byte names -/

theorem bankIndex_eq {i : Byte} {j : Fin 64} (h : i.toNat = j.val) : bankIndex i = j :=
  Fin.ext ((congrArg (· % 64) h).trans (Nat.mod_eq_of_lt j.isLt))

theorem reg_wellFormed {i : Byte} {j : Fin 64} (m : RegMode) (h : i.toNat = j.val) :
    (Operand.reg m i).wellFormed = true :=
  decide_eq_true (by omega)

/-! ### Reading and writing each mode -/

section

variable {z : OperandSize} {op : Operand}

/-- An integer-kind mode has no float to give (41_operand_resolver.md R151). -/
theorem resolveFloat_noFloat (h : Usable z op) {s : State} (hv : floatValue op s = none) :
    resolveFloat z op s = .fault .b005Kind s := by
  obtain ⟨hsize, hwf⟩ := h
  simp [resolveFloat, hsize, hwf, hv]

theorem assign_reg_ok {m : RegMode} {i : Byte} (h : Usable z (.reg m i)) (v : Value) (s : State) :
    assign z (.reg m i) v s = .ok () (afterWrite (.reg m i) v s) := by
  obtain ⟨hsize, hwf⟩ := h
  simp [assign, targetFault, hsize, hwf]

theorem assign_special_float (hz : z ≠ .none) (m : SpecialMode) (n : Byte) (x : Word) (s : State) :
    assign z (.special m n) (.float x) s = .fault .b009 s := by
  have hwf : (Operand.special m n).wellFormed = true := rfl
  simp [assign, targetFault, hz, hwf]

/-- Writing a register mode that is not `register_float` sets the integer register
(41_operand_resolver.md R157, R162). -/
theorem afterWrite_integerReg {m : RegMode} (hm : m ≠ .registerFloat) {i : Byte} {j : Fin 64}
    (hi : i.toNat = j.val) (v : Value) (s : State) :
    afterWrite (.reg m i) v s = s.setI j v.toInt := by
  obtain rfl := bankIndex_eq hi
  cases m with
  | registerFloat => exact absurd rfl hm
  | _ => rfl

theorem afterWrite_floatReg {i : Byte} {j : Fin 64} (hi : i.toNat = j.val) (v : Value) (s : State) :
    afterWrite (.reg .registerFloat i) v s = s.setF j v.toFloat := by
  obtain rfl := bankIndex_eq hi
  rfl

theorem assign_integerReg {m : RegMode} (hz : z ≠ .none) (hm : m ≠ .registerFloat) {i : Byte}
    {j : Fin 64} (hi : i.toNat = j.val) (v : Value) (s : State) :
    assign z (.reg m i) v s = .ok () (s.setI j v.toInt) := by
  rw [assign_reg_ok ⟨hz, reg_wellFormed m hi⟩, afterWrite_integerReg hm hi]

theorem assign_floatReg (hz : z ≠ .none) {i : Byte} {j : Fin 64} (hi : i.toNat = j.val) (v : Value)
    (s : State) : assign z (.reg .registerFloat i) v s = .ok () (s.setF j v.toFloat) := by
  rw [assign_reg_ok ⟨hz, reg_wellFormed _ hi⟩, afterWrite_floatReg hi]

end

/-- Settles O22: `resolveInt_ok` and `resolveFloat_ok` in each mode. -/
theorem resolveGivesEachModesValue : Obligations.ResolveGivesEachModesValue := by
  unfold Obligations.ResolveGivesEachModesValue
  intro z i j p s hz hi
  have hwf : ∀ m, (Operand.reg m i).wellFormed = true := fun m => reg_wellFormed m hi
  obtain rfl := bankIndex_eq hi
  refine ⟨resolveInt_ok z _ s hz (hwf _), resolveInt_ok z _ s hz (hwf _),
    resolveInt_ok z _ s hz (hwf _), resolveInt_ok z _ s hz (hwf _), resolveInt_ok z _ s hz (hwf _),
    resolveInt_ok z _ s hz (hwf _), fun x => ?special, fun m x hm => ?constInt,
    resolveFloat_ok z _ s _ hz (hwf _) rfl, fun x => resolveFloat_ok z _ s _ hz rfl rfl,
    fun m x hm => ?constFloat, fun m hm => ?noFloat,
    fun m x => resolveFloat_noFloat ⟨hz, rfl⟩ rfl⟩
  case special =>
    exact ⟨resolveInt_ok z _ s hz rfl, resolveInt_ok z _ s hz rfl, resolveInt_ok z _ s hz rfl,
      resolveInt_ok z _ s hz rfl, resolveInt_ok z _ s hz rfl⟩
  case constInt =>
    cases m with
    | constantFloat => exact absurd rfl hm
    | _ => exact resolveInt_ok z _ s hz rfl
  case constFloat =>
    cases m with
    | constantFloat => exact absurd rfl hm
    | _ => exact resolveFloat_ok z _ s _ hz rfl rfl
  case noFloat =>
    cases m with
    | registerFloat => exact absurd rfl hm
    | _ => exact resolveFloat_noFloat ⟨hz, hwf _⟩ rfl

/-- Settles O23: one rule for the I modes, one for the F mode, one for the special modes and each
kind of fault. -/
theorem assignWritesEachMode : Obligations.AssignWritesEachMode := by
  unfold Obligations.AssignWritesEachMode
  intro z i j p u x v s hz hi
  exact ⟨fun m hm => ⟨assign_integerReg hz hm hi (.int u) s, assign_integerReg hz hm hi (.float x) s⟩,
    assign_floatReg hz hi (.int u) s, assign_floatReg hz hi (.int 0) s,
    assign_floatReg hz hi (.float x) s,
    fun n => ⟨assign_int_ok z _ u s hz rfl rfl, assign_int_ok z _ u s hz rfl rfl,
      assign_int_ok z _ u s hz rfl rfl, assign_int_ok z _ u s hz rfl rfl⟩,
    fun m n => assign_special_float hz m n x s, fun m n => assign_const hz rfl v s,
    fun op => assign_sizeNone op v s⟩

/-! ### `move` -/

section

variable {z : OperandSize} {a : Operand}

/-- A float source is read as its own bits, and reading it adjusts nothing
(41_operand_resolver.md R156, R164). -/
theorem resolveMove_float (ha : Usable z a) (hfloat : isFloatSource a = true) {x : Word} {s : State}
    (hx : floatValue a s = some x) : resolveMove z a s = .ok (.float x) s := by
  obtain ⟨hsize, hwa⟩ := ha
  have hread : afterRead a s = s := by
    match a with
    | .reg .registerFloat _ => rfl
    | .const .constantFloat _ _ => rfl
  rw [resolveMove, if_pos hfloat, resolveFloat_ok z a s x hsize hwa hx, Res.bind_ok, hread]

theorem resolveMove_int (ha : Usable z a) (hint : isFloatSource a = false) (s : State) :
    resolveMove z a s = .ok (.int (intValue a s)) (afterRead a s) := by
  obtain ⟨hsize, hwa⟩ := ha
  rw [resolveMove, if_neg (by simp [hint]), resolveInt_ok z a s hsize hwa, Res.bind_ok]

/-- Once the source is read, `move` is one write (42_data_movement.md R183). -/
theorem exec_move {v : Value} {s s' : State} (hv : resolveMove z a s = .ok v s') (t : Operand) :
    exec (.move z [a, t]) s = (assign z t v s').finish :=
  congrArg (fun r : Res Value => (r.bind fun v s1 => assign z t v s1).finish) hv

end

/-- Settles O17: the source is read without an adjustment, so the fault meets the state unchanged. -/
theorem floatIntoSpecialRegisterRaisesB009 : Obligations.FloatIntoSpecialRegisterRaisesB009 := by
  unfold Obligations.FloatIntoSpecialRegisterRaisesB009
  intro z a m index s ha hfloat
  obtain ⟨x, hx⟩ := floatValue_of_isFloatSource hfloat s
  rw [exec_move (resolveMove_float ha hfloat hx), assign_special_float ha.1]
  rfl

/-- Settles O28: the read of `move` with its kind, then the write of the target's mode. -/
theorem moveCopiesItsSource : Obligations.MoveCopiesItsSource := by
  unfold Obligations.MoveCopiesItsSource
  intro z a t i k f g p s hz hwa hwt hconst hi hk
  have hwf : ∀ m, (Operand.reg m i).wellFormed = true := fun m => reg_wellFormed m hi
  obtain rfl := bankIndex_eq hi
  have hF : resolveMove z (.reg .registerFloat i) s = .ok (.float (s.getF (bankIndex i))) s :=
    resolveMove_float ⟨hz, hwf _⟩ rfl rfl
  have hconstF : resolveMove z (.const .constantFloat i p) s = .ok (.float p) s :=
    resolveMove_float ⟨hz, rfl⟩ rfl rfl
  have hI : resolveMove z (.reg .registerInteger i) s = .ok (.int (s.getI (bankIndex i))) s :=
    resolveMove_int ⟨hz, hwf _⟩ rfl s
  refine ⟨fun hint => ?integerKind, ?floatToFloat, ?constToFloat, fun m hm => ⟨?floatToInt, ?constToInt⟩,
    ?intToFloat⟩
  case integerKind =>
    rw [exec_move (resolveMove_int ⟨hz, hwa⟩ hint s), assign_int_ok z t _ _ hz hwt hconst,
      Res.finish_ok]
  case floatToFloat => rw [exec_move hF, assign_floatReg hz hk, Res.finish_ok]; rfl
  case constToFloat => rw [exec_move hconstF, assign_floatReg hz hk, Res.finish_ok]; rfl
  case floatToInt => rw [exec_move hF, assign_integerReg hz hm hk, Res.finish_ok]; rfl
  case constToInt => rw [exec_move hconstF, assign_integerReg hz hm hk, Res.finish_ok]; rfl
  case intToFloat => rw [exec_move hI, assign_floatReg hz hk, Res.finish_ok]; rfl

/-! ### Size `none` at the first operand access -/

section

variable {ops : List Operand}

theorem binaryOp_sizeNone (h : ops.length = 3) (f : Word → Word → Word) (s : State) :
    binaryOp .none ops f s = .next (raise .b005Size s) := by
  obtain ⟨t, a, b, rfl⟩ := List.length_eq_three.1 h
  rfl

theorem unaryOp_sizeNone (h : ops.length = 2) (f : Word → Word) (s : State) :
    unaryOp .none ops f s = .next (raise .b005Size s) := by
  obtain ⟨t, a, rfl⟩ := List.length_eq_two.1 h
  rfl

theorem flagsOp_sizeNone (h : ops.length = 2) (f : Word → Word → Word → Word) (s : State) :
    flagsOp .none ops f s = .next (raise .b005Size s) := by
  obtain ⟨a, b, rfl⟩ := List.length_eq_two.1 h
  rfl

theorem branchOp_sizeNone (h : ops.length = 1) (cond : Word → Bool) (s : State) :
    branchOp .none ops cond s = .next (raise .b005Size s) := by
  obtain ⟨t, rfl⟩ := List.length_eq_one_iff.1 h
  rfl

theorem bitBranchOp_sizeNone (h : ops.length = 2) (wanted : Bool) (s : State) :
    bitBranchOp .none ops wanted s = .next (raise .b005Size s) := by
  obtain ⟨t, b, rfl⟩ := List.length_eq_two.1 h
  rfl

theorem execLoad_sizeNone (h : ops.length = 2 ∨ ops.length = 3) (s : State) :
    execLoad .none ops s = .next (raise .b005Size s) := by
  rcases h with h | h
  · obtain ⟨t, base, rfl⟩ := List.length_eq_two.1 h
    rfl
  · obtain ⟨t, base, offset, rfl⟩ := List.length_eq_three.1 h
    rfl

theorem execStore_sizeNone (h : ops.length = 2 ∨ ops.length = 3) (s : State) :
    execStore .none ops s = .next (raise .b005Size s) := by
  rcases h with h | h
  · obtain ⟨v, base, rfl⟩ := List.length_eq_two.1 h
    rfl
  · obtain ⟨v, base, offset, rfl⟩ := List.length_eq_three.1 h
    rfl

/-- Either kind of read checks the size (41_operand_resolver.md R151). -/
theorem resolveMove_sizeNone (a : Operand) (s : State) :
    resolveMove .none a s = .fault .b005Size s := by
  unfold resolveMove
  split <;> rfl

theorem execMove_sizeNone (h : ops.length = 2) (s : State) :
    execMove .none ops s = .next (raise .b005Size s) := by
  obtain ⟨a, t, rfl⟩ := List.length_eq_two.1 h
  simp only [execMove, resolveMove_sizeNone, Res.bind_fault, Res.finish_fault]

theorem execPush_sizeNone (h : ops.length = 1) (s : State) :
    execPush .none ops s = .next (raise .b005Size s) := by
  obtain ⟨a, rfl⟩ := List.length_eq_one_iff.1 h
  rfl

theorem execMod_sizeNone (h : ops.length = 3) (s : State) :
    execMod .none ops s = .next (raise .b005Size s) := by
  obtain ⟨t, a, b, rfl⟩ := List.length_eq_three.1 h
  rfl

theorem execJmp_sizeNone (h : ops.length = 1) (s : State) :
    execJmp .none ops s = .next (raise .b005Size s) := by
  obtain ⟨t, rfl⟩ := List.length_eq_one_iff.1 h
  rfl

end

/-- The opcodes whose first act is no operand access: they have none, or they move the stack first. -/
def noOperandAccessFirst : List Op := [.nop, .metaData, .debug, .rts, .exit, .pop, .jsr]

theorem exec_sizeNone {i : Instr} {s : State} (hsize : i.size = .none)
    (hcount : i.op.accepts i.operands.length = true) (hrule : RunsItsRule i s)
    (hop : i.op ∉ noOperandAccessFirst) : exec i s = .next (raise .b005Size s) := by
  cases i
  case nop | metaData | debug | rts | exit | pop | jsr => simp [noOperandAccessFirst, Instr.op] at hop
  all_goals obtain rfl := hsize
  case load => exact execLoad_sizeNone (of_decide_eq_true hcount) s
  case store => exact execStore_sizeNone (of_decide_eq_true hcount) s
  case move => exact execMove_sizeNone (of_decide_eq_true hcount) s
  case push => exact execPush_sizeNone (of_decide_eq_true hcount) s
  case mod => exact execMod_sizeNone (of_decide_eq_true hcount) s
  case jmp => exact execJmp_sizeNone (of_decide_eq_true hcount) s
  case add | sub | mul | div => exact binaryOp_sizeNone (of_decide_eq_true hcount) _ s
  all_goals refine (reservedOp_architected s _ (hrule.resolve_left nofun)).trans ?_
  case shr | shl | ror | rol | and | or | xor | bis | bic =>
    exact binaryOp_sizeNone (of_decide_eq_true hcount) _ s
  case neg | not => exact unaryOp_sizeNone (of_decide_eq_true hcount) _ s
  case test | cmp => exact flagsOp_sizeNone (of_decide_eq_true hcount) _ s
  case tbz | tbnz => exact bitBranchOp_sizeNone (of_decide_eq_true hcount) _ s
  all_goals exact branchOp_sizeNone (of_decide_eq_true hcount) _ s

/-- Settles O13: every shape of meaning checks the size before it changes anything. -/
theorem sizeNoneRaisesB005 : Obligations.SizeNoneRaisesB005 := by
  unfold Obligations.SizeNoneRaisesB005
  intro i s hsize hcount hrule hop
  exact exec_sizeNone hsize hcount hrule hop

end Sys2Proof.Machine

/-! PROOF. Data movement (O29, O30, O31): `push` and `pop` in bounds, the stack ports of the host one
after the other, and the instructions without an effect. -/

namespace Sys2Proof.Machine

/-! ### `push` and `pop` in bounds -/

/-- Settles O29: `push` reads its source and then stores, `pop` reads its slot and then writes its
target. -/
theorem pushStoresAndPopLoads : Obligations.PushStoresAndPopLoads := by
  unfold Obligations.PushStoresAndPopLoads
  rintro z v t s ⟨hwf, -⟩ hv ⟨hz, hwt, hconst⟩
  constructor
  case left =>
    intro h
    refine ⟨_, ?_, Memory.writeBytes_leBytes hwf _ 8 (intValue v s)⟩
    rw [exec_push hv, stackPush_ok _ (by simpa using h)]
    simp
  case right =>
    intro h
    simp only [exec, execPop, stackPop_ok h, Res.bind_ok, assign_int_ok z t _ _ hz hwt hconst,
      Res.finish_ok]

/-! ### The stack ports of the host -/

/-- Where the host may push, `sp - 8` does not wrap (70_reset_and_hazards.md R335). -/
theorem toNat_sub_eight {sp : Word} (h : 8 ≤ sp.toNat) : (sp - 8).toNat + 8 = sp.toNat := by
  bv_omega

/-- The push port inside the host's duties (70_reset_and_hazards.md R334, R335). -/
theorem hostPush_ok {s : State} (v : Word) (hinit : s.status ≠ .uninitialised)
    (hlow : 8 ≤ s.sp.toNat) (hhigh : s.sp.toNat ≤ s.cfg.heapSize) :
    hostPush v s = .next ((s.setSp (s.sp - 8)).setMem
      (Memory.writeBytes s.mem (s.sp - 8).toNat (leBytes 8 v.toNat))) := by
  have hslot : (s.sp - 8).toNat + 8 ≤ s.cfg.heapSize := by rwa [toNat_sub_eight hlow]
  simp [hostPush, hinit, hlow, hhigh, stackPush_ok v hslot]

/-- The pop port inside the host's duties (70_reset_and_hazards.md R334, R335). -/
theorem hostPop_ok {s : State} (hinit : s.status ≠ .uninitialised)
    (h : s.sp.toNat + 8 ≤ s.cfg.heapSize) :
    hostPop s =
      .next (s.setSp (s.sp + 8), BitVec.ofNat 64 (littleEndian s.mem s.sp.toNat 8)) := by
  simp [hostPop, hinit, stackPop_ok h]

/-- Once `sp` is moved back, only the memory differs. -/
theorem setSp_back (s : State) (x : Word) (m : Memory) :
    ((s.setSp x).setMem m).setSp s.sp = { s with mem := m } := rfl

/-- Settles O30: the pop reads the slot that the push wrote, and `sp` is back where it was. -/
theorem hostPushThenPopReturnsTheValue : Obligations.HostPushThenPopReturnsTheValue := by
  unfold Obligations.HostPushThenPopReturnsTheValue
  rintro v s - ⟨hwf, -⟩ hinit hlow hhigh
  have hsp : (s.sp - 8).toNat + 8 = s.sp.toNat := toNat_sub_eight hlow
  refine ⟨_, _, hostPush_ok v hinit hlow hhigh, hsp, ?_, rfl⟩
  rw [hostPop_ok (s := (s.setSp (s.sp - 8)).setMem _) hinit (hsp.trans_le hhigh)]
  simp only [State.setMem_sp, State.setSp_sp, State.setMem_mem, BitVec.sub_add_cancel, setSp_back,
    littleEndian_writeBytes_word hwf, BitVec.ofNat_toNat, BitVec.setWidth_eq]

/-! ### Instructions without an effect -/

theorem inertOp_ok {ops : List Operand} (h : ops.length ≤ 4) (s : State) :
    inertOp ops s = .next s := if_pos h

/-- A reserved opcode whose meaning changes nothing changes nothing in either mode
(40_sequencer.md R135). -/
theorem reservedOp_same (s : State) : reservedOp s (.next s) = .next s := by
  unfold reservedOp
  split <;> rfl

/-- Settles O31: all three are `inertOp`, `meta` and `debug` behind RESERVED_OP_MODE. -/
theorem inertInstructionsChangeNothing : Obligations.InertInstructionsChangeNothing := by
  unfold Obligations.InertInstructionsChangeNothing
  intro z ops s h
  have hinert : inertOp ops s = .next s := inertOp_ok h s
  have hreserved : reservedOp s (inertOp ops s) = .next s := by rw [hinert, reservedOp_same]
  exact ⟨hinert, hreserved, hreserved⟩

end Sys2Proof.Machine

/-! PROOF. Integer arithmetic (O32, O33, O34): `add`, `sub`, `mul` and `div` are two-source operations,
so `binaryOp_ok` completes them; `mod` checks its divisor and the policy between the reads and the
write. -/

namespace Sys2Proof.Machine

/-! ### The results -/

theorem ofInt_toNat_sub (x y : Word) : BitVec.ofInt 64 (x.toNat - y.toNat) = x - y := by
  simp [Int.sub_eq_add_neg, BitVec.ofInt_add, BitVec.ofInt_neg, BitVec.sub_eq_add_neg]

theorem divU_toNat {x y : Word} (hy : y.toNat ≠ 0) : (divU x y).toNat = x.toNat / y.toNat := by
  rw [divU, if_neg hy, BitVec.toNat_ofNat, Nat.mod_eq_of_lt]
  exact (Nat.div_le_self _ _).trans_lt x.isLt

theorem modU_toNat {x y : Word} (hy : y.toNat ≠ 0) : (modU x y).toNat = x.toNat % y.toNat := by
  rw [modU, if_neg hy, BitVec.toNat_ofNat, Nat.mod_eq_of_lt]
  exact (Nat.mod_le _ _).trans_lt x.isLt

theorem divU_zero {x y : Word} (hy : y.toNat = 0) : divU x y = 0 := if_pos hy

theorem modU_zero (x : Word) : modU x 0 = 0 := rfl

/-- Quotient and remainder satisfy the division law (43_arithmetic.md R206). -/
theorem divU_modU_law {x y : Word} (hy : y.toNat ≠ 0) :
    x.toNat = y.toNat * (divU x y).toNat + (modU x y).toNat ∧ (modU x y).toNat < y.toNat := by
  rw [divU_toNat hy, modU_toNat hy]
  exact ⟨(Nat.div_add_mod _ _).symm, Nat.mod_lt _ (Nat.pos_of_ne_zero hy)⟩

/-! ### `mod` past its reads -/

/-- MOD_BY_ZERO_UNDEFINED has no diagnostic to append (60_exceptions.md R303). -/
theorem raise_modByZeroUndefined (s : State) :
    raise .modByZeroUndefined s = s.setStatus (.faulted .modByZeroUndefined) := by
  simp [raise, FaultCause.diagnostics, FaultCause.code, State.setStatus]

section

variable {z : OperandSize} {t a b : Operand} {s : State}

theorem execMod_ok (ht : Writable z t) (ha : Usable z a) (hb : Usable z b)
    (hmod : s.cfg.modZeroPolicy = .zero ∨ secondValue a b s ≠ 0) :
    execMod z [t, a, b] s =
      .next (afterWrite t (.int (modU (intValue a s) (secondValue a b s))) (afterTwoReads a b s)) := by
  obtain ⟨hsize, hwt, hconst⟩ := ht
  rw [execMod_eq_assign ha hb hmod, assign_int_ok z t _ _ hsize hwt hconst, Res.finish_ok]

/-- The policy `fault` answers in place of the write, whatever the target is. -/
theorem execMod_faults (ha : Usable z a) (hb : Usable z b) (hzero : secondValue a b s = 0)
    (hpolicy : s.cfg.modZeroPolicy = .fault) (t : Operand) :
    execMod z [t, a, b] s =
      .next ((afterTwoReads a b s).setStatus (.faulted .modByZeroUndefined)) := by
  obtain ⟨hsize, hwa⟩ := ha
  obtain ⟨-, hwb⟩ := hb
  have hfault : (secondValue a b s).toNat = 0 ∧
      (afterTwoReads a b s).cfg.modZeroPolicy = .fault := by
    rw [hzero, afterRead_cfg, afterRead_cfg]
    exact ⟨rfl, hpolicy⟩
  simp only [execMod, resolveInt_ok z a s hsize hwa, resolveInt_ok z b (afterRead a s) hsize hwb,
    Res.bind_ok, if_pos hfault, Res.finish_fault, raise_modByZeroUndefined]

end

/-! ### The statements -/

/-- Settles O33: the results of `divU` and `modU` satisfy the division law. -/
theorem divModExact : Obligations.DivModExact := by
  unfold Obligations.DivModExact
  rintro z t a b s x y ht ha hb rfl rfl
  have hdiv := binaryOp_ok ht ha hb divU s
  refine ⟨fun hy => ?nonzero, fun hy => ?zero⟩
  case nonzero =>
    have hne : secondValue a b s ≠ 0 := fun hzero => hy (congrArg BitVec.toNat hzero)
    exact ⟨_, _, hdiv, execMod_ok ht ha hb (.inr hne), divU_modU_law hy⟩
  case zero => rwa [divU_zero hy] at hdiv

/-- Settles O32: a result modulo 2^64 is the word operation's. -/
theorem addSubMulWrap : Obligations.AddSubMulWrap := by
  unfold Obligations.AddSubMulWrap
  rintro z t a b s x y ht ha hb rfl rfl
  simp only [BitVec.ofNat_add, BitVec.ofNat_mul, ofInt_toNat_sub, BitVec.ofNat_toNat,
    BitVec.setWidth_eq]
  exact ⟨binaryOp_ok ht ha hb _ s, binaryOp_ok ht ha hb _ s, binaryOp_ok ht ha hb _ s⟩

/-- Settles O34: under `zero` the write takes place, under `fault` the fault takes its place. -/
theorem modByZeroFollowsThePolicy : Obligations.ModByZeroFollowsThePolicy := by
  unfold Obligations.ModByZeroFollowsThePolicy
  rintro z t a b s ⟨hsize, hwt⟩ ha hb hzero
  refine ⟨fun hpolicy hconst => ?zero, fun hpolicy => ?fault⟩
  case zero =>
    have hmod := execMod_ok ⟨hsize, hwt, hconst⟩ ha hb (.inl hpolicy)
    rwa [hzero, modU_zero] at hmod
  case fault => exact execMod_faults ha hb hzero hpolicy t

end Sys2Proof.Machine

/-! PROOF. The flags and their readers (O44, O50): who else may write `fr`, and what the branches make of
the flags that `cmp` left there. -/

namespace Sys2Proof.Machine

/-! ### Who writes `fr` -/

theorem afterWrite_fr {op : Operand} (h : ∀ index, op ≠ .special .registerFlags index) (v : Value)
    (s : State) : (afterWrite op v s).fr = s.fr := by
  match op with
  | .special .registerFlags index => exact absurd rfl (h index)
  | .special .registerSp _ => rfl
  | .special .registerPc _ => rfl
  | .special .registerStatus _ => rfl
  | .const _ _ _ => rfl
  | .reg m _ => cases m <;> rfl

theorem flagsRegister_untouched {i : Instr}
    (htarget : ∀ index, targetOf i ≠ some (.special .registerFlags index))
    (hop : setsFlags i.op = false) : Untouched State.fr i where
  read op _ _ s := afterRead_fr op s
  write _ hop _ := afterWrite_fr (ne_of_targetOf htarget hop)
  jump _ _ _ := rfl
  stack _ _ _ := rfl
  flags hi := absurd hi (by simp [hop])
  store _ _ _ := rfl
  halt _ := rfl
  raised _ _ := rfl

theorem setsFlags_eq_false {o : Op} (hcmp : o ≠ .cmp) (htest : o ≠ .test) : setsFlags o = false :=
  decide_eq_false (by simp [hcmp, htest])

/-- Settles O50: `fr` has no writer in `exec` but a target and the flag computation of `cmp` and
`test`. -/
theorem onlyCmpAndTestWriteFlags : Obligations.OnlyCmpAndTestWriteFlags := by
  unfold Obligations.OnlyCmpAndTestWriteFlags
  refine ⟨fun i s t hexec hcmp htest htarget => ?frame, fun z index u s hz => ?target,
    fun cfg m => ?boot⟩
  case frame =>
    exact (flagsRegister_untouched htarget (setsFlags_eq_false hcmp htest)).exec_eq hexec
  case target => exact assign_int_ok z (.special .registerFlags index) u s hz rfl rfl
  case boot => rfl

/-! ### Branches -/

/-- With a usable target, a branch reads it whether or not it jumps (45_control_transfer.md R254). -/
theorem branchOp_ok {z : OperandSize} {a : Operand} (ha : Usable z a) (cond : Word → Bool)
    (s : State) :
    branchOp z [a] cond s =
      .next (if cond s.fr then (afterRead a s).setPc (intValue a s) else afterRead a s) := by
  obtain ⟨hsize, hwa⟩ := ha
  simp [branchOp, resolveInt_ok z a s hsize hwa]

section

variable {y : OperandSize} {t : State} {cond : Word → Bool} {P : Prop} [Decidable P]

/-- A branch to a constant jumps there or changes nothing. -/
theorem reservedBranch_const (hy : y ≠ .none) (hmode : t.cfg.reservedOpMode = .architected) (p : Word)
    (hcond : cond t.fr = true ↔ P) :
    reservedOp t (branchOp y [.const .constantInteger 0 p] cond t) =
      .next (if P then t.setPc p else t) := by
  have husable : Usable y (.const .constantInteger 0 p) := ⟨hy, rfl⟩
  rw [reservedOp_architected t _ hmode, branchOp_ok husable, if_congr hcond rfl rfl]
  rfl

theorem reservedBranch_const_not (hy : y ≠ .none) (hmode : t.cfg.reservedOpMode = .architected)
    (p : Word) (hcond : cond t.fr = true ↔ ¬ P) :
    reservedOp t (branchOp y [.const .constantInteger 0 p] cond t) =
      .next (if P then t else t.setPc p) := by
  rw [reservedBranch_const hy hmode p hcond, ite_not]

end

/-- After `cmp`, Z, C and V say how the sources compare, and nothing has changed RESERVED_OP_MODE
(44_logic_shift_compare.md R231). -/
theorem flags_of_exec_cmp {z : OperandSize} {a b : Operand} {s t : State} (ha : Usable z a)
    (hb : Usable z b) (hmode : s.cfg.reservedOpMode = .architected)
    (hexec : exec (.cmp z [a, b]) s = .next t) :
    t.cfg.reservedOpMode = .architected ∧
      (flagZ t.fr = true ↔
        (intValue a s).toNat % 2 ^ width z = (secondValue a b s).toNat % 2 ^ width z) ∧
      (flagC t.fr = true ↔
        (intValue a s).toNat % 2 ^ width z < (secondValue a b s).toNat % 2 ^ width z) ∧
      (flagV t.fr = true ↔
        signedW (width z) (intValue a s) - signedW (width z) (secondValue a b s) <
            -2 ^ (width z - 1) ∨
          2 ^ (width z - 1) ≤
            signedW (width z) (intValue a s) - signedW (width z) (secondValue a b s)) := by
  obtain ⟨f, hnext, hz, hc, hv, -, -⟩ :=
    cmpSetsTheFlagsOfTheDifference z a b s _ _ ha hb hmode rfl rfl
  obtain rfl := Host.Outcome.next.inj (hnext.symm.trans hexec)
  exact ⟨by simpa using hmode, hz, hc, hv⟩

/-- Settles O44: each branch condition is a combination of Z, C and V, which `cmp` has set to the
comparisons that the branch is named after. -/
theorem compareThenBranch : Obligations.CompareThenBranch := by
  unfold Obligations.CompareThenBranch
  intro z y a b s t p u v ha hb hy hmode hexec hu hv
  obtain ⟨hmode, hequal, hbelow, hoverflow⟩ := flags_of_exec_cmp ha hb hmode hexec
  rw [← hu, ← hv] at hequal hbelow
  have hne : (!flagZ t.fr) = true ↔ ¬ u = v := by simp [← hequal]
  have hnotBelow : (!flagC t.fr) = true ↔ v ≤ u := by simp [← Nat.not_lt, ← hbelow]
  have hbelowOrEqual : (flagC t.fr || flagZ t.fr) = true ↔ u ≤ v := by
    rw [Bool.or_eq_true, hbelow, hequal, Nat.le_iff_lt_or_eq]
  have habove : (!flagC t.fr && !flagZ t.fr) = true ↔ v < u := by
    rw [Bool.and_eq_true, hnotBelow, hne, Nat.lt_iff_le_and_ne, ne_comm]
  exact ⟨reservedBranch_const hy hmode p hequal, reservedBranch_const hy hmode p hequal,
    reservedBranch_const_not hy hmode p hne, reservedBranch_const_not hy hmode p hne,
    reservedBranch_const hy hmode p hbelow, reservedBranch_const hy hmode p hbelow,
    reservedBranch_const hy hmode p hbelowOrEqual, reservedBranch_const hy hmode p habove,
    reservedBranch_const hy hmode p hnotBelow, reservedBranch_const hy hmode p hnotBelow,
    reservedBranch_const hy hmode p hoverflow⟩

end Sys2Proof.Machine

/-! PROOF. Control transfer (O42, O43, O45, O46): the branches on the flags and on a bit of `fr`,
the jump, and the call with its return, which meet in the stack slot of the stored pc. -/

namespace Sys2Proof.Machine

/-! ### Branches on the flags -/

section

variable {z : OperandSize} {a : Operand} {s : State} {cond : Word → Bool} {P : Prop} [Decidable P]

/-- An architected branch reads its target and jumps exactly under its condition
(45_control_transfer.md R254). -/
theorem reservedBranch_ok (hmode : s.cfg.reservedOpMode = .architected) (ha : Usable z a)
    (hcond : cond s.fr = true ↔ P) :
    reservedOp s (branchOp z [a] cond s) =
      .next (if P then (afterRead a s).setPc (intValue a s) else afterRead a s) := by
  rw [reservedOp_architected s _ hmode, branchOp_ok ha, if_congr hcond rfl rfl]

theorem reservedBranch_ok_not (hmode : s.cfg.reservedOpMode = .architected) (ha : Usable z a)
    (hcond : cond s.fr = true ↔ ¬ P) :
    reservedOp s (branchOp z [a] cond s) =
      .next (if P then afterRead a s else (afterRead a s).setPc (intValue a s)) := by
  rw [reservedBranch_ok hmode ha hcond, ite_not]

end

/-- Settles O42: the condition of each branch as a combination of Z, C and V. -/
theorem branchesFollowTheFlags : Obligations.BranchesFollowTheFlags := by
  unfold Obligations.BranchesFollowTheFlags
  rintro z a s taken zf cf vf ha hmode rfl rfl rfl rfl
  have hz : flagZ s.fr = true ↔ s.fr.getLsbD 0 = true := Iff.rfl
  have hc : flagC s.fr = true ↔ s.fr.getLsbD 1 = true := Iff.rfl
  have hv : flagV s.fr = true ↔ s.fr.getLsbD 2 = true := Iff.rfl
  have hnotZ : (!flagZ s.fr) = true ↔ ¬ s.fr.getLsbD 0 = true := Bool.not_iff_not
  have hnotC : (!flagC s.fr) = true ↔ ¬ s.fr.getLsbD 1 = true := Bool.not_iff_not
  have hcOrZ : (flagC s.fr || flagZ s.fr) = true ↔
      s.fr.getLsbD 1 = true ∨ s.fr.getLsbD 0 = true := by
    rw [Bool.or_eq_true, hc, hz]
  have hneither : (!flagC s.fr && !flagZ s.fr) = true ↔
      ¬ (s.fr.getLsbD 1 = true ∨ s.fr.getLsbD 0 = true) := by
    rw [Bool.and_eq_true, hnotC, hnotZ, not_or]
  exact ⟨reservedBranch_ok hmode ha hz, reservedBranch_ok_not hmode ha hnotZ,
    reservedBranch_ok_not hmode ha hnotZ, reservedBranch_ok hmode ha hz,
    reservedBranch_ok_not hmode ha hnotC, reservedBranch_ok_not hmode ha hneither,
    reservedBranch_ok hmode ha hcOrZ, reservedBranch_ok hmode ha hc, reservedBranch_ok hmode ha hv,
    reservedBranch_ok_not hmode ha hnotC, reservedBranch_ok hmode ha hc⟩

/-! ### Branches on a bit of `fr` -/

/-- From 64 on every bit is 0 (45_control_transfer.md R257). -/
theorem frBit_eq_true_iff (fr k : Word) :
    frBit fr k = true ↔ k.toNat < 64 ∧ fr.getLsbD k.toNat = true :=
  ⟨fun h => ⟨BitVec.lt_of_getLsbD h, h⟩, And.right⟩

theorem frBit_eq_false_iff (fr k : Word) :
    frBit fr k = false ↔ ¬ (k.toNat < 64 ∧ fr.getLsbD k.toNat = true) := by
  rw [← frBit_eq_true_iff, Bool.not_eq_true]

section

variable {z : OperandSize} {a b : Operand}

/-- With usable operands, a bit branch reads both and compares the named bit with the wanted one
(45_control_transfer.md R257, R258). -/
theorem bitBranchOp_ok (ha : Usable z a) (hb : Usable z b) (wanted : Bool) (s : State) :
    bitBranchOp z [a, b] wanted s =
      .next (if frBit s.fr (secondValue a b s) = wanted
        then (afterTwoReads a b s).setPc (intValue a s) else afterTwoReads a b s) := by
  obtain ⟨hsize, hwa⟩ := ha
  obtain ⟨-, hwb⟩ := hb
  simp [bitBranchOp, resolveInt_ok z a s hsize hwa, resolveInt_ok z b (afterRead a s) hsize hwb]

theorem reservedBitBranch_ok {s : State} {wanted : Bool} {P : Prop} [Decidable P]
    (hmode : s.cfg.reservedOpMode = .architected) (ha : Usable z a) (hb : Usable z b)
    (hbit : frBit s.fr (secondValue a b s) = wanted ↔ P) :
    reservedOp s (bitBranchOp z [a, b] wanted s) =
      .next (if P then (afterTwoReads a b s).setPc (intValue a s) else afterTwoReads a b s) := by
  rw [reservedOp_architected s _ hmode, bitBranchOp_ok ha hb, if_congr hbit rfl rfl]

end

/-- Settles O43: the named bit is `frBit`, false from 64 on. -/
theorem bitBranchesTestTheNamedBit : Obligations.BitBranchesTestTheNamedBit := by
  unfold Obligations.BitBranchesTestTheNamedBit
  rintro z a b s taken k ha hb hmode rfl rfl
  have htbz := reservedBitBranch_ok hmode ha hb (frBit_eq_false_iff s.fr (secondValue a b s))
  have htbnz := reservedBitBranch_ok hmode ha hb (frBit_eq_true_iff s.fr (secondValue a b s))
  rw [ite_not] at htbz
  exact ⟨htbz, htbnz⟩

/-! ### Jump, call and return -/

/-- The state between the push and the read of `jsr`: the pc stands in the slot below `sp`
(45_control_transfer.md R251). -/
def afterPcPush (s : State) : State :=
  (s.setSp (s.sp - 8)).setMem (Memory.writeBytes s.mem (s.sp - 8).toNat (leBytes 8 s.pc.toNat))

@[simp] theorem afterPcPush_sp (s : State) : (afterPcPush s).sp = s.sp - 8 := rfl

@[simp] theorem afterPcPush_cfg (s : State) : (afterPcPush s).cfg = s.cfg := rfl

/-- The slot holds the pc. -/
theorem littleEndian_afterPcPush {s : State} (hwf : Memory.wf s.mem = true) :
    littleEndian (afterPcPush s).mem (s.sp - 8).toNat 8 = s.pc.toNat :=
  littleEndian_writeBytes_word hwf (s.sp - 8).toNat s.pc

theorem stackPush_pc {s : State} (h : (s.sp - 8).toNat + 8 ≤ s.cfg.heapSize) :
    stackPush s.pc s = .ok () (afterPcPush s) := stackPush_ok s.pc h

theorem exec_jmp {z : OperandSize} {a : Operand} (ha : Usable z a) (s : State) :
    exec (.jmp z [a]) s = .next ((afterRead a s).setPc (intValue a s)) := by
  obtain ⟨hsize, hwa⟩ := ha
  simp [exec, execJmp, resolveInt_ok z a s hsize hwa]

/-- `jsr` in bounds is the push and then `jmp` (45_control_transfer.md R251). -/
theorem exec_jsr_eq_jmp {z : OperandSize} {s : State} (h : (s.sp - 8).toNat + 8 ≤ s.cfg.heapSize)
    (a : Operand) : exec (.jsr z [a]) s = exec (.jmp z [a]) (afterPcPush s) := by
  simp [exec, execJsr, execJmp, stackPush_pc h]

theorem exec_rts {s : State} (h : s.sp.toNat + 8 ≤ s.cfg.heapSize) (y : OperandSize) :
    exec (.rts y []) s =
      .next ((s.setSp (s.sp + 8)).setPc (BitVec.ofNat 64 (littleEndian s.mem s.sp.toNat 8))) := by
  simp [exec, execRts, stackPop_ok h]

/-- Settles O45: `jsr` is its push and then `jmp`, whatever the operand. -/
theorem jumpsAndCallsSetThePc : Obligations.JumpsAndCallsSetThePc := by
  unfold Obligations.JumpsAndCallsSetThePc
  rintro z y a s ⟨hwf, -⟩ ha
  refine ⟨exec_jmp ha s, fun hslot => ?call, fun hslot => exec_rts hslot y⟩
  case call =>
    have hcall := (exec_jsr_eq_jmp hslot a).trans (exec_jmp ha (afterPcPush s))
    exact ⟨afterPcPush s, rfl, hcall, Memory.writeBytes_leBytes hwf (s.sp - 8).toNat 8 s.pc⟩

/-- What `jsr` leaves behind, its operand's adjustments and the jump apart. -/
theorem stack_of_exec_jsr {z : OperandSize} {a : Operand} {s t : State} (ha : Usable z a)
    (hslot : (s.sp - 8).toNat + 8 ≤ s.cfg.heapSize) (hexec : exec (.jsr z [a]) s = .next t) :
    t.sp = s.sp - 8 ∧ t.mem = (afterPcPush s).mem ∧ t.cfg = s.cfg := by
  rw [exec_jsr_eq_jmp hslot, exec_jmp ha] at hexec
  obtain rfl := Host.Outcome.next.inj hexec
  simp

/-- Settles O46: `rts` reads the slot that `jsr` wrote, and `sp` is back where it was. -/
theorem callThenReturnRestoresPcAndSp : Obligations.CallThenReturnRestoresPcAndSp := by
  unfold Obligations.CallThenReturnRestoresPcAndSp
  rintro z y a s t u ⟨hwf, -⟩ ha hslot hexec hsp hmem hcfg
  obtain ⟨hspCall, hmemCall, hcfgCall⟩ := stack_of_exec_jsr ha hslot hexec
  rw [hspCall] at hsp
  rw [hmemCall] at hmem
  rw [hcfgCall] at hcfg
  have hslotBack : u.sp.toNat + 8 ≤ u.cfg.heapSize := by rwa [hsp, hcfg]
  refine ⟨_, exec_rts hslotBack y, ?pc, ?sp⟩
  case pc =>
    rw [State.setPc_pc, hsp, hmem, littleEndian_afterPcPush hwf, BitVec.ofNat_toNat,
      BitVec.setWidth_eq]
  case sp => rw [State.setPc_sp, State.setSp_sp, hsp, BitVec.sub_add_cancel]

end Sys2Proof.Machine
